-- ==== Sys2Proof/Word.lean ====
section
/-! DEFINITION. The one data type the block computes on: the byte (00_scope.md R8, R10). -/

namespace Sys2Proof

/-- A byte, "an integer 0..255" (00_scope.md R10); its arithmetic is modulo 256 (R8). -/
abbrev Byte := BitVec 8

/-- A caller's timeout, 32-bit unsigned milliseconds (30_encoding.md R107). -/
abbrev Millis := BitVec 32

end Sys2Proof
end

