-- ==== Sys2Proof/Config.lean ====
section
/-! DEFINITION. What is fixed when a block is built (00_scope.md R7, 10_state.md R27). -/

namespace Sys2Proof

/-- The implementation parameters of 00_scope.md R7. A block instance carries its own (10_state.md R45) and no
operation writes one (R27). -/
structure Config where
  /-- MAX_PAYLOAD, the largest command payload ENCODE_FRAME accepts: 3..253. -/
  maxPayload : Nat
  /-- RX_BODY_CAP, the capacity of RXBUF: 8..257. -/
  rxBodyCap : Nat
  /-- UID_CAP, the UID output capacity of READ_PASSIVE_TARGET_A: 0..255. -/
  uidCap : Nat
  /-- T_CALL, passed to the transport with every call and never observed by the block. -/
  tCall : Nat
  /-- SAM_MODE. -/
  samMode : Byte
  /-- SAM_TIMEOUT, in 50 ms units. -/
  samTimeout : Byte
  /-- SAM_IRQ. -/
  samIrq : Byte
  deriving DecidableEq, Repr

/-- T_ACK_MS, fixed at 50 ms (00_scope.md R7). -/
def tAckMs : Millis := 50
/-- T_RSP_MS, fixed at 100 ms (00_scope.md R7). -/
def tRspMs : Millis := 100

/-- The per-call transport timeout. The spec leaves its value OPEN (92_eei_decisions.md D16), so it has no body here:
log entry 2. -/
opaque Config.openTCall : Nat

/-- The parameters with the default of each (00_scope.md R7); T_CALL, which has none, stays free. -/
def Config.default : Config :=
  { maxPayload := 60, rxBodyCap := 64, uidCap := 10, tCall := Config.openTCall,
    samMode := 0x01, samTimeout := 0x14, samIrq := 0x01 }

/-- Every parameter is in the range 00_scope.md R7 gives it. -/
abbrev Config.InRange (c : Config) : Prop :=
  3 ≤ c.maxPayload ∧ c.maxPayload ≤ 253 ∧ 8 ≤ c.rxBodyCap ∧ c.rxBodyCap ≤ 257 ∧ c.uidCap ≤ 255

end Sys2Proof
end

