-- ==== Sys2Proof/Machine/Bytes.lean ====
section
/-! DEFINITION. Sums, checksums, frame layouts and byte order: the pure byte arithmetic that the encodings and the
operations share (00_scope.md R10, 10_state.md R28, 20_memory.md R65, 30_encoding.md R91 to R96, 40_checksum.md R140). -/

namespace Sys2Proof.Machine

/-- `sum8(s)`: the sum of the bytes modulo 256, 0 for the empty sequence (00_scope.md R10). -/
def sum8 : List Byte → Byte
  | [] => 0
  | b :: s => b + sum8 s

/-- `CHECKSUM(s) = (0x100 - sum8(s)) mod 256` (40_checksum.md R140). -/
def checksum (s : List Byte) : Byte := BitVec.ofNat 8 (0x100 - (sum8 s).toNat)

/-- `s` followed by the checksum byte `c` is valid: `(sum8(s) + c) mod 256 = 0` (40_checksum.md R140). -/
def validSum (s : List Byte) (c : Byte) : Bool := sum8 s + c == 0

/-! ### Constants of the wire format (10_state.md R28) -/

/-- MARKER. -/
def marker : Byte := 0x00
/-- START_SEQ, `00 00 FF`. -/
def startSeq : List Byte := [0x00, 0x00, 0xFF]
/-- TFI_HOST. -/
def tfiHost : Byte := 0xD4
/-- TFI_CTRL. -/
def tfiCtrl : Byte := 0xD5
/-- POSTAMBLE. -/
def postamble : Byte := 0x00
/-- ACK_SEQ, `00 00 FF 00 FF 00`. -/
def ackSeq : List Byte := [0x00, 0x00, 0xFF, 0x00, 0xFF, 0x00]
/-- READY. -/
def ready : Byte := 0x01
/-- CMD_GFV. -/
def cmdGfv : Byte := 0x02
/-- CMD_SAM. -/
def cmdSam : Byte := 0x14
/-- CMD_INLPT. -/
def cmdInlpt : Byte := 0x4A
/-- The payload of InListPassiveTarget (30_encoding.md R104). -/
def inlptPayload : List Byte := [0x01, 0x00]

/-! ### Frame layouts -/

/-- The command frame of a code and a payload, 30_encoding.md R91; `LEN = n + 2`. -/
def commandFrame (cmd : Byte) (p : List Byte) : List Byte :=
  let len : Byte := BitVec.ofNat 8 (p.length + 2)
  [marker, 0x00, 0xFF, len, checksum [len], tfiHost, cmd] ++ p
    ++ [checksum ([tfiHost, cmd] ++ p), postamble]

/-- The five bytes of a response header after its status byte: start sequence, LEN, LCS (30_encoding.md R94). -/
def responseHead (n : Nat) : List Byte :=
  startSeq ++ [BitVec.ofNat 8 (n + 2), checksum [BitVec.ofNat 8 (n + 2)]]

/-- The `LEN + 2` body bytes of a response: TFI, code, data, DCS, postamble (30_encoding.md R94). -/
def responseBody (rsp : Byte) (d : List Byte) : List Byte :=
  [tfiCtrl, rsp] ++ d ++ [checksum ([tfiCtrl, rsp] ++ d), postamble]

/-- What the two reads of one response take: the status byte, the header, the body (30_encoding.md R94). -/
def responseRead (status rsp : Byte) (d : List Byte) : List Byte :=
  status :: responseHead d.length ++ responseBody rsp d

/-- What the 7-byte ack read takes: the status byte and the ack sentinel (30_encoding.md R96). -/
def ackRead (status : Byte) : List Byte := status :: ackSeq

/-! ### Multi-byte descriptor fields, most significant byte first (20_memory.md R65) -/

/-- A 16-bit length as two bytes. -/
def be16 (n : Nat) : List Byte := [BitVec.ofNat 8 (n / 256), BitVec.ofNat 8 n]

/-- Two bytes as a length, zero-extended to a natural. -/
def ofBe16 (hi lo : Byte) : Nat := hi.toNat * 256 + lo.toNat

/-- A 32-bit timeout as four bytes. -/
def be32 (t : Millis) : List Byte :=
  [t.extractLsb' 24 8, t.extractLsb' 16 8, t.extractLsb' 8 8, t.extractLsb' 0 8]

/-- Four bytes as a timeout. -/
def ofBe32 (a b c d : Byte) : Millis := a ++ b ++ c ++ d

end Sys2Proof.Machine
end

