-- ==== Sys2Proof/Syntax.lean ====
section
/-! DEFINITION. The operations and the wire frames of spec/opcode_table.json, one constructor per row. -/

namespace Sys2Proof

/-- The rows of the opcode table. The first twelve are the requests of the REQ port, with the operands of
30_encoding.md R107 and R108; the last eight are the frames of the wire layer (R91 to R97), with the bytes that vary
in each. The two layers are independent (R90). -/
inductive Instr where
  /-- CHECKSUM, 40_checksum.md R141. -/
  | checksum (s : List Byte)
  /-- VERIFY_CHECKSUM, 40_checksum.md R142. -/
  | verifyChecksum (cs : Byte) (s : List Byte)
  /-- ENCODE_FRAME, 42_encoder.md R180. -/
  | encodeFrame (cmd : Byte) (payload : List Byte)
  /-- DECODE_FRAME, 43_decoder.md R205. -/
  | decodeFrame (tfi : Byte) (frame : List Byte)
  /-- POLL_READY, 41_poller.md R166. -/
  | pollReady (timeout : Millis)
  /-- READ_ACK, 43_decoder.md R201. -/
  | readAck
  /-- READ_RESPONSE, 43_decoder.md R206. -/
  | readResponse
  /-- PARSE_TARGET, 45_parser.md R290. -/
  | parseTarget (cap : Byte) (payload : List Byte)
  /-- BEGIN, 44_dispatcher.md R248. -/
  | beginOp
  /-- GET_FIRMWARE_VERSION, 44_dispatcher.md R245. -/
  | getFirmwareVersion
  /-- CONFIGURE_SAM, 44_dispatcher.md R246. -/
  | configureSam
  /-- READ_PASSIVE_TARGET_A, 44_dispatcher.md R247. -/
  | readPassiveTargetA (timeout : Millis)
  /-- WIRE_CMD_GET_FIRMWARE_VERSION, 44_dispatcher.md R249: no payload. -/
  | wireCmdGetFirmwareVersion
  /-- WIRE_CMD_SAM_CONFIGURATION, 44_dispatcher.md R250: the three payload bytes. -/
  | wireCmdSamConfiguration (mode timeout irq : Byte)
  /-- WIRE_CMD_IN_LIST_PASSIVE_TARGET, 44_dispatcher.md R251: the payload is fixed. -/
  | wireCmdInListPassiveTarget
  /-- WIRE_RSP_GET_FIRMWARE_VERSION, 44_dispatcher.md R252: the status byte of the read and the four data bytes. -/
  | wireRspGetFirmwareVersion (status ic version revision support : Byte)
  /-- WIRE_RSP_SAM_CONFIGURATION, 44_dispatcher.md R253: the status byte of the read and any data. -/
  | wireRspSamConfiguration (status : Byte) (data : List Byte)
  /-- WIRE_RSP_IN_LIST_PASSIVE_TARGET, 44_dispatcher.md R254: the status byte of the read and the target record. -/
  | wireRspInListPassiveTarget (status : Byte) (data : List Byte)
  /-- WIRE_ACK, 43_decoder.md R201: the status byte of the 7-byte read. -/
  | wireAck (status : Byte)
  /-- WIRE_STATUS_READY, 41_poller.md R161: the sample 0x01. -/
  | wireStatusReady
  deriving DecidableEq, Repr

end Sys2Proof
end

