-- ==== Sys2Proof/WellFormed.lean ====
section
/-! DEFINITION. Which terms of Instr have an encoding. -/

namespace Sys2Proof

/-- The bounds the encodings set: a sequence operand has 0..65535 bytes, its 16-bit count (30_encoding.md R107); the
LEN byte of a response is its data's length plus two, so the data has at most 253 bytes (R92, R95). Every other operand
is a bit field of its own width. -/
def Instr.WellFormed : Instr → Bool
  | .checksum s => decide (s.length < 65536)
  | .verifyChecksum _ s => decide (s.length < 65536)
  | .encodeFrame _ p => decide (p.length < 65536)
  | .decodeFrame _ f => decide (f.length < 65536)
  | .parseTarget _ p => decide (p.length < 65536)
  | .wireRspSamConfiguration _ d => decide (d.length ≤ 253)
  | .wireRspInListPassiveTarget _ d => decide (d.length ≤ 253)
  | .pollReady _ => true
  | .readAck => true
  | .readResponse => true
  | .beginOp => true
  | .getFirmwareVersion => true
  | .configureSam => true
  | .readPassiveTargetA _ => true
  | .wireCmdGetFirmwareVersion => true
  | .wireCmdSamConfiguration _ _ _ => true
  | .wireCmdInListPassiveTarget => true
  | .wireRspGetFirmwareVersion _ _ _ _ _ => true
  | .wireAck _ => true
  | .wireStatusReady => true

end Sys2Proof
end

