-- ==== Sys2Proof/Decode.lean ====
section
/-! DEFINITION. Decoding and encoding: request descriptors (30_encoding.md R106 to R109) and the frames of the wire
(R91 to R97), each total on any bytes. -/

namespace Sys2Proof

open Machine

/-- Where the bytes of an item stand. The request layer and the wire layer are independent (30_encoding.md R90), and on
the wire the call that moves the bytes says what they can be (20_memory.md R68). -/
inductive Channel where
  /-- A descriptor offered on REQ. -/
  | request
  /-- The bytes of one transport write. -/
  | command
  /-- The byte of one status sample. -/
  | sample
  /-- The seven bytes of one ack read. -/
  | ack
  /-- The header and the body of one response read. -/
  | response
  deriving DecidableEq, Repr

/-- Why bytes spell no item of a channel. -/
inductive DecodeError where
  /-- A request of no bytes: it has no OPC. -/
  | noOpcode
  /-- An OPC of 0x00, 0x09..0x0F or 0x14..0xFF (30_encoding.md R109). -/
  | unassignedOpcode (opc : Byte)
  /-- The length is not the one the fields imply (30_encoding.md R106). -/
  | badLength
  /-- The bytes are no frame of the table for this channel (30_encoding.md R110: not a reserved encoding; the checks
  of 43_decoder.md decide what the block does with them). -/
  | notInTable
  deriving DecidableEq, Repr

/-! ### Request descriptors -/

/-- `N:16` and then exactly `N` bytes. -/
def sequenceField (mk : List Byte → Instr) : List Byte → Except DecodeError Instr
  | hi :: lo :: s => if s.length = ofBe16 hi lo then .ok (mk s) else .error .badLength
  | _ => .error .badLength

/-- One byte, then a sequence. -/
def byteSequenceField (mk : Byte → List Byte → Instr) : List Byte → Except DecodeError Instr
  | b :: fs => sequenceField (mk b) fs
  | [] => .error .badLength

/-- `TIMEOUT_MS:32`. -/
def timeoutField (mk : Millis → Instr) : List Byte → Except DecodeError Instr
  | [a, b, c, d] => .ok (mk (ofBe32 a b c d))
  | _ => .error .badLength

/-- Nothing after the OPC. -/
def noField (i : Instr) : List Byte → Except DecodeError Instr
  | [] => .ok i
  | _ => .error .badLength

/-- The operation map, 30_encoding.md R108; everything else is reserved (R109). -/
def decodeRequest : List Byte → Except DecodeError Instr
  | [] => .error .noOpcode
  | opc :: fs =>
    match opc.toNat with
    | 0x01 => sequenceField .checksum fs
    | 0x02 => byteSequenceField .verifyChecksum fs
    | 0x03 => byteSequenceField .encodeFrame fs
    | 0x04 => byteSequenceField .decodeFrame fs
    | 0x05 => timeoutField .pollReady fs
    | 0x06 => noField .readAck fs
    | 0x07 => noField .readResponse fs
    | 0x08 => byteSequenceField .parseTarget fs
    | 0x10 => noField .beginOp fs
    | 0x11 => noField .getFirmwareVersion fs
    | 0x12 => noField .configureSam fs
    | 0x13 => timeoutField .readPassiveTargetA fs
    | _ => .error (.unassignedOpcode opc)

/-! ### Wire frames -/

/-- A whole command frame (30_encoding.md R91) as one of the three commands of R102. The payload is what lies between
the code and DCS; the frame must be the one R91 builds from it. -/
def decodeCommand (f : List Byte) : Except DecodeError Instr :=
  let cmd := f.getD 6 0
  let p := (f.drop 7).take (f.length - 9)
  if p.length ≤ 253 ∧ f = commandFrame cmd p then
    if cmd = cmdGfv ∧ p = [] then .ok .wireCmdGetFirmwareVersion
    else if cmd = cmdInlpt ∧ p = inlptPayload then .ok .wireCmdInListPassiveTarget
    else if cmd = cmdSam then
      match p with
      | [m, t, q] => .ok (.wireCmdSamConfiguration m t q)
      | _ => .error .notInTable
    else .error .notInTable
  else .error .notInTable

/-- The bytes of a response's header and body reads (30_encoding.md R94) as one of the three responses of R102. -/
def decodeResponse (r : List Byte) : Except DecodeError Instr :=
  let status := r.getD 0 0
  let rsp := r.getD 7 0
  let d := (r.drop 8).take (r.length - 10)
  if d.length ≤ 253 ∧ r = responseRead status rsp d then
    match rsp.toNat, d with
    | 0x03, [ic, v, rev, sup] => .ok (.wireRspGetFirmwareVersion status ic v rev sup)
    | 0x15, d => .ok (.wireRspSamConfiguration status d)
    | 0x4B, d => .ok (.wireRspInListPassiveTarget status d)
    | _, _ => .error .notInTable
  else .error .notInTable

/-- The seven bytes of an ack read (30_encoding.md R96): the status byte is not checked. -/
def decodeAck : List Byte → Except DecodeError Instr
  | status :: a => if a = ackSeq then .ok (.wireAck status) else .error .notInTable
  | [] => .error .notInTable

/-- One status sample: ready exactly when it is 0x01 (30_encoding.md R97). -/
def decodeSample : List Byte → Except DecodeError Instr
  | [b] => if b = ready then .ok .wireStatusReady else .error .notInTable
  | _ => .error .notInTable

/-- The item that the bytes of a channel spell. -/
def decode : Channel → List Byte → Except DecodeError Instr
  | .request => decodeRequest
  | .command => decodeCommand
  | .sample => decodeSample
  | .ack => decodeAck
  | .response => decodeResponse

/-! ### The encoder -/

/-- The channel an item stands on. -/
def Instr.channel : Instr → Channel
  | .checksum _ => .request
  | .verifyChecksum _ _ => .request
  | .encodeFrame _ _ => .request
  | .decodeFrame _ _ => .request
  | .pollReady _ => .request
  | .readAck => .request
  | .readResponse => .request
  | .parseTarget _ _ => .request
  | .beginOp => .request
  | .getFirmwareVersion => .request
  | .configureSam => .request
  | .readPassiveTargetA _ => .request
  | .wireCmdGetFirmwareVersion => .command
  | .wireCmdSamConfiguration _ _ _ => .command
  | .wireCmdInListPassiveTarget => .command
  | .wireRspGetFirmwareVersion _ _ _ _ _ => .response
  | .wireRspSamConfiguration _ _ => .response
  | .wireRspInListPassiveTarget _ _ => .response
  | .wireAck _ => .ack
  | .wireStatusReady => .sample

/-- The bytes of an item on its channel: a descriptor (30_encoding.md R108), a command frame (R91), the bytes of a
response's two reads (R94), of an ack read (R96), of a ready sample (R97). -/
def encode : Instr → List Byte
  | .checksum s => 0x01 :: be16 s.length ++ s
  | .verifyChecksum cs s => 0x02 :: cs :: be16 s.length ++ s
  | .encodeFrame cmd p => 0x03 :: cmd :: be16 p.length ++ p
  | .decodeFrame tfi f => 0x04 :: tfi :: be16 f.length ++ f
  | .pollReady t => 0x05 :: be32 t
  | .readAck => [0x06]
  | .readResponse => [0x07]
  | .parseTarget cap p => 0x08 :: cap :: be16 p.length ++ p
  | .beginOp => [0x10]
  | .getFirmwareVersion => [0x11]
  | .configureSam => [0x12]
  | .readPassiveTargetA t => 0x13 :: be32 t
  | .wireCmdGetFirmwareVersion => commandFrame cmdGfv []
  | .wireCmdSamConfiguration m t q => commandFrame cmdSam [m, t, q]
  | .wireCmdInListPassiveTarget => commandFrame cmdInlpt inlptPayload
  | .wireRspGetFirmwareVersion st ic v rev sup => responseRead st (cmdGfv + 1) [ic, v, rev, sup]
  | .wireRspSamConfiguration st d => responseRead st (cmdSam + 1) d
  | .wireRspInListPassiveTarget st d => responseRead st (cmdInlpt + 1) d
  | .wireAck st => ackRead st
  | .wireStatusReady => [ready]

/-- The OPC of a request, which CUR_OP holds while it runs (10_state.md R31); wire frames have none. -/
def Instr.opcode : Instr → Option Byte
  | .checksum _ => some 0x01
  | .verifyChecksum _ _ => some 0x02
  | .encodeFrame _ _ => some 0x03
  | .decodeFrame _ _ => some 0x04
  | .pollReady _ => some 0x05
  | .readAck => some 0x06
  | .readResponse => some 0x07
  | .parseTarget _ _ => some 0x08
  | .beginOp => some 0x10
  | .getFirmwareVersion => some 0x11
  | .configureSam => some 0x12
  | .readPassiveTargetA _ => some 0x13
  | .wireCmdGetFirmwareVersion => none
  | .wireCmdSamConfiguration _ _ _ => none
  | .wireCmdInListPassiveTarget => none
  | .wireRspGetFirmwareVersion _ _ _ _ _ => none
  | .wireRspSamConfiguration _ _ => none
  | .wireRspInListPassiveTarget _ _ => none
  | .wireAck _ => none
  | .wireStatusReady => none

/-! ### Words of the opcode table -/

/-- The first `k` bytes of `w`, the least significant byte first. -/
def wordBytes : Nat → Nat → List Byte
  | 0, _ => []
  | k + 1, w => BitVec.ofNat 8 w :: wordBytes k (w / 256)

/-- How long a descriptor that begins with these bytes is, bytes that are missing taken as 0. -/
def descriptorLength (d : List Byte) : Nat :=
  match (d.getD 0 0).toNat with
  | 0x01 => 3 + ofBe16 (d.getD 1 0) (d.getD 2 0)
  | 0x02 => 4 + ofBe16 (d.getD 2 0) (d.getD 3 0)
  | 0x03 => 4 + ofBe16 (d.getD 2 0) (d.getD 3 0)
  | 0x04 => 4 + ofBe16 (d.getD 2 0) (d.getD 3 0)
  | 0x08 => 4 + ofBe16 (d.getD 2 0) (d.getD 3 0)
  | 0x05 => 5
  | 0x13 => 5
  | _ => 1

/-- The descriptor a table word stands for: the word's bytes, and zeros for the operand bytes the table gives no
bits. -/
def tableRequest (nbits w : Nat) : List Byte :=
  let d := wordBytes ((nbits + 7) / 8) w
  d ++ List.replicate (descriptorLength d - d.length) 0

/-- The frame a 16-bit wire word stands for. The table's word is the TFI (bits 15..8) and the code (bits 7..0); the
payload bytes it gives no bits are 0, where the row leaves them open, and the other bytes follow from these (30_encoding.md
R92). The second component is the channel of the row. -/
def tableFrame (tfi code : Byte) : Option (Channel × List Byte) :=
  match tfi.toNat, code.toNat with
  | 0xD4, 0x02 => some (.command, commandFrame code [])
  | 0xD4, 0x14 => some (.command, commandFrame code [0x00, 0x00, 0x00])
  | 0xD4, 0x4A => some (.command, commandFrame code inlptPayload)
  | 0xD5, 0x03 => some (.response, responseRead 0x00 code [0x00, 0x00, 0x00, 0x00])
  | 0xD5, 0x15 => some (.response, responseRead 0x00 code [])
  | 0xD5, 0x4B => some (.response, responseRead 0x00 code [0x00])
  | _, _ => none

/-- The channel and the bytes a word of the opcode table stands for, the table's numbering of bits (log entry 12). An
8-bit word is an OPC: 0x01 is CHECKSUM's row, though WIRE_STATUS_READY's row has the same word on another layer. -/
def tableItem (nbits w : Nat) : Channel × List Byte :=
  if nbits = 16 then
    match tableFrame (BitVec.ofNat 8 (w / 256)) (BitVec.ofNat 8 w) with
    | some x => x
    | none => (.request, tableRequest nbits w)
  else if nbits = 48 then (.ack, 0x00 :: (wordBytes 6 w).reverse)
  else (.request, tableRequest nbits w)

/-- The item the decoder reads from a word of the opcode table. -/
def decodeTableWord (nbits w : Nat) : Option Instr :=
  match decode (tableItem nbits w).1 (tableItem nbits w).2 with
  | .ok i => some i
  | .error _ => none

end Sys2Proof
end

