-- ==== Sys2Proof/Machine/State.lean ====
section
/-! DEFINITION. The state of one block instance (10_state.md R29 to R45), its configuration (R27) and its five channels
(R20), all plain data. -/

namespace Sys2Proof.Machine

/-- A buffer as an address space (20_memory.md R60): the written bytes by index, indices strictly rising. An index that
is not listed holds no value (00_scope.md R12). -/
abbrev Memory := List Host.Cell

/-- The form of a buffer: the indices strictly rise. No entry can equal what an unlisted index reads as, since that is
no value. -/
abbrev Memory.wf (m : Memory) : Prop := m.Pairwise (fun a b => a.1 < b.1)

/-- The five buffers of 20_memory.md R60. -/
inductive Buffer where
  | tx
  | ack
  | hdr
  | rx
  | uid
  deriving DecidableEq, Repr

/-- PHASE, the dispatcher's state (10_state.md R32). -/
inductive Phase where
  | idle
  | encoded
  | transmitted
  | ackPending
  | ackOk
  | responsePending
  | done
  | failed
  deriving DecidableEq, Repr

/-- One call on XW, XR or CLK (10_state.md R20). A transport call carries the per-call timeout T_CALL. -/
inductive Call where
  /-- `TransportWrite(s)`, R23. -/
  | write (frame : List Byte) (tCall : Nat)
  /-- `TransportRead(n)`, R24. -/
  | read (n : Nat) (tCall : Nat)
  /-- `ClockNow()`, R25. -/
  | clock
  deriving DecidableEq, Repr

/-- The answer of a call (10_state.md R20). -/
inductive Answer where
  /-- The transport's answer to a write: `OK` or `FAIL`. -/
  | written (ok : Bool)
  /-- `OK(t)` to a read. -/
  | bytes (t : List Byte)
  /-- `FAIL` to a read. -/
  | readFailed
  /-- The clock's timestamp, in ms. -/
  | time (t : Nat)
  deriving DecidableEq, Repr

/-- Where a rule goes on when its outstanding call is answered. -/
inductive Resume where
  /-- Exchange, after its transport write (44_dispatcher.md R241). -/
  | frameWritten
  /-- PollReady, after the clock value that POLL_T0 takes (41_poller.md R160). -/
  | pollStarted
  /-- PollReady, after a status sample. -/
  | sampled
  /-- PollReady, after the clock value that follows a not-ready sample. -/
  | timed
  /-- ReadAck, after its read (43_decoder.md R201). -/
  | ackArrived
  /-- ReadResponse, after the header read (43_decoder.md R206). -/
  | headerArrived
  /-- ReadResponse, after the body read; `len` is the LEN that ValidateHeader returned. -/
  | bodyArrived (len : Byte)
  deriving DecidableEq, Repr

/-- A call that waits for its answer, and where its rule goes on. -/
structure Outstanding where
  call : Call
  resume : Resume
  deriving DecidableEq, Repr

/-- One piece of what the transport delivers on XR, in order (20_memory.md R62): a byte, or the failure of the read
that meets it (10_state.md R24). -/
inductive RxToken where
  | byte (b : Byte)
  | fail
  deriving DecidableEq, Repr

/-- A RES message (10_state.md R22). -/
structure ResMsg where
  status : Byte
  sub : Byte
  failPhase : Phase
  data : List Byte
  deriving DecidableEq, Repr

/-- The answers still to come to calls that a reset has abandoned, each to be discarded when it comes
(70_reset_and_hazards.md R350). -/
structure Owed where
  /-- Answers of the transport to writes. -/
  writes : Nat
  /-- For each read, oldest first, how many bytes of its answer are still to come. -/
  reads : List Nat
  /-- Answers of the clock. -/
  times : Nat
  deriving DecidableEq, Repr

/-- No answer is owed. -/
def Owed.nothing : Owed := ⟨0, [], 0⟩

/-- One event of a run (00_scope.md R11). The list of them is what the outside sees of the block, RES messages included,
and its PHASE moves. -/
inductive Event where
  /-- A request is accepted (10_state.md R21). -/
  | accepted (opc : Byte)
  /-- `PHASE <- p`. -/
  | phase (p : Phase)
  /-- A call and its answer. -/
  | call (c : Call) (a : Answer)
  /-- A RES message is emitted. -/
  | result (m : ResMsg)
  /-- The block is reset (70_reset_and_hazards.md R350). -/
  | reset
  deriving DecidableEq, Repr

/-- The block. The fields from `busy` to `uidlen` are the state elements of 10_state.md R30 to R40; an element that can
hold no value (R12, R44) is an Option, or a buffer with nothing listed. -/
structure State where
  /-- The configuration of this instance (R27, R45). No step writes it. -/
  cfg : Config
  /-- BUSY, 1 bit (R30). -/
  busy : Bool
  /-- CUR_OP, 8 bits (R31). -/
  curOp : Option Byte
  /-- PHASE, 3 bits (R32). -/
  phase : Phase
  /-- CMD, 8 bits (R34). -/
  cmd : Option Byte
  /-- TXBUF (R35). -/
  txbuf : Memory
  /-- TXLEN (R35). -/
  txlen : Option Nat
  /-- ACKBUF, 7 bytes (R36). -/
  ackbuf : Memory
  /-- HDRBUF, 6 bytes (R37). -/
  hdrbuf : Memory
  /-- RXBUF (R38). -/
  rxbuf : Memory
  /-- RXLEN (R38). -/
  rxlen : Option Nat
  /-- PLEN, 8 bits (R38). -/
  plen : Option Byte
  /-- POLL_T0, a natural (R39). -/
  pollT0 : Option Nat
  /-- POLL_TMO, 32 bits (R39). -/
  pollTmo : Option Millis
  /-- POLL_LAST, 8 bits (R39). -/
  pollLast : Option Byte
  /-- UIDBUF (R40). -/
  uidbuf : Memory
  /-- UIDLEN, 8 bits (R40). -/
  uidlen : Option Byte
  /-- The operands of the request in flight, an address space of 20_memory.md R60 (log entry 8). -/
  operands : Option Instr
  /-- The outstanding call, at most one (R26), and where its rule goes on (log entry 8). -/
  outstanding : Option Outstanding
  /-- REQ: the descriptors offered and not yet accepted, oldest first (R21). -/
  offered : List (List Byte)
  /-- XW: the transport's answers to the writes to come, `true` for `OK`. -/
  writeAnswers : List Bool
  /-- XR: what the transport delivers to the reads to come. -/
  rx : List RxToken
  /-- CLK: the clock's answers to the queries to come. -/
  clock : List Nat
  /-- What the channels will still bring for calls that a reset has abandoned (70_reset_and_hazards.md R350, log entry
  13). -/
  owed : Owed
  /-- The host applies a reset before the next step (70_reset_and_hazards.md R350). -/
  resetLine : Bool
  /-- The host applies a reset right after the block next accepts a request, before anything its operation does
  (R350: "at any time"). -/
  resetOnAccept : Bool
  /-- Whether the answer to a call that a reset abandons still comes ("if it comes", R350): the choice of the agent called,
  read by a reset only. -/
  lateAnswer : Bool
  /-- What has happened so far, oldest first. -/
  events : List Event
  deriving DecidableEq, Repr

/-- The block right after reset with the default configuration (10_state.md R44, 70_reset_and_hazards.md R351): BUSY 0,
PHASE Idle, every other element no value, no request offered. -/
def State.reset : State :=
  { cfg := Config.default, busy := false, curOp := none, phase := .idle, cmd := none,
    txbuf := [], txlen := none, ackbuf := [], hdrbuf := [], rxbuf := [], rxlen := none, plen := none,
    pollT0 := none, pollTmo := none, pollLast := none, uidbuf := [], uidlen := none,
    operands := none, outstanding := none, offered := [], writeAnswers := [], rx := [], clock := [],
    owed := .nothing, resetLine := false, resetOnAccept := false, lateAnswer := true, events := [] }

/-- Why the machine stops. Each is a bug of the model that 00_scope.md R12 and 20_memory.md R61 tell it to fault on;
no rule of the spec reaches one. -/
inductive Fault where
  /-- A read of a state element or buffer byte that holds no value. Raised by `valueOf` and `memRead`
  (00_scope.md R12). Safe: the block never does it. -/
  | noValue
  /-- An access outside a buffer or an operand sequence. Raised by `memRead`, `memWrite` and `byteAt`
  (20_memory.md R61). Safe: the block never does it. -/
  | outOfBuffer
  /-- The outstanding call, PHASE and CUR_OP fit no point of any rule. Raised where a rule would go on
  (44_dispatcher.md R242 lists every transition). Safe: only a state that no run reaches meets it. -/
  | noSuchPoint
  deriving DecidableEq, Repr

/-- Why an item is not executed. -/
inductive Refusal where
  /-- Raised by an arm of exec for an instruction with no meaning yet. Safe. -/
  | notModelled (mnemonic : String)
  /-- A descriptor that spells no operation: the block does not accept it and emits no RES message, and "a model
  refuses it" (30_encoding.md R109), saying why. Raised by step. Safe. -/
  | badDescriptor (why : DecodeError)
  /-- A wire command frame where the block is not transmitting that frame: only Exchange puts one on the wire
  (44_dispatcher.md R240, R241). Raised by `transmitFrame`. Safe: no run of the block has the event. -/
  | frameNotSent
  deriving DecidableEq, Repr

/-- The failures of 60_exceptions.md R311, each with what its RES message records (R313). -/
inductive Failure where
  /-- TransportError(WRITE_FAILED). -/
  | writeFailed
  /-- TransportError(READ_FAILED). -/
  | readFailed
  /-- Timeout, with the last status sample. -/
  | timeout (last : Byte)
  /-- FramingError(ACK_MISMATCH), with the six bytes. -/
  | ackMismatch (a : List Byte)
  /-- FramingError(BAD_START), with the three bytes. -/
  | badStart (h : List Byte)
  /-- FramingError(BAD_LCS). -/
  | badLcs (len lcs : Byte)
  /-- FramingError(BAD_POSTAMBLE). -/
  | badPostamble (b : Byte)
  /-- FramingError(LEN_TOO_SHORT). -/
  | lenTooShort (len : Byte)
  /-- FramingError(BAD_TFI). -/
  | badTfi (b : Byte)
  /-- FramingError(BAD_DCS). -/
  | badDcs (b : Byte)
  /-- FramingError(BAD_PAYLOAD_SHAPE). -/
  | badPayloadShape (plen : Byte)
  /-- FramingError(TARGET_COUNT). -/
  | targetCount (count : Byte)
  /-- FramingError(RECORD_TRUNCATED), with the payload's length. -/
  | recordTruncated (len : Nat)
  /-- FramingError(UID_LEN_ZERO). -/
  | uidLenZero
  /-- FramingError(UID_PAST_END). -/
  | uidPastEnd (u : Byte)
  /-- FramingError(BAD_FRAME_LENGTH). -/
  | badFrameLength
  /-- ProtocolMismatch, with the received code. -/
  | protocolMismatch (code : Byte)
  /-- BufferTooSmall(PAYLOAD_TOO_LONG). -/
  | payloadTooLong
  /-- BufferTooSmall(RX_OVERFLOW). -/
  | rxOverflow (len : Byte)
  /-- BufferTooSmall(UID_CAPACITY). -/
  | uidCapacity (u : Byte)
  deriving DecidableEq, Repr

/-- How a rule leaves its normal course. -/
inductive Stop where
  /-- `raise`, 60_exceptions.md R314. -/
  | raised (e : Failure)
  /-- A bug of the model. -/
  | bug (f : Fault)
  deriving DecidableEq, Repr

/-- A rule, or a piece of one between two external calls, as an action on the state. A raise keeps the state it
happened in. -/
abbrev Rule (α : Type) := EStateM Stop State α

end Sys2Proof.Machine
end

