-- ==== Sys2Proof/Machine/Flags.lean ====
section
/-! DEFINITION. How an outcome is reported. The block has no condition codes (10_state.md R42): the STATUS, SUB and DATA
of a RES message stand in their place (60_exceptions.md R310, R311, R313). -/

namespace Sys2Proof.Machine

/-- The 3-bit code of a phase (10_state.md R32). -/
def Phase.code : Phase → BitVec 3
  | .idle => 0
  | .encoded => 1
  | .transmitted => 2
  | .ackPending => 3
  | .ackOk => 4
  | .responsePending => 5
  | .done => 6
  | .failed => 7

/-- STATUS OK (60_exceptions.md R310). -/
def statusOk : Byte := 0x00
/-- STATUS NO_TARGET. -/
def statusNoTarget : Byte := 0x01
/-- STATUS TransportError. -/
def statusTransportError : Byte := 0x80
/-- STATUS Timeout. -/
def statusTimeout : Byte := 0x81
/-- STATUS FramingError. -/
def statusFramingError : Byte := 0x82
/-- STATUS ProtocolMismatch. -/
def statusProtocolMismatch : Byte := 0x83
/-- STATUS BufferTooSmall. -/
def statusBufferTooSmall : Byte := 0x84

/-- The STATUS of a failure (60_exceptions.md R310). -/
def Failure.status : Failure → Byte
  | .writeFailed => statusTransportError
  | .readFailed => statusTransportError
  | .timeout _ => statusTimeout
  | .ackMismatch _ => statusFramingError
  | .badStart _ => statusFramingError
  | .badLcs _ _ => statusFramingError
  | .badPostamble _ => statusFramingError
  | .lenTooShort _ => statusFramingError
  | .badTfi _ => statusFramingError
  | .badDcs _ => statusFramingError
  | .badPayloadShape _ => statusFramingError
  | .targetCount _ => statusFramingError
  | .recordTruncated _ => statusFramingError
  | .uidLenZero => statusFramingError
  | .uidPastEnd _ => statusFramingError
  | .badFrameLength => statusFramingError
  | .protocolMismatch _ => statusProtocolMismatch
  | .payloadTooLong => statusBufferTooSmall
  | .rxOverflow _ => statusBufferTooSmall
  | .uidCapacity _ => statusBufferTooSmall

/-- The SUB of a failure (60_exceptions.md R311). -/
def Failure.sub : Failure → Byte
  | .writeFailed => 0x01
  | .readFailed => 0x02
  | .timeout _ => 0x00
  | .ackMismatch _ => 0x01
  | .badStart _ => 0x02
  | .badLcs _ _ => 0x03
  | .badPostamble _ => 0x04
  | .lenTooShort _ => 0x05
  | .badTfi _ => 0x06
  | .badDcs _ => 0x07
  | .badPayloadShape _ => 0x08
  | .targetCount _ => 0x09
  | .recordTruncated _ => 0x0A
  | .uidLenZero => 0x0B
  | .uidPastEnd _ => 0x0C
  | .badFrameLength => 0x0D
  | .protocolMismatch _ => 0x00
  | .payloadTooLong => 0x01
  | .rxOverflow _ => 0x02
  | .uidCapacity _ => 0x03

/-- The DATA of a failure: the `info` of its raise (60_exceptions.md R313). -/
def Failure.info : Failure → List Byte
  | .writeFailed => []
  | .readFailed => []
  | .timeout last => [last]
  | .ackMismatch a => a
  | .badStart h => h
  | .badLcs len lcs => [len, lcs]
  | .badPostamble b => [b]
  | .lenTooShort len => [len]
  | .badTfi b => [b]
  | .badDcs b => [b]
  | .badPayloadShape plen => [plen]
  | .targetCount count => [count]
  | .recordTruncated len => [BitVec.ofNat 8 len]
  | .uidLenZero => []
  | .uidPastEnd u => [u]
  | .badFrameLength => []
  | .protocolMismatch code => [code]
  | .payloadTooLong => []
  | .rxOverflow len => [len]
  | .uidCapacity u => [u]

/-- The RES message of a success or of NoTarget: SUB 0x00 and FAIL_PHASE `Idle` (10_state.md R22, 60_exceptions.md
R311). -/
def successMsg (status : Byte) (data : List Byte) : ResMsg :=
  { status := status, sub := 0x00, failPhase := .idle, data := data }

/-- The RES message of a failure raised in phase `p` (60_exceptions.md R313). -/
def failureMsg (e : Failure) (p : Phase) : ResMsg :=
  { status := e.status, sub := e.sub, failPhase := p, data := e.info }

end Sys2Proof.Machine
end

