-- ==== Sys2Proof/Machine/Operands.lean ====
section
/-! DEFINITION. What the rules read from the operands of the request in flight (30_encoding.md R107). -/

namespace Sys2Proof.Machine

/-- A capacity or a length byte, unsigned (30_encoding.md R107). -/
abbrev zextByte (b : Byte) : Nat := b.toNat

/-- A timeout, zero-extended to a natural (30_encoding.md R107). -/
abbrev zextMillis (t : Millis) : Nat := t.toNat

/-- The response wait bound of the dispatcher command in flight (44_dispatcher.md R240): the caller's for
READ_PASSIVE_TARGET_A, T_RSP_MS for the others. Another operation has none. -/
def responseBound : Option Instr → Option Millis
  | some .beginOp => some tRspMs
  | some .getFirmwareVersion => some tRspMs
  | some .configureSam => some tRspMs
  | some (.readPassiveTargetA t) => some t
  | _ => none

/-- The capacity of UIDBUF for the request in flight: CAP for PARSE_TARGET, UID_CAP otherwise (10_state.md R40). -/
def uidCapacity (c : Config) : Option Instr → Nat
  | some (.parseTarget cap _) => zextByte cap
  | _ => c.uidCap

end Sys2Proof.Machine
end

