-- ==== Sys2Proof/Machine/Ops.lean ====
section
/-! DEFINITION. The primitives of 00_scope.md R11 over the state: buffer accesses, PHASE moves, calls on the channels,
raising an error and ending an operation. -/

namespace Sys2Proof.Machine

/-! ### Buffers as memories (20_memory.md R61) -/

/-- The byte at index `a`, or no value. -/
def readByte : Memory → Nat → Option Byte
  | [], _ => none
  | (i, b) :: m, a => if i = a then some b else readByte m a

/-- Write one byte, keeping the indices strictly rising. -/
def writeByte : Memory → Nat → Byte → Memory
  | [], a, v => [(a, v)]
  | (i, b) :: m, a, v =>
    if a < i then (a, v) :: (i, b) :: m
    else if a = i then (a, v) :: m
    else (i, b) :: writeByte m a v

/-- Write `v` at indices `a`, `a + 1`, and so on. -/
def writeBytes : Memory → Nat → List Byte → Memory
  | m, _, [] => m
  | m, a, b :: v => writeBytes (writeByte m a b) (a + 1) v

/-- The `n` bytes from index `a`, or no value if one of them has none. -/
def readBytes (m : Memory) : Nat → Nat → Option (List Byte)
  | _, 0 => some []
  | a, n + 1 =>
    match readByte m a, readBytes m (a + 1) n with
    | some b, some v => some (b :: v)
    | _, _ => none

/-- The contents of a buffer. -/
def State.buffer (s : State) : Buffer → Memory
  | .tx => s.txbuf
  | .ack => s.ackbuf
  | .hdr => s.hdrbuf
  | .rx => s.rxbuf
  | .uid => s.uidbuf

/-- Replace the contents of a buffer. -/
def State.setBuffer (s : State) (b : Buffer) (m : Memory) : State :=
  match b with
  | .tx => { s with txbuf := m }
  | .ack => { s with ackbuf := m }
  | .hdr => { s with hdrbuf := m }
  | .rx => { s with rxbuf := m }
  | .uid => { s with uidbuf := m }

/-- `capacity(BUF)`, the ranges of 20_memory.md R60. -/
def State.capacity (s : State) : Buffer → Nat
  | .tx => s.cfg.maxPayload + 9
  | .ack => 7
  | .hdr => 6
  | .rx => s.cfg.rxBodyCap
  | .uid => uidCapacity s.cfg s.operands

/-! ### State updates -/

/-- Record an event. -/
def State.log (s : State) (e : Event) : State := { s with events := s.events ++ [e] }

/-- `PHASE <- p` (10_state.md R32). -/
def State.setPhase (s : State) (p : Phase) : State := { s with phase := p }.log (.phase p)

/-- `CMD` to `POLL_LAST` hold no value: what BEGIN discards with its wake command (44_dispatcher.md R248). -/
def State.discardCommand (s : State) : State :=
  { s with
    cmd := none, txbuf := [], txlen := none, ackbuf := [], hdrbuf := [], rxbuf := [], rxlen := none,
    plen := none, pollT0 := none, pollTmo := none, pollLast := none }

/-- BUSY 0, PHASE Idle and every other element no value: what an ended operation and a reset leave (10_state.md R43,
R44). -/
def State.cleared (s : State) : State :=
  { s.discardCommand with
    busy := false, curOp := none, phase := .idle, uidbuf := [], uidlen := none,
    operands := none, outstanding := none }

/-- End of an operation (10_state.md R43). -/
def State.endOperation (s : State) : State := (s.setPhase .idle).cleared

/-- The operation ends by `return (status, data)`: its RES message, then the end of operation (10_state.md R22). -/
def State.succeed (s : State) (status : Byte) (data : List Byte) : State :=
  (s.log (.result (successMsg status data))).endOperation

/-- The operation ends by a `raise`: PHASE to Failed, the RES message with the PHASE before it, then the end of operation
(60_exceptions.md R314). This is all that an error does; there is no handler to enter and none to return from (R317). -/
def State.fail (s : State) (e : Failure) : State :=
  ((s.setPhase .failed).log (.result (failureMsg e s.phase))).endOperation

/-! ### Actions of a rule -/

/-- `raise E(sub, info)`: nothing after it runs (60_exceptions.md R314). -/
def raise {α : Type} (e : Failure) : Rule α := throw (.raised e)

/-- The model has met a bug of its own (00_scope.md R12). -/
def bug {α : Type} (f : Fault) : Rule α := throw (.bug f)

/-- Go on only if `p` holds, else raise `e`. -/
def check (p : Prop) [Decidable p] (e : Failure) : Rule Unit := if p then pure () else raise e

/-- Read a state element, which must hold a value (00_scope.md R12). -/
def valueOf {α : Type} : Option α → Rule α
  | some a => pure a
  | none => bug .noValue

/-- `MemRead(BUF@i, n)` (20_memory.md R61). -/
def memRead (b : Buffer) (i n : Nat) : Rule (List Byte) := do
  let s ← get
  if i + n ≤ s.capacity b then
    match readBytes (s.buffer b) i n with
    | some v => pure v
    | none => bug .noValue
  else bug .outOfBuffer

/-- `MemWrite(BUF@i, len(v), v)` (20_memory.md R61). -/
def memWrite (b : Buffer) (i : Nat) (v : List Byte) : Rule Unit := do
  let s ← get
  if i + v.length ≤ s.capacity b then
    set (s.setBuffer b (writeBytes (s.buffer b) i v))
  else bug .outOfBuffer

/-- Byte `i` of a sequence, which the caller has bounds-checked (20_memory.md R61). -/
def byteAt (p : List Byte) (i : Nat) : Rule Byte :=
  match p[i]? with
  | some b => pure b
  | none => bug .outOfBuffer

/-- Byte `i` of a buffer. -/
def memReadByte (b : Buffer) (i : Nat) : Rule Byte := do
  byteAt (← memRead b i 1) 0

/-- `PHASE <- p`. -/
def setPhase (p : Phase) : Rule Unit := modify fun s => s.setPhase p

/-- `return (status, data)`. -/
def reply (status : Byte) (data : List Byte) : Rule Unit := modify fun s => s.succeed status data

/-! ### Calls on the channels (10_state.md R23 to R26) -/

/-- Issue a call; the rule goes on at `k` when it is answered. -/
def issue (c : Call) (k : Resume) : Rule Unit := modify fun s => { s with outstanding := some ⟨c, k⟩ }

/-- `TransportWrite(s)`. -/
def transportWrite (frame : List Byte) (k : Resume) : Rule Unit := do
  issue (.write frame (← get).cfg.tCall) k

/-- `TransportRead(n)`. -/
def transportRead (n : Nat) (k : Resume) : Rule Unit := do
  issue (.read n (← get).cfg.tCall) k

/-- `ClockNow()`. -/
def clockNow (k : Resume) : Rule Unit := issue .clock k

/-- The answer the stream gives to a read of `n` bytes, and what is left of it: the next `n` bytes, or a failure where
one stands before them; none if fewer have come (10_state.md R24: a short read is not a possible answer). -/
def takeRead : Nat → List RxToken → Option (Answer × List RxToken)
  | 0, ts => some (.bytes [], ts)
  | _ + 1, [] => none
  | _ + 1, .fail :: ts => some (.readFailed, ts)
  | n + 1, .byte b :: ts =>
    match takeRead n ts with
    | some (.bytes t, rest) => some (.bytes (b :: t), rest)
    | some (a, rest) => some (a, rest)
    | none => none

/-- The answer that the external agents give to a call, taken from its channel; none if it has not come. -/
def answerOf (c : Call) (s : State) : Option (Answer × State) :=
  match c with
  | .write _ _ =>
    match s.writeAnswers with
    | ok :: rest => some (.written ok, { s with writeAnswers := rest })
    | [] => none
  | .read n _ =>
    match takeRead n s.rx with
    | some (a, rest) => some (a, { s with rx := rest })
    | none => none
  | .clock =>
    match s.clock with
    | t :: rest => some (.time t, { s with clock := rest })
    | [] => none

/-! ### Reset (70_reset_and_hazards.md R350) -/

/-- Discard what has come of an abandoned read's answer, of which `n` bytes were still to come: how many still are, and the
rest of the stream. A failure is the whole rest of the answer. -/
def dropRead : Nat → List RxToken → Nat × List RxToken
  | 0, ts => (0, ts)
  | n + 1, [] => (n + 1, [])
  | _ + 1, .fail :: ts => (0, ts)
  | n + 1, .byte _ :: ts => dropRead n ts

/-- Discard what has come of the answers to abandoned reads, in order. -/
def dropReads : List Nat → List RxToken → List Nat × List RxToken
  | [], ts => ([], ts)
  | n :: ns, ts =>
    match dropRead n ts with
    | (0, rest) => dropReads ns rest
    | (m + 1, rest) => ((m + 1) :: ns, rest)

/-- Discard what the channels have brought for abandoned calls: the answers to them come before the answers to any later
call, since a channel answers its calls in order (20_memory.md R62, R72). -/
def State.dropOwed (s : State) : State :=
  { s with
    writeAnswers := s.writeAnswers.drop s.owed.writes
    rx := (dropReads s.owed.reads s.rx).2
    clock := s.clock.drop s.owed.times
    owed :=
      { writes := s.owed.writes - s.writeAnswers.length
        reads := (dropReads s.owed.reads s.rx).1
        times := s.owed.times - s.clock.length } }

/-- The answer to `c` is owed too. -/
def Owed.add (o : Owed) : Call → Owed
  | .write _ _ => { o with writes := o.writes + 1 }
  | .read n _ => { o with reads := o.reads ++ [n] }
  | .clock => { o with times := o.times + 1 }

/-- The outstanding call is abandoned: its answer is owed. -/
def State.abandonCall (s : State) : State :=
  match s.outstanding with
  | none => s
  | some o => { s with owed := s.owed.add o.call }

/-- The answer to the outstanding call is discarded: what has come of it at once, and the rest when it comes, if it
does. -/
def State.dropAnswer (s : State) : State :=
  { s.dropOwed.abandonCall.dropOwed with
    owed := if s.lateAnswer then s.dropOwed.abandonCall.dropOwed.owed else s.dropOwed.owed }

/-- The reset event (70_reset_and_hazards.md R350): every state element at its reset value, the operation in flight
abandoned with no RES message, the answer to its outstanding call discarded; the configuration and the channels stay. -/
def State.applyReset (s : State) : State :=
  { (s.dropAnswer.log .reset).cleared with resetLine := false }

/-- The bytes are the next that the transport delivers. -/
def State.deliver (s : State) (bs : List Byte) : State := { s with rx := bs.map .byte ++ s.rx }

end Sys2Proof.Machine
end

