-- ==== Sys2Proof/Machine/Encoder.lean ====
section
/-! DEFINITION. The Frame Encoder's procedure (42_encoder.md R180). -/

namespace Sys2Proof.Machine

/-- Encode(cmd, P). A payload over MAX_PAYLOAD is rejected before anything is written (42_encoder.md R181). -/
def encodeInto (cmd : Byte) (p : List Byte) : Rule Unit := do
  check (p.length ≤ (← get).cfg.maxPayload) .payloadTooLong
  memWrite .tx 0 (commandFrame cmd p)
  modify fun s => { s with txlen := some (p.length + 9) }

/-- `MemRead(TXBUF@0, TXLEN)`. -/
def encodedFrame : Rule (List Byte) := do
  memRead .tx 0 (← valueOf (← get).txlen)

end Sys2Proof.Machine
end

