-- ==== Sys2Proof/Machine/FrameDecoder.lean ====
section
/-! DEFINITION. The Frame Decoder / Validator's procedures ReadAck, ValidateHeader, ValidateBody and ReadResponse, cut at
their external calls (43_decoder.md R201 to R206). -/

namespace Sys2Proof.Machine

/-- ValidateHeader(h): checks 2, 3 and 4 of 43_decoder.md R204 in that order; it returns LEN (R202). -/
def validateHeader : List Byte → Rule Byte
  | [h0, h1, h2, len, lcs] => do
    check ([h0, h1, h2] = startSeq) (.badStart [h0, h1, h2])
    check (len + lcs = 0) (.badLcs len lcs)
    check (zextByte len + 2 ≤ (← get).cfg.rxBodyCap) (.rxOverflow len)
    pure len
  | _ => bug .outOfBuffer

/-- ValidateBody(L, tfi) on the body in RXBUF: checks 6 to 9 of 43_decoder.md R204 in that order; it sets PLEN (R203). -/
def validateBody (len tfi : Byte) : Rule Unit := do
  let post ← memReadByte .rx (zextByte len + 1)
  check (post = postamble) (.badPostamble post)
  check (2 ≤ zextByte len) (.lenTooShort len)
  let tag ← memReadByte .rx 0
  check (tag = tfi) (.badTfi tag)
  let data ← memRead .rx 0 (zextByte len)
  let dcs ← memReadByte .rx (zextByte len)
  check (sum8 data + dcs = 0) (.badDcs dcs)
  modify fun s => { s with plen := some len }

/-- `MemWrite(RXBUF@0, L + 2, body)` and `RXLEN <- L + 2`. -/
def storeBody (len : Byte) (body : List Byte) : Rule Unit := do
  memWrite .rx 0 body
  modify fun s => { s with rxlen := some (zextByte len + 2) }

/-- The validated payload, `MemRead(RXBUF@0, PLEN)` (43_decoder.md R208). -/
def validatedPayload : Rule (List Byte) := do
  memRead .rx 0 (zextByte (← valueOf (← get).plen))

/-- ReadAck up to its read: seven bytes. -/
def readAckStart : Rule Unit := transportRead 7 .ackArrived

/-- ReadAck after its read: the status byte is stored and not checked, the six others must be the sentinel
(43_decoder.md R201). -/
def ackArrived : Answer → Rule Unit
  | .readFailed => raise .readFailed
  | .bytes t => do
    memWrite .ack 0 t
    let a ← memRead .ack 1 6
    check (a = ackSeq) (.ackMismatch a)
  | _ => bug .noSuchPoint

/-- ReadResponse up to its header read: six bytes. -/
def readResponseStart : Rule Unit := transportRead 6 .headerArrived

/-- ReadResponse after the header read: the body read is issued only if every header check passes (43_decoder.md R206,
R207). -/
def headerArrived : Answer → Rule Unit
  | .readFailed => raise .readFailed
  | .bytes t => do
    memWrite .hdr 0 t
    let len ← validateHeader (← memRead .hdr 1 5)
    transportRead (zextByte len + 2) (.bodyArrived len)
  | _ => bug .noSuchPoint

/-- ReadResponse after the body read (43_decoder.md R206). -/
def bodyArrived (len : Byte) : Answer → Rule Unit
  | .readFailed => raise .readFailed
  | .bytes t => do
    storeBody len t
    validateBody len tfiCtrl
  | _ => bug .noSuchPoint

/-- The validation of DECODE_FRAME (43_decoder.md R205). -/
def decodeOperand (tfi : Byte) (f : List Byte) : Rule Unit := do
  check (5 ≤ f.length) .badFrameLength
  let len ← validateHeader (f.take 5)
  check (f.length = zextByte len + 7) .badFrameLength
  storeBody len (f.drop 5)
  validateBody len tfi

end Sys2Proof.Machine
end

