-- ==== Sys2Proof/Machine/Parser.lean ====
section
/-! DEFINITION. The Target Record Parser's procedure (45_parser.md R290). -/

namespace Sys2Proof.Machine

/-- ParseTarget(P, cap). It returns whether a target was found; UIDBUF and UIDLEN are written only after every check
has passed (45_parser.md R294). -/
def parseTarget (p : List Byte) (cap : Nat) : Rule Bool := do
  check (3 ≤ p.length) (.recordTruncated p.length)
  let count ← byteAt p 2
  if count = 0x00 then
    pure false
  else
    check (count = 0x01) (.targetCount count)
    check (8 ≤ p.length) (.recordTruncated p.length)
    let u ← byteAt p 7
    check (u ≠ 0x00) .uidLenZero
    check (8 + zextByte u ≤ p.length) (.uidPastEnd u)
    check (zextByte u ≤ cap) (.uidCapacity u)
    memWrite .uid 0 ((p.drop 8).take (zextByte u))
    modify fun s => { s with uidlen := some u }
    pure true

/-- How a parse ends its operation: the UID, or NO_TARGET with no data (45_parser.md R295). -/
def replyTarget (found : Bool) : Rule Unit := do
  if found then
    reply statusOk (← memRead .uid 0 (zextByte (← valueOf (← get).uidlen)))
  else
    reply statusNoTarget []

end Sys2Proof.Machine
end

