-- ==== Sys2Proof/Machine/Poller.lean ====
section
/-! DEFINITION. The Readiness Poller's procedure PollReady, cut at its external calls (41_poller.md R160). -/

namespace Sys2Proof.Machine

/-- PollReady(tmo) up to its first clock query. -/
def pollStart (tmo : Millis) : Rule Unit := do
  modify fun s => { s with pollTmo := some tmo }
  clockNow .pollStarted

/-- One status sample. -/
def pollSample : Rule Unit := transportRead 1 .sampled

/-- POLL_T0 takes the first clock value; the first sample follows. -/
def pollStarted (t : Nat) : Rule Unit := do
  modify fun s => { s with pollT0 := some t }
  pollSample

/-- A sample has been answered: a failed read ends the poll, 0x01 makes it return Ready to `whenReady`, and any other
value asks for the time (41_poller.md R161, R164). -/
def pollSampled (whenReady : Rule Unit) : Answer → Rule Unit
  | .readFailed => raise .readFailed
  | .bytes t => do
    let b ← byteAt t 0
    modify fun s => { s with pollLast := some b }
    if b = ready then whenReady else clockNow .timed
  | _ => bug .noSuchPoint

/-- The elapsed time is compared with the bound after a not-ready sample (41_poller.md R162). -/
def pollTimed (t : Nat) : Rule Unit := do
  let t0 ← valueOf (← get).pollT0
  let tmo ← valueOf (← get).pollTmo
  let last ← valueOf (← get).pollLast
  check (t - t0 < zextMillis tmo) (.timeout last)
  pollSample

end Sys2Proof.Machine
end

