-- ==== Sys2Proof/Machine/Dispatcher.lean ====
section
/-! DEFINITION. The Command Dispatcher: Exchange cut at its external calls, and the success criteria of the public
operations (44_dispatcher.md R240 to R248). -/

namespace Sys2Proof.Machine

/-- Exchange up to its transport write (44_dispatcher.md R241). -/
def exchange (cmd : Byte) (p : List Byte) : Rule Unit := do
  modify fun s => { s with cmd := some cmd }
  encodeInto cmd p
  setPhase .encoded
  transportWrite (← encodedFrame) .frameWritten

/-- Exchange after the write: to Transmitted, at once to AckPending, and the ack poll. -/
def frameWritten : Answer → Rule Unit
  | .written false => raise .writeFailed
  | .written true => do
    setPhase .transmitted
    setPhase .ackPending
    pollStart tAckMs
  | _ => bug .noSuchPoint

/-- Exchange after a valid ack: to AckOk, at once to ResponsePending, and the response poll. -/
def ackAccepted : Rule Unit := do
  setPhase .ackOk
  setPhase .responsePending
  pollStart (← match responseBound (← get).operands with
    | some t => pure t
    | none => bug .noSuchPoint)

/-- The wire command of SAMConfiguration with the configured payload (44_dispatcher.md R246). -/
def samExchange : Rule Unit := do
  let c := (← get).cfg
  exchange cmdSam [c.samMode, c.samTimeout, c.samIrq]

/-- The success criterion of GetFirmwareVersion: a payload of exactly six bytes (44_dispatcher.md R245). -/
def gfvCriterion : Rule Unit := do
  let n ← valueOf (← get).plen
  check (n = 6) (.badPayloadShape n)
  setPhase .done

/-- GET_FIRMWARE_VERSION after its exchange. -/
def gfvFinish : Rule Unit := do
  gfvCriterion
  reply statusOk (← memRead .rx 2 4)

/-- CONFIGURE_SAM after its exchange: the response data is not looked at (44_dispatcher.md R246). -/
def samFinish : Rule Unit := do
  setPhase .done
  reply statusOk []

/-- READ_PASSIVE_TARGET_A after its exchange (44_dispatcher.md R247). -/
def targetFinish : Rule Unit := do
  let found ← parseTarget (← validatedPayload) (← get).cfg.uidCap
  setPhase .done
  replyTarget found

/-- BEGIN after one of its two exchanges: the wake command's state is discarded and SAMConfiguration follows it
(44_dispatcher.md R248). -/
def beginFinish (cmd : Byte) : Rule Unit := do
  if cmd = cmdGfv then
    gfvCriterion
    setPhase .idle
    modify fun s => s.discardCommand
    samExchange
  else samFinish

/-- The success criterion of the dispatcher command in flight. -/
def criterion (cmd : Byte) : Option Instr → Rule Unit
  | some .beginOp => beginFinish cmd
  | some .getFirmwareVersion => gfvFinish
  | some .configureSam => samFinish
  | some (.readPassiveTargetA _) => targetFinish
  | _ => bug .noSuchPoint

/-- Exchange after ReadResponse: the response code must be the command code plus one modulo 256, before the success
criterion (44_dispatcher.md R243). -/
def responseAccepted : Rule Unit := do
  let code ← memReadByte .rx 1
  let cmd ← valueOf (← get).cmd
  check (code = cmd + 1) (.protocolMismatch code)
  criterion cmd (← get).operands

end Sys2Proof.Machine
end

