-- ==== Sys2Proof/Machine/Engine.lean ====
section
/-! DEFINITION. How the block runs: a rule stops at each external call, goes on when the call is answered, and waits while
it is not (10_state.md R21, R26, 70_reset_and_hazards.md R361). PHASE says which rule a poll, an ack read or a response
read belongs to: AckPending or ResponsePending for Exchange, Idle for the operation of its own. -/

namespace Sys2Proof.Machine

open Host (Outcome)

/-- PollReady has returned Ready: POLL_READY ends, or Exchange reads the ack or the response. -/
def afterPoll : Rule Unit := do
  match (← get).phase with
  | .idle => reply statusOk []
  | .ackPending => readAckStart
  | .responsePending => readResponseStart
  | _ => bug .noSuchPoint

/-- ReadAck has succeeded: READ_ACK ends, or Exchange goes on. -/
def afterAck : Rule Unit := do
  match (← get).phase with
  | .idle => reply statusOk []
  | .ackPending => ackAccepted
  | _ => bug .noSuchPoint

/-- ReadResponse has succeeded: READ_RESPONSE ends with the validated payload, or Exchange goes on. -/
def afterResponse : Rule Unit := do
  match (← get).phase with
  | .idle => reply statusOk (← validatedPayload)
  | .responsePending => responseAccepted
  | _ => bug .noSuchPoint

/-- A rule goes on with the answer of its call. -/
def resume (k : Resume) (a : Answer) : Rule Unit :=
  match k with
  | .frameWritten => frameWritten a
  | .pollStarted =>
    match a with
    | .time t => pollStarted t
    | _ => bug .noSuchPoint
  | .sampled => pollSampled afterPoll a
  | .timed =>
    match a with
    | .time t => pollTimed t
    | _ => bug .noSuchPoint
  | .ackArrived => do
    ackArrived a
    afterAck
  | .headerArrived => headerArrived a
  | .bodyArrived len => do
    bodyArrived len a
    afterResponse

/-- Run a piece of a rule: a raise ends the operation (60_exceptions.md R314), a bug of the model faults. -/
def runRule (r : Rule Unit) (s : State) : Outcome State Fault Refusal :=
  match r.run s with
  | .ok _ t => .next t
  | .error (.raised e) t => .next (t.fail e)
  | .error (.bug f) _ => .fault f

/-- One event: the outstanding call is answered and its rule goes on to the next call or to its end. None where no call
is outstanding or its answer has not come. -/
def turn (s : State) : Option (Outcome State Fault Refusal) :=
  match s.outstanding with
  | none => none
  | some o =>
    match answerOf o.call s with
    | none => none
    | some (a, t) => some (runRule (resume o.resume a) ({ t with outstanding := none }.log (.call o.call a)))

/-- At most `n` events. -/
def settle : Nat → State → Outcome State Fault Refusal
  | 0, s => .next s
  | n + 1, s =>
    match turn s with
    | none => .next s
    | some (.next t) => settle n t
    | some o => o

/-- How many answers the channels hold, a bound on the events that can follow: each takes at least one. -/
def State.budget (s : State) : Nat := s.writeAnswers.length + s.rx.length + s.clock.length

/-- Run on until the operation ends or waits for an answer. -/
def advance (s : State) : Outcome State Fault Refusal := settle s.budget s

/-- Run a piece of a rule, then run on. -/
def runOn (r : Rule Unit) (s : State) : Outcome State Fault Refusal :=
  match runRule r s with
  | .next t => advance t
  | o => o

/-- The block as it starts on a request: BUSY 1, CUR_OP the OPC (10_state.md R21). -/
def State.accept (s : State) (i : Instr) (opc : Byte) : State :=
  { s with busy := true, curOp := some opc, operands := some i }.log (.accepted opc)

/-- A request: accepted if BUSY is 0, and its rule run; while BUSY is 1 it "stays offered and is not accepted"
(10_state.md R21). -/
def request (i : Instr) (opc : Byte) (rule : Rule Unit) (s : State) : Outcome State Fault Refusal :=
  if s.busy then .next { s with offered := encode i :: s.offered }
  else runOn rule (s.accept i opc)

/-- A request that the block accepts and a reset abandons at once: no RES message, no call (70_reset_and_hazards.md
R350). -/
def State.abandonRequest (s : State) (i : Instr) (opc : Byte) : State :=
  { (s.accept i opc).applyReset with resetOnAccept := false }

/-- A frame or sample of the controller: its bytes are the next that the transport delivers, and the block runs on with
what its reads take of them. What no read takes stays in the stream (70_reset_and_hazards.md R357). -/
def receive (bs : List Byte) (s : State) : Outcome State Fault Refusal := advance (s.deliver bs)

/-- A command frame goes onto the wire: the transport answers `OK` to the outstanding write of exactly this frame. Where
the block is not writing it, the event does not exist. -/
def transmitFrame (frame : List Byte) (s : State) : Outcome State Fault Refusal :=
  match s.outstanding with
  | some ⟨.write f _, _⟩ =>
    if f = frame then advance { s with writeAnswers := true :: s.writeAnswers }
    else .refused .frameNotSent
  | _ => .refused .frameNotSent

end Sys2Proof.Machine
end

