-- ==== Sys2Proof/Machine/Components.lean ====
section
/-! DEFINITION. The eight component operations, OPC 0x01 to 0x08 (30_encoding.md R108). -/

namespace Sys2Proof.Machine

open Host (Outcome)

/-- CHECKSUM (40_checksum.md R141). -/
def execChecksum (bs : List Byte) (s : State) : Outcome State Fault Refusal :=
  request (.checksum bs) 0x01 (reply statusOk [checksum bs]) s

/-- VERIFY_CHECKSUM (40_checksum.md R142): a mismatch is a result, not an error. -/
def execVerifyChecksum (cs : Byte) (bs : List Byte) (s : State) : Outcome State Fault Refusal :=
  request (.verifyChecksum cs bs) 0x02 (reply statusOk [if validSum bs cs then 0x01 else 0x00]) s

/-- ENCODE_FRAME (42_encoder.md R180). -/
def execEncodeFrame (cmd : Byte) (p : List Byte) (s : State) : Outcome State Fault Refusal :=
  request (.encodeFrame cmd p) 0x03 (do
    encodeInto cmd p
    reply statusOk (← encodedFrame)) s

/-- DECODE_FRAME (43_decoder.md R205). -/
def execDecodeFrame (tfi : Byte) (f : List Byte) (s : State) : Outcome State Fault Refusal :=
  request (.decodeFrame tfi f) 0x04 (do
    decodeOperand tfi f
    reply statusOk (← validatedPayload)) s

/-- POLL_READY (41_poller.md R166); `afterPoll` ends it. -/
def execPollReady (t : Millis) (s : State) : Outcome State Fault Refusal :=
  request (.pollReady t) 0x05 (pollStart t) s

/-- READ_ACK (43_decoder.md R201); `afterAck` ends it. -/
def execReadAck (s : State) : Outcome State Fault Refusal :=
  request .readAck 0x06 readAckStart s

/-- READ_RESPONSE (43_decoder.md R206); `afterResponse` ends it. -/
def execReadResponse (s : State) : Outcome State Fault Refusal :=
  request .readResponse 0x07 readResponseStart s

/-- PARSE_TARGET (45_parser.md R290). -/
def execParseTarget (cap : Byte) (p : List Byte) (s : State) : Outcome State Fault Refusal :=
  request (.parseTarget cap p) 0x08 (do
    replyTarget (← parseTarget p (zextByte cap))) s

end Sys2Proof.Machine
end

