-- ==== Sys2Proof/Machine/Public.lean ====
section
/-! DEFINITION. The four public operations, OPC 0x10 to 0x13 (30_encoding.md R108). Each begins its exchange here;
`criterion` ends it. -/

namespace Sys2Proof.Machine

open Host (Outcome)

/-- BEGIN (44_dispatcher.md R248): the wake command first. -/
def execBegin (s : State) : Outcome State Fault Refusal :=
  request .beginOp 0x10 (exchange cmdGfv []) s

/-- GET_FIRMWARE_VERSION (44_dispatcher.md R245). -/
def execGetFirmwareVersion (s : State) : Outcome State Fault Refusal :=
  request .getFirmwareVersion 0x11 (exchange cmdGfv []) s

/-- CONFIGURE_SAM (44_dispatcher.md R246). -/
def execConfigureSam (s : State) : Outcome State Fault Refusal :=
  request .configureSam 0x12 samExchange s

/-- READ_PASSIVE_TARGET_A (44_dispatcher.md R247). -/
def execReadPassiveTargetA (t : Millis) (s : State) : Outcome State Fault Refusal :=
  request (.readPassiveTargetA t) 0x13 (exchange cmdInlpt inlptPayload) s

end Sys2Proof.Machine
end

