-- ==== Sys2Proof/Machine/Wire.lean ====
section
/-! DEFINITION. The eight rows of the wire layer as events of the block (log entry 10): a command frame that the transport
takes, and a frame or sample that the transport delivers. -/

namespace Sys2Proof.Machine

open Host (Outcome)

/-- Wire command GetFirmwareVersion (44_dispatcher.md R249). -/
def execWireCmdGetFirmwareVersion (s : State) : Outcome State Fault Refusal :=
  transmitFrame (encode .wireCmdGetFirmwareVersion) s

/-- Wire command SAMConfiguration (44_dispatcher.md R250). -/
def execWireCmdSamConfiguration (m t q : Byte) (s : State) : Outcome State Fault Refusal :=
  transmitFrame (encode (.wireCmdSamConfiguration m t q)) s

/-- Wire command InListPassiveTarget (44_dispatcher.md R251). -/
def execWireCmdInListPassiveTarget (s : State) : Outcome State Fault Refusal :=
  transmitFrame (encode .wireCmdInListPassiveTarget) s

/-- Wire response GetFirmwareVersion (44_dispatcher.md R252). -/
def execWireRspGetFirmwareVersion (st ic v rev sup : Byte) (s : State) : Outcome State Fault Refusal :=
  receive (encode (.wireRspGetFirmwareVersion st ic v rev sup)) s

/-- Wire response SAMConfiguration (44_dispatcher.md R253). -/
def execWireRspSamConfiguration (st : Byte) (d : List Byte) (s : State) : Outcome State Fault Refusal :=
  receive (encode (.wireRspSamConfiguration st d)) s

/-- Wire response InListPassiveTarget (44_dispatcher.md R254). -/
def execWireRspInListPassiveTarget (st : Byte) (d : List Byte) (s : State) : Outcome State Fault Refusal :=
  receive (encode (.wireRspInListPassiveTarget st d)) s

/-- The ack frame (30_encoding.md R96, 43_decoder.md R201). -/
def execWireAck (st : Byte) (s : State) : Outcome State Fault Refusal :=
  receive (encode (.wireAck st)) s

/-- The ready sample (30_encoding.md R97, 41_poller.md R161). -/
def execWireStatusReady (s : State) : Outcome State Fault Refusal :=
  receive (encode .wireStatusReady) s

end Sys2Proof.Machine
end

