-- ==== Sys2Proof/Machine/Dispatch.lean ====
section
/-! DEFINITION. The meaning of every row of spec/opcode_table.json. -/

namespace Sys2Proof.Machine

def exec (i : Instr) (s : State) : Host.Outcome State Fault Refusal :=
  match i with
  | .checksum bs => Sys2Proof.Machine.execChecksum bs s
  | .verifyChecksum cs bs => Sys2Proof.Machine.execVerifyChecksum cs bs s
  | .encodeFrame cmd p => Sys2Proof.Machine.execEncodeFrame cmd p s
  | .decodeFrame tfi f => Sys2Proof.Machine.execDecodeFrame tfi f s
  | .pollReady t => Sys2Proof.Machine.execPollReady t s
  | .readAck => Sys2Proof.Machine.execReadAck s
  | .readResponse => Sys2Proof.Machine.execReadResponse s
  | .parseTarget cap p => Sys2Proof.Machine.execParseTarget cap p s
  | .beginOp => Sys2Proof.Machine.execBegin s
  | .getFirmwareVersion => Sys2Proof.Machine.execGetFirmwareVersion s
  | .configureSam => Sys2Proof.Machine.execConfigureSam s
  | .readPassiveTargetA t => Sys2Proof.Machine.execReadPassiveTargetA t s
  | .wireCmdGetFirmwareVersion => Sys2Proof.Machine.execWireCmdGetFirmwareVersion s
  | .wireCmdSamConfiguration m t q => Sys2Proof.Machine.execWireCmdSamConfiguration m t q s
  | .wireCmdInListPassiveTarget => Sys2Proof.Machine.execWireCmdInListPassiveTarget s
  | .wireRspGetFirmwareVersion st ic v rev sup => Sys2Proof.Machine.execWireRspGetFirmwareVersion st ic v rev sup s
  | .wireRspSamConfiguration st d => Sys2Proof.Machine.execWireRspSamConfiguration st d s
  | .wireRspInListPassiveTarget st d => Sys2Proof.Machine.execWireRspInListPassiveTarget st d s
  | .wireAck st => Sys2Proof.Machine.execWireAck st s
  | .wireStatusReady => Sys2Proof.Machine.execWireStatusReady s

end Sys2Proof.Machine
end

