-- ==== Sys2Proof/Machine/Fetch.lean ====
section
/-! DEFINITION. Where the next item of the opcode table stands: on REQ while BUSY is 0, on the wire at the outstanding call
while it is 1 (10_state.md R21, R26). -/

namespace Sys2Proof.Machine

/-- What the block finds. -/
inductive Fetched where
  /-- An item, and the state with the item taken. -/
  | item (i : Instr) (t : State)
  /-- A descriptor that spells no operation (30_encoding.md R109). -/
  | malformed (why : DecodeError)
  /-- No request and no frame of the table: what happens, if anything, is up to the rule in flight. -/
  | nothing
  deriving DecidableEq, Repr

/-- The oldest descriptor offered on REQ. -/
def fetchRequest (s : State) : Fetched :=
  match s.offered with
  | [] => .nothing
  | d :: rest =>
    match decode .request d with
    | .ok i => .item i { s with offered := rest }
    | .error e => .malformed e

/-- The item that `bs` spells on `ch`, taken off the stream of XR, which then holds `rest`. -/
def fetchBytes (ch : Channel) (bs : List Byte) (rest : List RxToken) (s : State) : Fetched :=
  match decode ch bs with
  | .ok i => .item i { s with rx := rest }
  | .error _ => .nothing

/-- The frame or sample at the outstanding call, if it is one of the table: the frame being written, if the transport
answers `OK`; the sample, the ack or the whole response that the next reads take. -/
def fetchWire (s : State) : Fetched :=
  match s.outstanding with
  | some ⟨.write f _, _⟩ =>
    match s.writeAnswers, decode .command f with
    | true :: rest, .ok i => .item i { s with writeAnswers := rest }
    | _, _ => .nothing
  | some ⟨.read n _, .sampled⟩ =>
    match takeRead n s.rx with
    | some (.bytes t, rest) => fetchBytes .sample t rest s
    | _ => .nothing
  | some ⟨.read n _, .ackArrived⟩ =>
    match takeRead n s.rx with
    | some (.bytes t, rest) => fetchBytes .ack t rest s
    | _ => .nothing
  | some ⟨.read n _, .headerArrived⟩ =>
    match takeRead n s.rx with
    | some (.bytes h, mid) =>
      match takeRead (zextByte (h.getD 4 0) + 2) mid with
      | some (.bytes body, rest) => fetchBytes .response (h ++ body) rest s
      | _ => .nothing
    | _ => .nothing
  | _ => .nothing

/-- The next item. -/
def fetch (s : State) : Fetched := if s.busy then fetchWire s else fetchRequest s

/-! ### Placing an item where it is fetched -/

/-- The block with no operation in flight, no reset applied and no answer owed. -/
def State.vacant (s : State) : State :=
  { (if s.busy then s.cleared else s) with resetLine := false, resetOnAccept := false, owed := .nothing }

/-- The operation that `i` requests is in flight and waits for the answer to `c`. -/
def State.awaiting (s : State) (i : Instr) (c : Call) (k : Resume) : State :=
  { s.vacant with busy := true, curOp := i.opcode, operands := some i, outstanding := some ⟨c, k⟩ }

/-- The dispatcher command that sends a frame of code `cmd`. -/
def commandRequest (cmd : Byte) : Instr :=
  if cmd = cmdSam then .configureSam
  else if cmd = cmdInlpt then .readPassiveTargetA 0
  else .getFirmwareVersion

/-- `s` with the bytes of an item placed where the next step fetches it: a descriptor first on REQ; a command frame in
TXBUF, its write outstanding and answered `OK`; what the controller sends first on XR, with the operation in flight whose
read takes it (log entry 14). -/
def State.place (s : State) (ch : Channel) (bs : List Byte) : State :=
  match ch with
  | .request => { s.vacant with offered := bs :: s.offered }
  | .command =>
    { s.awaiting (commandRequest (bs.getD 6 0)) (.write bs s.cfg.tCall) .frameWritten with
      phase := .encoded, cmd := some (bs.getD 6 0), txbuf := writeBytes [] 0 bs, txlen := some bs.length,
      writeAnswers := true :: s.writeAnswers }
  | .sample =>
    { (s.awaiting (.pollReady 0) (.read 1 s.cfg.tCall) .sampled).deliver bs with
      pollTmo := some 0, pollT0 := some 0 }
  | .ack => (s.awaiting .readAck (.read 7 s.cfg.tCall) .ackArrived).deliver bs
  | .response => (s.awaiting .readResponse (.read 6 s.cfg.tCall) .headerArrived).deliver bs

end Sys2Proof.Machine
end

