-- ==== Sys2Proof/Machine/Step.lean ====
section
/-! DEFINITION. One step of the block. -/

namespace Sys2Proof.Machine

/-- Run the item that the block has fetched; a reset that the host applies on the acceptance of a request comes before
anything the operation does (70_reset_and_hazards.md R350). -/
def runItem (i : Instr) (s : State) : Host.Outcome State Fault Refusal :=
  match s.resetOnAccept, i.opcode with
  | true, some opc => if s.busy then exec i s else .next (s.abandonRequest i opc)
  | _, _ => exec i s

/-- One step: a reset that the host applies comes first (70_reset_and_hazards.md R350). Else what the channels have brought
for abandoned calls is discarded (R350), and the next request or wire frame is decoded and executed; else the rule in flight
runs on with what has been answered, or waits (R361); with nothing to do the block does nothing (R351). -/
def step (s : State) : Host.Outcome State Fault Refusal :=
  if s.resetLine then .next s.applyReset
  else
    match fetch s.dropOwed with
    | .item i t => runItem i t
    | .malformed why => .refused (.badDescriptor why)
    | .nothing => advance s.dropOwed

/-- `s` with the item of a table word placed where `step` fetches its next one. -/
def State.withFetchWord (s : State) (nbits w : Nat) : State :=
  s.place (tableItem nbits w).1 (tableItem nbits w).2

end Sys2Proof.Machine
end

