-- ==== Sys2Proof/Scenario.lean ====
section
/-! DEFINITION. What the agents outside the block answer in a run, and what the run then shows, in the terms the statements
use (00_scope.md R11, 41_poller.md R160, 44_dispatcher.md R241). -/

namespace Sys2Proof.Machine

/-- The bytes of a stretch of the transport stream. -/
abbrev stream (bs : List Byte) : List RxToken := bs.map .byte

/-- No operation is in flight: BUSY 0, PHASE `Idle`, every other element no value (10_state.md R43, R44). -/
def State.AtRest (s : State) : Prop := s.cleared = s

/-- The events of an operation that ends by `return`, `es` between its acceptance and its RES message. -/
def succeeded (opc : Byte) (es : List Event) (status : Byte) (data : List Byte) : List Event :=
  .accepted opc :: (es ++ [.result (successMsg status data), .phase .idle])

/-- The events of an operation that ends by `raise` in phase `p`, `es` between its acceptance and the raise
(60_exceptions.md R314). -/
def failedWith (opc : Byte) (es : List Event) (e : Failure) (p : Phase) : List Event :=
  .accepted opc :: (es ++ [.phase .failed, .result (failureMsg e p), .phase .idle])

/-! ### One poll -/

/-- One poll up to its last sample: the clock value before the first sample, then each sample that is not ready with the
clock value that follows it. -/
structure Wait where
  t0 : Nat
  notYet : List (Byte × Nat)
  deriving DecidableEq, Repr

/-- No sample so far ends the poll: none is ready, and the time after each has not reached the bound. -/
def Wait.Within (w : Wait) (bound : Millis) : Prop :=
  ∀ x ∈ w.notYet, x.1 ≠ ready ∧ w.t0 ≤ x.2 ∧ x.2 < w.t0 + bound.toNat

/-- The samples, as the transport delivers them. -/
def Wait.samples (w : Wait) : List Byte := w.notYet.map Prod.fst

/-- The clock values. -/
def Wait.times (w : Wait) : List Nat := w.t0 :: w.notYet.map Prod.snd

/-- One status sample. -/
def sampleCall (tCall : Nat) (b : Byte) : Event := .call (.read 1 tCall) (.bytes [b])

/-- One clock query. -/
def clockCall (t : Nat) : Event := .call .clock (.time t)

/-- The calls of the poll, in order. -/
def Wait.calls (w : Wait) (tCall : Nat) : List Event :=
  clockCall w.t0 :: w.notYet.flatMap fun x => [sampleCall tCall x.1, clockCall x.2]

/-- The calls of a poll that then sees a ready sample. -/
def Wait.readyCalls (w : Wait) (tCall : Nat) : List Event := w.calls tCall ++ [sampleCall tCall ready]

/-- The calls of a poll that then sees the sample `b` and the time `t`. -/
def Wait.lateCalls (w : Wait) (tCall : Nat) (b : Byte) (t : Nat) : List Event :=
  w.calls tCall ++ [sampleCall tCall b, clockCall t]

/-! ### One command -/

/-- The command an operation sends first (44_dispatcher.md R240, R248). -/
def firstCommand : Instr → Option Byte
  | .beginOp => some cmdGfv
  | .getFirmwareVersion => some cmdGfv
  | .configureSam => some cmdSam
  | .readPassiveTargetA _ => some cmdInlpt
  | _ => none

/-- The payload of a dispatcher command (44_dispatcher.md R240). -/
def commandPayload (c : Config) (cmd : Byte) : List Byte :=
  if cmd = cmdSam then [c.samMode, c.samTimeout, c.samIrq]
  else if cmd = cmdInlpt then inlptPayload
  else []

/-- The frame the dispatcher sends for a command. -/
def sentFrame (c : Config) (cmd : Byte) : List Byte := commandFrame cmd (commandPayload c cmd)

/-- The write of a command's frame and its answer, with the phase before it. -/
def writing (c : Config) (cmd : Byte) (ok : Bool) : List Event :=
  [.phase .encoded, .call (.write (sentFrame c cmd) c.tCall) (.written ok)]

/-- Exchange up to its ack poll: the frame is written. -/
def written (c : Config) (cmd : Byte) : List Event :=
  writing c cmd true ++ [.phase .transmitted, .phase .ackPending]

/-- What the controller does with one command up to its response: it makes the block wait, and acknowledges. -/
structure Acked where
  wait : Wait
  status : Byte
  deriving DecidableEq, Repr

/-- The transport's bytes of an acknowledgement. -/
def Acked.bytes (a : Acked) : List Byte := a.wait.samples ++ [ready] ++ ackRead a.status

/-- Exchange up to its response poll: the frame is written and acknowledged. -/
def Acked.events (a : Acked) (c : Config) (cmd : Byte) : List Event :=
  written c cmd ++ a.wait.readyCalls c.tCall ++
    [.call (.read 7 c.tCall) (.bytes (ackRead a.status)), .phase .ackOk, .phase .responsePending]

/-- What the controller does with one command: it acknowledges, makes the block wait, and sends a response of code `rsp`
with data `data`. -/
structure Reply where
  ack : Acked
  wait : Wait
  status : Byte
  rsp : Byte
  data : List Byte
  deriving DecidableEq, Repr

/-- The transport's bytes of a reply. -/
def Reply.bytes (r : Reply) : List Byte :=
  r.ack.bytes ++ (r.wait.samples ++ [ready] ++ responseRead r.status r.rsp r.data)

/-- The clock's values of a reply. -/
def Reply.times (r : Reply) : List Nat := r.ack.wait.times ++ r.wait.times

/-- The reply comes in time, and its response fits its frame and RXBUF. -/
structure Reply.Fits (r : Reply) (c : Config) (bound : Millis) : Prop where
  ack : r.ack.wait.Within tAckMs
  response : r.wait.Within bound
  frame : r.data.length ≤ 253
  buffer : r.data.length + 4 ≤ c.rxBodyCap

/-- The two reads of the response. -/
def Reply.reads (r : Reply) (tCall : Nat) : List Event :=
  [.call (.read 6 tCall) (.bytes (r.status :: responseHead r.data.length)),
    .call (.read (r.data.length + 4) tCall) (.bytes (responseBody r.rsp r.data))]

/-- Exchange up to the response-code check. -/
def Reply.events (r : Reply) (c : Config) (cmd : Byte) : List Event :=
  r.ack.events c cmd ++ r.wait.readyCalls c.tCall ++ r.reads c.tCall

/-- What the agents have answered to a dispatcher operation up to where it sends a command, and what the run has shown since
its acceptance. -/
structure Lead where
  writes : List Bool
  bytes : List Byte
  times : List Nat
  events : List Event
  deriving DecidableEq, Repr

/-- How an operation comes to send a command: its first at once, and BEGIN its second after a good reply to the wake command,
whose state it discards (44_dispatcher.md R240, R248). -/
inductive Leads (c : Config) : Instr → Byte → Lead → Prop where
  | first {i : Instr} {cmd : Byte} : firstCommand i = some cmd → Leads c i cmd ⟨[], [], [], []⟩
  | afterWake {r : Reply} : r.Fits c tRspMs → r.rsp = cmdGfv + 1 → r.data.length = 4 →
    Leads c .beginOp cmdSam
      ⟨[true], r.bytes, r.times, r.events c cmdGfv ++ [.phase .done, .phase .idle]⟩

end Sys2Proof.Machine
end

