-- ==== Sys2Proof/Safety.lean ====
section
/-! DEFINITION. What a sound state of the block is, and what a run may show, in the terms the statements use. -/

namespace Sys2Proof.Machine

/-- The dispatcher commands an operation may have in flight (44_dispatcher.md R240, R248). -/
def mayCommand : Instr → Byte → Bool
  | .beginOp, c => c == cmdGfv || c == cmdSam
  | .getFirmwareVersion, c => c == cmdGfv
  | .configureSam, c => c == cmdSam
  | .readPassiveTargetA _, c => c == cmdInlpt
  | _, _ => false

/-- A dispatcher command of the operation `i` is in flight. -/
def State.InExchange (s : State) (i : Instr) : Prop := ∃ c, s.cmd = some c ∧ mayCommand i c = true

/-- A poll of the operation `i` is in flight, with the bound its rule gives it. -/
def State.InPoll (s : State) (i : Instr) : Prop :=
  match s.phase with
  | .idle => ∃ t, i = .pollReady t ∧ s.pollTmo = some t
  | .ackPending => s.InExchange i ∧ s.pollTmo = some tAckMs
  | .responsePending => s.InExchange i ∧ s.pollTmo = responseBound (some i)
  | _ => False

/-- An ack read of the operation `i` is in flight. -/
def State.InAck (s : State) (i : Instr) : Prop :=
  match s.phase with
  | .idle => i = .readAck
  | .ackPending => s.InExchange i
  | _ => False

/-- A response read of the operation `i` is in flight. -/
def State.InResponse (s : State) (i : Instr) : Prop :=
  match s.phase with
  | .idle => i = .readResponse
  | .responsePending => s.InExchange i
  | _ => False

/-- The operation `i` waits for the answer to `c` at the point `k` of its rule, and every element that the rest of the
rule reads holds its value. -/
def State.AtPoint (s : State) (i : Instr) (c : Call) : Resume → Prop
  | .frameWritten =>
    s.phase = .encoded ∧
      ∃ cmd, s.cmd = some cmd ∧ mayCommand i cmd = true ∧ c = .write (sentFrame s.cfg cmd) s.cfg.tCall
  | .pollStarted => c = .clock ∧ s.InPoll i
  | .sampled => c = .read 1 s.cfg.tCall ∧ s.InPoll i ∧ ∃ t0, s.pollT0 = some t0
  | .timed => c = .clock ∧ s.InPoll i ∧ (∃ t0, s.pollT0 = some t0) ∧ ∃ b, s.pollLast = some b
  | .ackArrived => c = .read 7 s.cfg.tCall ∧ s.InAck i
  | .headerArrived => c = .read 6 s.cfg.tCall ∧ s.InResponse i
  | .bodyArrived len =>
    c = .read (zextByte len + 2) s.cfg.tCall ∧ zextByte len + 2 ≤ s.cfg.rxBodyCap ∧ s.InResponse i

/-- An operation is in flight and waits for an answer. -/
def State.Waiting (s : State) : Prop :=
  ∃ i c k, s.operands = some i ∧ s.outstanding = some ⟨c, k⟩ ∧ s.curOp = i.opcode ∧ s.AtPoint i c k

/-- Every buffer has the canonical form. -/
abbrev State.BuffersWf (s : State) : Prop :=
  s.txbuf.wf ∧ s.ackbuf.wf ∧ s.hdrbuf.wf ∧ s.rxbuf.wf ∧ s.uidbuf.wf

/-- The invariant of the block between two steps: its parameters are in range; every buffer has the canonical form; with
BUSY 0 every element is as reset and the end of an operation leave it (10_state.md R43, R44); with BUSY 1 an operation
waits at a point of its rule, and UIDBUF and UIDLEN hold no value (45_parser.md R294). -/
structure State.Inv (s : State) : Prop where
  cfg : s.cfg.InRange
  buffers : s.BuffersWf
  idle : s.busy = false → s.AtRest
  waiting : s.busy = true → s.Waiting ∧ s.uidbuf = [] ∧ s.uidlen = none

/-- PHASE's transitions: the table of 44_dispatcher.md R242. -/
def phaseStep : Phase → Phase → Bool
  | .idle, .encoded => true
  | .encoded, .transmitted => true
  | .transmitted, .ackPending => true
  | .ackPending, .ackOk => true
  | .ackOk, .responsePending => true
  | .responsePending, .done => true
  | .idle, .failed => true
  | .encoded, .failed => true
  | .ackPending, .failed => true
  | .responsePending, .failed => true
  | .done, .idle => true
  | .failed, .idle => true
  | _, _ => false

/-- The OPC of a component operation, which is no dispatcher command (30_encoding.md R108). -/
def componentOpc : Option Byte → Bool
  | none => false
  | some c => c.toNat < 0x10

/-- Where a run stands: the OPC of the operation in flight, PHASE, and whether the operation has emitted its RES message and
has its end before it (10_state.md R43). -/
structure Track where
  opc : Option Byte
  phase : Phase
  ending : Bool
  deriving DecidableEq, Repr

/-- PHASE may go to `q`: by a transition of the table, or by the end of a component operation, which sets Idle where PHASE is
Idle (10_state.md R32, R43; log entry 19). -/
def Track.mayMove (k : Track) (q : Phase) : Bool :=
  phaseStep k.phase q || (k.ending && componentOpc k.opc && k.phase == .idle && q == .idle)

/-- Where the run stands after one event, if its move of PHASE is allowed. The move after the RES message ends the
operation; a reset takes PHASE to Idle with no move. -/
def Track.after (k : Track) : Event → Option Track
  | .accepted opc => some { k with opc := some opc }
  | .phase q =>
    if k.mayMove q then some (if k.ending then ⟨none, q, false⟩ else { k with phase := q }) else none
  | .call _ _ => some k
  | .result _ => some { k with ending := true }
  | .reset => some ⟨none, .idle, false⟩

/-- Where the run stands after the events, if every move of PHASE is allowed. -/
def Track.follow : Track → List Event → Option Track
  | k, [] => some k
  | k, e :: es => (k.after e).bind fun j => j.follow es

/-- Where a block stands between two steps. -/
def State.track (s : State) : Track := ⟨s.curOp, s.phase, false⟩

/-- FramingErrors 0x02 to 0x07 and RX_OVERFLOW: the failures of the response checks. -/
def responseFailure : Failure → Bool
  | .badStart _ => true
  | .badLcs _ _ => true
  | .badPostamble _ => true
  | .lenTooShort _ => true
  | .badTfi _ => true
  | .badDcs _ => true
  | .rxOverflow _ => true
  | _ => false

/-- Timeout. -/
def timeoutFailure : Failure → Bool
  | .timeout _ => true
  | _ => false

/-- ACK_MISMATCH. -/
def ackFailure : Failure → Bool
  | .ackMismatch _ => true
  | _ => false

/-- BAD_PAYLOAD_SHAPE. -/
def shapeFailure : Failure → Bool
  | .badPayloadShape _ => true
  | _ => false

/-- ProtocolMismatch. -/
def mismatchFailure : Failure → Bool
  | .protocolMismatch _ => true
  | _ => false

/-- The failures every dispatcher command can raise. -/
def exchangeFailure (e : Failure) : Bool :=
  e == .writeFailed || e == .readFailed || timeoutFailure e || ackFailure e || responseFailure e || mismatchFailure e

/-- The failures of ParseTarget. -/
def parseFailure : Failure → Bool
  | .targetCount _ => true
  | .recordTruncated _ => true
  | .uidLenZero => true
  | .uidPastEnd _ => true
  | .uidCapacity _ => true
  | _ => false

/-- Which operation can raise which failure, the table of 60_exceptions.md R312. -/
def mayRaise (i : Instr) (e : Failure) : Bool :=
  match i with
  | .checksum _ => false
  | .verifyChecksum _ _ => false
  | .encodeFrame _ _ => e == .payloadTooLong
  | .decodeFrame _ _ => e == .badFrameLength || responseFailure e
  | .pollReady _ => e == .readFailed || timeoutFailure e
  | .readAck => e == .readFailed || ackFailure e
  | .readResponse => e == .readFailed || responseFailure e
  | .parseTarget _ _ => parseFailure e
  | .beginOp => exchangeFailure e || shapeFailure e
  | .getFirmwareVersion => exchangeFailure e || shapeFailure e
  | .configureSam => exchangeFailure e
  | .readPassiveTargetA _ => exchangeFailure e || parseFailure e
  | .wireCmdGetFirmwareVersion => false
  | .wireCmdSamConfiguration _ _ _ => false
  | .wireCmdInListPassiveTarget => false
  | .wireRspGetFirmwareVersion _ _ _ _ _ => false
  | .wireRspSamConfiguration _ _ => false
  | .wireRspInListPassiveTarget _ _ => false
  | .wireAck _ => false
  | .wireStatusReady => false

/-- The FAIL_PHASE values that a failure of an operation can carry: `Idle`, and `Encoded`, `AckPending` and
`ResponsePending` for the dispatcher's (60_exceptions.md R313). -/
def mayFailIn (i : Instr) (p : Phase) : Bool :=
  p == .idle ||
    (responseBound (some i)).isSome && (p == .encoded || p == .ackPending || p == .responsePending)

/-- The operations that can end with NO_TARGET (60_exceptions.md R318). -/
def mayFindNoTarget : Instr → Bool
  | .parseTarget _ _ => true
  | .readPassiveTargetA _ => true
  | _ => false

/-- The RES messages that can end the operation `i`. -/
def mayAnswer (i : Instr) (m : ResMsg) : Prop :=
  (∃ d, m = successMsg statusOk d) ∨
  (mayFindNoTarget i = true ∧ m = successMsg statusNoTarget []) ∨
  (∃ e p, mayRaise i e = true ∧ mayFailIn i p = true ∧ m = failureMsg e p)

/-- How many requests the events accept. -/
def acceptances : List Event → Nat
  | [] => 0
  | .accepted _ :: es => acceptances es + 1
  | .phase _ :: es => acceptances es
  | .call _ _ :: es => acceptances es
  | .result _ :: es => acceptances es
  | .reset :: es => acceptances es

/-- How many RES messages the events emit. -/
def results : List Event → Nat
  | [] => 0
  | .result _ :: es => results es + 1
  | .accepted _ :: es => results es
  | .phase _ :: es => results es
  | .call _ _ :: es => results es
  | .reset :: es => results es

/-- A run is safe at a step that does not meet a bug of the model. -/
def SafeStep (s : State) : Prop := ∀ f, step s ≠ .fault f

end Sys2Proof.Machine
end

