-- ==== Sys2Proof/Verdicts.lean ====
section
/-! DEFINITION. What the spec's tables say of whole byte sequences, with no buffers and no calls: the sums, the checks of a
response in their order, the checks of a target record. Statements compare the machine with these. -/

namespace Sys2Proof.Verdicts

open Machine (Failure)

/-- The sum of the bytes as a natural number. -/
def total (s : List Byte) : Nat := (s.map BitVec.toNat).sum

/-- `(0x100 - sum8(s)) mod 256` (40_checksum.md R140). -/
def checksumOf (s : List Byte) : Byte := BitVec.ofNat 8 ((0x100 - total s % 256) % 256)

/-- Checks 2, 3 and 4 of 43_decoder.md R204 on the five bytes from index 0: the LEN byte, or the first failure. -/
def header (cap : Nat) (h : List Byte) : Except Failure Byte :=
  let len := h.getD 3 0
  let lcs := h.getD 4 0
  if h.take 3 ≠ [0x00, 0x00, 0xFF] then .error (.badStart (h.take 3))
  else if (len.toNat + lcs.toNat) % 256 ≠ 0 then .error (.badLcs len lcs)
  else if len.toNat + 2 > cap then .error (.rxOverflow len)
  else .ok len

/-- Checks 6 to 9 of 43_decoder.md R204 on the `LEN + 2` body bytes: the validated payload, or the first failure. -/
def body (tfi len : Byte) (b : List Byte) : Except Failure (List Byte) :=
  let n := len.toNat
  if b.getD (n + 1) 0 ≠ 0x00 then .error (.badPostamble (b.getD (n + 1) 0))
  else if n < 2 then .error (.lenTooShort len)
  else if b.getD 0 0 ≠ tfi then .error (.badTfi (b.getD 0 0))
  else if (total (b.take n) + (b.getD n 0).toNat) % 256 ≠ 0 then .error (.badDcs (b.getD n 0))
  else .ok (b.take n)

/-- DECODE_FRAME: the validated payload, or the first failure in the order of 43_decoder.md R204. -/
def frame (cap : Nat) (tfi : Byte) (f : List Byte) : Except Failure (List Byte) :=
  if f.length < 5 then .error .badFrameLength
  else
    match header cap f with
    | .error e => .error e
    | .ok len =>
      if f.length ≠ len.toNat + 7 then .error .badFrameLength
      else body tfi len (f.drop 5)

/-- ParseTarget: the UID, no target, or the first failure in the order of 45_parser.md R290. -/
def target (p : List Byte) (cap : Nat) : Except Failure (Option (List Byte)) :=
  let u := (p.getD 7 0).toNat
  if p.length < 3 then .error (.recordTruncated p.length)
  else if p.getD 2 0 = 0x00 then .ok none
  else if p.getD 2 0 ≠ 0x01 then .error (.targetCount (p.getD 2 0))
  else if p.length < 8 then .error (.recordTruncated p.length)
  else if u = 0 then .error .uidLenZero
  else if 8 + u > p.length then .error (.uidPastEnd (p.getD 7 0))
  else if u > cap then .error (.uidCapacity (p.getD 7 0))
  else .ok (some ((p.drop 8).take u))

end Sys2Proof.Verdicts
end

