-- ==== Sys2Proof/Certificates/Slice0/Obligations.lean ====
section
/-! DEFINITION. The statements for the provers. The entries of OBLIGATIONS.json say the same in words. -/

section

open Sys2Proof Sys2Proof.Machine
open Sys2Proof.Verdicts (total checksumOf)

/-! ### Encodings -/

/-- Every well-formed item of the table reads back from its own bytes on its own channel. -/
def Obligations.DecodeOfEncode : Prop :=
  ∀ i : Instr, i.WellFormed = true → decode i.channel (encode i) = .ok i

/-- Whatever the decoder reads is well formed, and its bytes are the ones that were read. -/
def Obligations.EncodeOfDecode : Prop :=
  ∀ (ch : Channel) (bs : List Byte) (i : Instr), decode ch bs = .ok i →
    i.WellFormed = true ∧ i.channel = ch ∧ encode i = bs

/-- 30_encoding.md R109: no request has an unassigned OPC or a length its fields do not imply, and a descriptor that is no
request's is refused, so that nothing is accepted. -/
def Obligations.ReservedDescriptorsRefused : Prop :=
  (∀ (opc : Byte) (fs : List Byte), opc = 0x00 ∨ (0x09 ≤ opc ∧ opc ≤ 0x0F) ∨ 0x14 ≤ opc →
    ∀ i : Instr, i.WellFormed = true → i.channel = .request → encode i ≠ opc :: fs) ∧
  (∀ i : Instr, i.WellFormed = true → i.channel = .request → (encode i).length = descriptorLength (encode i)) ∧
  (∀ (s : State) (d : List Byte) (rest : List (List Byte)), s.resetLine = false → s.busy = false →
    s.offered = d :: rest → (∀ i : Instr, i.WellFormed = true → i.channel = .request → encode i ≠ d) →
    ∃ why, step s = .refused (.badDescriptor why))

/-- Descriptors and frames written out byte by byte from 30_encoding.md decode to what they stand for. -/
def Obligations.WrittenOutBytesDecode : Prop :=
  decode .request [0x01, 0x00, 0x02, 0xD4, 0x02] = .ok (.checksum [0xD4, 0x02]) ∧
  decode .request [0x02, 0xE8, 0x00, 0x01, 0x18] = .ok (.verifyChecksum 0xE8 [0x18]) ∧
  decode .request [0x03, 0x4A, 0x00, 0x02, 0x01, 0x00] = .ok (.encodeFrame 0x4A [0x01, 0x00]) ∧
  decode .request [0x05, 0x00, 0x00, 0x00, 0xC8] = .ok (.pollReady 200) ∧
  decode .request [0x13, 0x00, 0x00, 0x03, 0xE8] = .ok (.readPassiveTargetA 1000) ∧
  decode .command [0x00, 0x00, 0xFF, 0x05, 0xFB, 0xD4, 0x14, 0x01, 0x14, 0x01, 0x02, 0x00] =
    .ok (.wireCmdSamConfiguration 0x01 0x14 0x01) ∧
  decode .response [0x01, 0x00, 0x00, 0xFF, 0x03, 0xFD, 0xD5, 0x4B, 0x00, 0xE0, 0x00] =
    .ok (.wireRspInListPassiveTarget 0x01 [0x00]) ∧
  decode .ack [0x01, 0x00, 0x00, 0xFF, 0x00, 0xFF, 0x00] = .ok (.wireAck 0x01) ∧
  decode .sample [0x01] = .ok .wireStatusReady ∧
  decode .sample [0x81] = .error .notInTable

/-- 44_dispatcher.md R249 to R254: the frames of the wire layer. -/
def Obligations.WireFrames : Prop :=
  encode .wireCmdGetFirmwareVersion = [0x00, 0x00, 0xFF, 0x02, 0xFE, 0xD4, 0x02, 0x2A, 0x00] ∧
  encode (.wireCmdSamConfiguration 0x01 0x14 0x01) =
    [0x00, 0x00, 0xFF, 0x05, 0xFB, 0xD4, 0x14, 0x01, 0x14, 0x01, 0x02, 0x00] ∧
  (∀ c : Config, sentFrame c 0x14 = encode (.wireCmdSamConfiguration c.samMode c.samTimeout c.samIrq)) ∧
  encode .wireCmdInListPassiveTarget = [0x00, 0x00, 0xFF, 0x04, 0xFC, 0xD4, 0x4A, 0x01, 0x00, 0xE1, 0x00] ∧
  (∀ st : Byte, encode (.wireRspGetFirmwareVersion st 0x32 0x01 0x06 0x07) =
    [st, 0x00, 0x00, 0xFF, 0x06, 0xFA, 0xD5, 0x03, 0x32, 0x01, 0x06, 0x07, 0xE8, 0x00]) ∧
  (∀ st : Byte, encode (.wireRspSamConfiguration st []) =
    [st, 0x00, 0x00, 0xFF, 0x02, 0xFE, 0xD5, 0x15, 0x16, 0x00]) ∧
  (∀ st : Byte, encode (.wireRspInListPassiveTarget st [0x01, 0x01, 0x00, 0x04, 0x08, 0x04, 0x01, 0x02, 0x03, 0x04]) =
    [st, 0x00, 0x00, 0xFF, 0x0C, 0xF4, 0xD5, 0x4B, 0x01, 0x01, 0x00, 0x04, 0x08, 0x04, 0x01, 0x02, 0x03, 0x04, 0xC4,
      0x00]) ∧
  (∀ st : Byte, encode (.wireRspInListPassiveTarget st [0x00]) =
    [st, 0x00, 0x00, 0xFF, 0x03, 0xFD, 0xD5, 0x4B, 0x00, 0xE0, 0x00])

/-! ### The step -/

/-- A step at a block with BUSY 0 takes the oldest descriptor off REQ and runs the operation it encodes; answers that have
come for abandoned calls are discarded first (`State.dropOwed`). -/
def Obligations.StepRunsRequest : Prop :=
  ∀ (s : State) (i : Instr) (rest : List (List Byte)), i.WellFormed = true → i.channel = .request →
    s.resetLine = false → s.resetOnAccept = false → s.busy = false → s.offered = encode i :: rest →
    step s = exec i { s.dropOwed with offered := rest } ∧ (s.owed = .nothing → s.dropOwed = s)

/-- A step at a block that waits for a call takes the wire item that answers it off the channel and runs that item; answers
that have come for abandoned calls are discarded first. -/
def Obligations.StepRunsWireItem : Prop :=
  ∀ (s : State) (i : Instr), i.WellFormed = true → s.resetLine = false → s.busy = true →
    (∀ (tc : Nat) (w : List Bool), i.channel = .command →
      s.outstanding = some ⟨.write (encode i) tc, .frameWritten⟩ → s.dropOwed.writeAnswers = true :: w →
      step s = exec i { s.dropOwed with writeAnswers := w }) ∧
    (∀ (tc : Nat) (rest : List RxToken), s.dropOwed.rx = stream (encode i) ++ rest →
      (i.channel = .sample ∧ s.outstanding = some ⟨.read 1 tc, .sampled⟩ ∨
        i.channel = .ack ∧ s.outstanding = some ⟨.read 7 tc, .ackArrived⟩ ∨
        i.channel = .response ∧ s.outstanding = some ⟨.read 6 tc, .headerArrived⟩) →
      step s = exec i { s.dropOwed with rx := rest })

/-- Running a wire item is the same as the block going on with the answers the item's bytes are: no wire byte selects an
operation (30_encoding.md R90). -/
def Obligations.WireItemIsItsBytes : Prop :=
  ∀ (s t : State) (i : Instr), s.busy = true → fetch s = .item i t → exec i t = advance s

/-- While BUSY is 1 a request stays offered and is not accepted (10_state.md R21): no step of the running operation takes
one, and exec of one then leaves its descriptor first on REQ and changes nothing else (the model's choice, log entry 9). -/
def Obligations.BusyKeepsRequestsOffered : Prop :=
  (∀ (s : State) (i : Instr), i.channel = .request → s.busy = true →
    exec i s = .next { s with offered := encode i :: s.offered }) ∧
  (∀ s t : State, s.Inv → s.busy = true → s.resetLine = false → step s = .next t →
    t.offered = s.offered ∧ ∃ new, t.events = s.events ++ new ∧ acceptances new = 0)

/-! ### Checksum -/

/-- 40_checksum.md R141. -/
def Obligations.ChecksumReplies : Prop :=
  ∀ (s : State) (bs : List Byte),
    encode (.checksum bs) = [0x01, BitVec.ofNat 8 (bs.length / 256), BitVec.ofNat 8 bs.length] ++ bs ∧
    (s.AtRest → exec (.checksum bs) s =
      .next { s with events := s.events ++ succeeded 0x01 [] 0x00 [BitVec.ofNat 8 (0x100 - total bs % 256)] })

/-- 40_checksum.md R142: a mismatch is a result, not an error. -/
def Obligations.VerifyChecksumReplies : Prop :=
  ∀ (s : State) (cs : Byte) (bs : List Byte),
    encode (.verifyChecksum cs bs) = [0x02, cs, BitVec.ofNat 8 (bs.length / 256), BitVec.ofNat 8 bs.length] ++ bs ∧
    (s.AtRest → exec (.verifyChecksum cs bs) s =
      .next { s with
        events := s.events ++ succeeded 0x02 [] 0x00 [if (total bs + cs.toNat) % 256 = 0 then 0x01 else 0x00] })

/-- 40_checksum.md R144: VERIFY_CHECKSUM answers 1 for the checksum and for no other byte. -/
def Obligations.ChecksumIsTheOnlyValidByte : Prop :=
  ∀ (s : State) (bs : List Byte) (c : Byte), s.AtRest →
    exec (.checksum bs) s = .next { s with events := s.events ++ succeeded 0x01 [] 0x00 [checksumOf bs] } ∧
    exec (.verifyChecksum c bs) s =
      .next { s with
        events := s.events ++ succeeded 0x02 [] 0x00 [if c = checksumOf bs then 0x01 else 0x00] }

/-- 40_checksum.md R145: one flipped bit, of the checksum byte or of the sequence, makes a valid pair invalid. -/
def Obligations.SingleBitFlipIsDetected : Prop :=
  ∀ (s : State) (bs : List Byte) (c : Byte) (k : Nat), s.AtRest → k < 8 → (total bs + c.toNat) % 256 = 0 →
    exec (.verifyChecksum (c ^^^ (1 <<< k)) bs) s =
      .next { s with events := s.events ++ succeeded 0x02 [] 0x00 [0x00] } ∧
    ∀ (n : Nat) (b : Byte), bs[n]? = some b →
      exec (.verifyChecksum c (bs.set n (b ^^^ (1 <<< k)))) s =
        .next { s with events := s.events ++ succeeded 0x02 [] 0x00 [0x00] }

/-- 40_checksum.md R146: the checksum does not see the order of the bytes, nor `+d` on one and `-d` on another. -/
def Obligations.ChecksumMissesSwaps : Prop :=
  ∀ (s : State) (bs : List Byte), s.AtRest →
    (∀ cs : List Byte, cs.Perm bs →
      exec (.checksum cs) s = .next { s with events := s.events ++ succeeded 0x01 [] 0x00 [checksumOf bs] }) ∧
    (∀ (n m : Nat) (a b d : Byte), n ≠ m → bs[n]? = some a → bs[m]? = some b →
      exec (.checksum ((bs.set n (a + d)).set m (b - d))) s =
        .next { s with events := s.events ++ succeeded 0x01 [] 0x00 [checksumOf bs] })

/-! ### Frame Encoder and Frame Decoder -/

/-- 42_encoder.md R180: the reply of ENCODE_FRAME, and what Encode writes. -/
def Obligations.EncodeFrameReplies : Prop :=
  ∀ (s : State) (cmd : Byte) (p : List Byte),
    encode (.encodeFrame cmd p) = [0x03, cmd, BitVec.ofNat 8 (p.length / 256), BitVec.ofNat 8 p.length] ++ p ∧
    (s.AtRest → exec (.encodeFrame cmd p) s =
      .next { s with
        events := s.events ++
          if p.length ≤ s.cfg.maxPayload then
            succeeded 0x03 [] 0x00
              ([0x00, 0x00, 0xFF, BitVec.ofNat 8 (p.length + 2), checksumOf [BitVec.ofNat 8 (p.length + 2)], 0xD4, cmd]
                ++ p ++ [checksumOf ([0xD4, cmd] ++ p), 0x00])
          else failedWith 0x03 [] .payloadTooLong .idle }) ∧
    (encodeInto cmd p).run s =
      if p.length ≤ s.cfg.maxPayload then
        .ok () { s with
          txbuf := writeBytes s.txbuf 0
            ([0x00, 0x00, 0xFF, BitVec.ofNat 8 (p.length + 2), checksumOf [BitVec.ofNat 8 (p.length + 2)], 0xD4, cmd]
              ++ p ++ [checksumOf ([0xD4, cmd] ++ p), 0x00])
          txlen := some (p.length + 9) }
      else .error (.raised .payloadTooLong) s

/-- 42_encoder.md R184: the shape of an encoded frame. -/
def Obligations.EncodedFrameShape : Prop :=
  ∀ (s : State) (cmd : Byte) (p : List Byte), s.AtRest → s.cfg.InRange → p.length ≤ s.cfg.maxPayload →
    ∃ f : List Byte,
      exec (.encodeFrame cmd p) s = .next { s with events := s.events ++ succeeded 0x03 [] 0x00 f } ∧
      f.length = p.length + 9 ∧ f.length = (f.getD 3 0).toNat + 7 ∧ f.take 3 = [0x00, 0x00, 0xFF] ∧
      f[5]? = some 0xD4 ∧ f[6]? = some cmd ∧ f.getLast? = some 0x00 ∧
      ((f.getD 3 0).toNat + (f.getD 4 0).toNat) % 256 = 0 ∧ total ((f.drop 5).take (p.length + 3)) % 256 = 0

/-- 43_decoder.md R205, with the checks in the order of R204 (`Verdicts.frame`): the reply of DECODE_FRAME, and what the
validation writes: RXBUF, RXLEN and PLEN on success; on a failure RXBUF and RXLEN if the
header and the length have passed, and else nothing. -/
def Obligations.DecodeFrameChecksInOrder : Prop :=
  ∀ (s : State) (tfi : Byte) (f : List Byte),
    encode (.decodeFrame tfi f) = [0x04, tfi, BitVec.ofNat 8 (f.length / 256), BitVec.ofNat 8 f.length] ++ f ∧
    (s.AtRest → exec (.decodeFrame tfi f) s =
      .next { s with
        events := s.events ++
          match Verdicts.frame s.cfg.rxBodyCap tfi f with
          | .ok p => succeeded 0x04 [] 0x00 p
          | .error e => failedWith 0x04 [] e .idle }) ∧
    match Verdicts.frame s.cfg.rxBodyCap tfi f with
    | .ok p => (decodeOperand tfi f).run s =
        .ok () { s with
          rxbuf := writeBytes s.rxbuf 0 (f.drop 5), rxlen := some (p.length + 2), plen := some (BitVec.ofNat 8 p.length) }
    | .error e =>
      (decodeOperand tfi f).run s = .error (.raised e)
        (match Verdicts.header s.cfg.rxBodyCap f with
        | .ok len =>
          if f.length = len.toNat + 7 then
            { s with rxbuf := writeBytes s.rxbuf 0 (f.drop 5), rxlen := some (len.toNat + 2) }
          else s
        | .error _ => s)

/-- 43_decoder.md R210: DECODE_FRAME recovers the code and the payload of what ENCODE_FRAME returns; with the default
parameters the second bound follows from the first. -/
def Obligations.DecodeFrameOfEncodeFrame : Prop :=
  (∀ (s : State) (cmd : Byte) (p : List Byte), s.AtRest → s.cfg.InRange → p.length ≤ s.cfg.maxPayload →
    p.length + 4 ≤ s.cfg.rxBodyCap →
    ∃ f : List Byte,
      exec (.encodeFrame cmd p) s = .next { s with events := s.events ++ succeeded 0x03 [] 0x00 f } ∧
      exec (.decodeFrame 0xD4 f) s =
        .next { s with events := s.events ++ succeeded 0x04 [] 0x00 ([0xD4, cmd] ++ p) }) ∧
  Config.default.rxBodyCap = Config.default.maxPayload + 4

/-- 43_decoder.md R211 for DECODE_FRAME: one flipped bit of the LCS or of the DCS of an accepted frame is always
rejected. -/
def Obligations.FlippedChecksumOfFrame : Prop :=
  ∀ (s : State) (tfi : Byte) (f p : List Byte) (k : Nat), s.AtRest → k < 8 →
    exec (.decodeFrame tfi f) s = .next { s with events := s.events ++ succeeded 0x04 [] 0x00 p } →
    exec (.decodeFrame tfi (f.set 4 (f.getD 4 0 ^^^ (1 <<< k)))) s =
      .next { s with
        events := s.events ++
          failedWith 0x04 [] (.badLcs (f.getD 3 0) (f.getD 4 0 ^^^ (1 <<< k))) .idle } ∧
    exec (.decodeFrame tfi (f.set (f.length - 2) (f.getD (f.length - 2) 0 ^^^ (1 <<< k)))) s =
      .next { s with
        events := s.events ++ failedWith 0x04 [] (.badDcs (f.getD (f.length - 2) 0 ^^^ (1 <<< k))) .idle }

/-- 43_decoder.md R211 for READ_RESPONSE: `f` is a response it accepts, `st` its status byte. -/
def Obligations.FlippedChecksumOfResponse : Prop :=
  ∀ (s : State) (st : Byte) (f p : List Byte) (es : List Event) (rest : List RxToken) (k : Nat), s.AtRest → k < 8 →
    exec .readResponse { s with rx := stream (st :: f) ++ rest } =
      .next { s with rx := rest, events := s.events ++ succeeded 0x07 es 0x00 p } →
    (∃ (r : List RxToken) (es' : List Event),
      exec .readResponse { s with rx := stream (st :: f.set 4 (f.getD 4 0 ^^^ (1 <<< k))) ++ rest } =
        .next { s with
          rx := r
          events := s.events ++
            failedWith 0x07 es' (.badLcs (f.getD 3 0) (f.getD 4 0 ^^^ (1 <<< k))) .idle }) ∧
    (∃ (r : List RxToken) (es' : List Event),
      exec .readResponse
          { s with rx := stream (st :: f.set (f.length - 2) (f.getD (f.length - 2) 0 ^^^ (1 <<< k))) ++ rest } =
        .next { s with
          rx := r
          events := s.events ++ failedWith 0x07 es' (.badDcs (f.getD (f.length - 2) 0 ^^^ (1 <<< k))) .idle })

/-- 43_decoder.md R201: the seven bytes of an ack read, or a read that fails; and what ReadAck writes. -/
def Obligations.ReadAckOutcomes : Prop :=
  encode .readAck = [0x06] ∧
  (∀ (s : State) (st : Byte) (a : List Byte), a.length = 6 →
    (ackArrived (.bytes (st :: a))).run s =
      if a = [0x00, 0x00, 0xFF, 0x00, 0xFF, 0x00] then .ok () { s with ackbuf := writeBytes s.ackbuf 0 (st :: a) }
      else .error (.raised (.ackMismatch a)) { s with ackbuf := writeBytes s.ackbuf 0 (st :: a) }) ∧
  ∀ (s : State) (rest : List RxToken), s.AtRest →
    (∀ (st : Byte) (a : List Byte), a.length = 6 → s.rx = stream (st :: a) ++ rest →
      exec .readAck s = .next { s with
        rx := rest
        events := s.events ++
          if a = [0x00, 0x00, 0xFF, 0x00, 0xFF, 0x00] then
            succeeded 0x06 [.call (.read 7 s.cfg.tCall) (.bytes (st :: a))] 0x00 []
          else failedWith 0x06 [.call (.read 7 s.cfg.tCall) (.bytes (st :: a))] (.ackMismatch a) .idle }) ∧
    (∀ bs : List Byte, bs.length < 7 → s.rx = stream bs ++ .fail :: rest →
      exec .readAck s = .next { s with
        rx := rest
        events := s.events ++ failedWith 0x06 [.call (.read 7 s.cfg.tCall) .readFailed] .readFailed .idle })

/-- 43_decoder.md R206: the header read `st :: h`, then, only if every header check passes (R207), the body read `b`; and
what ReadResponse writes. -/
def Obligations.ReadResponseOutcomes : Prop :=
  encode .readResponse = [0x07] ∧
  (∀ (s : State) (st : Byte) (h : List Byte), h.length = 5 →
    (headerArrived (.bytes (st :: h))).run s =
      match Verdicts.header s.cfg.rxBodyCap h with
      | .ok len => .ok () { s with
          hdrbuf := writeBytes s.hdrbuf 0 (st :: h)
          outstanding := some ⟨.read (len.toNat + 2) s.cfg.tCall, .bodyArrived len⟩ }
      | .error e => .error (.raised e) { s with hdrbuf := writeBytes s.hdrbuf 0 (st :: h) }) ∧
  (∀ (s : State) (len : Byte) (b : List Byte), b.length = len.toNat + 2 → b.length ≤ s.cfg.rxBodyCap →
    (bodyArrived len (.bytes b)).run s =
      match Verdicts.body 0xD5 len b with
      | .ok _ => .ok () { s with
          rxbuf := writeBytes s.rxbuf 0 b, rxlen := some (len.toNat + 2), plen := some len }
      | .error e => .error (.raised e) { s with rxbuf := writeBytes s.rxbuf 0 b, rxlen := some (len.toNat + 2) }) ∧
  ∀ (s : State) (rest : List RxToken), s.AtRest →
    (∀ bs : List Byte, bs.length < 6 → s.rx = stream bs ++ .fail :: rest →
      exec .readResponse s = .next { s with
        rx := rest
        events := s.events ++ failedWith 0x07 [.call (.read 6 s.cfg.tCall) .readFailed] .readFailed .idle }) ∧
    (∀ (st : Byte) (h : List Byte) (e : Failure), h.length = 5 → Verdicts.header s.cfg.rxBodyCap h = .error e →
      s.rx = stream (st :: h) ++ rest →
      exec .readResponse s = .next { s with
        rx := rest
        events := s.events ++ failedWith 0x07 [.call (.read 6 s.cfg.tCall) (.bytes (st :: h))] e .idle }) ∧
    (∀ (st : Byte) (h : List Byte) (len : Byte), h.length = 5 → Verdicts.header s.cfg.rxBodyCap h = .ok len →
      (∀ bs : List Byte, bs.length < len.toNat + 2 → s.rx = stream (st :: h) ++ (stream bs ++ .fail :: rest) →
        exec .readResponse s = .next { s with
          rx := rest
          events := s.events ++ failedWith 0x07
            [.call (.read 6 s.cfg.tCall) (.bytes (st :: h)), .call (.read (len.toNat + 2) s.cfg.tCall) .readFailed]
            .readFailed .idle }) ∧
      (∀ b : List Byte, b.length = len.toNat + 2 → s.rx = stream (st :: h) ++ (stream b ++ rest) →
        exec .readResponse s = .next { s with
          rx := rest
          events := s.events ++
            match Verdicts.body 0xD5 len b with
            | .ok p => succeeded 0x07
                [.call (.read 6 s.cfg.tCall) (.bytes (st :: h)), .call (.read (len.toNat + 2) s.cfg.tCall) (.bytes b)]
                0x00 p
            | .error e => failedWith 0x07
                [.call (.read 6 s.cfg.tCall) (.bytes (st :: h)), .call (.read (len.toNat + 2) s.cfg.tCall) (.bytes b)]
                e .idle }))

/-! ### Readiness Poller -/

/-- 41_poller.md R166: after the wait `w`, whose samples do not end the poll, the poll sees a ready sample, or a sample
that is not ready and a time at or past the bound, or a read that fails. -/
def Obligations.PollReadyOutcomes : Prop :=
  (∀ m : Millis, encode (.pollReady m) =
    [0x05, m.extractLsb' 24 8, m.extractLsb' 16 8, m.extractLsb' 8 8, m.extractLsb' 0 8]) ∧
  ∀ (s : State) (m : Millis) (w : Wait) (rest : List RxToken) (c : List Nat), s.AtRest → w.Within m →
    (s.clock = w.times ++ c → s.rx = stream (w.samples ++ [0x01]) ++ rest →
      exec (.pollReady m) s = .next { s with
        clock := c, rx := rest
        events := s.events ++ succeeded 0x05 (w.readyCalls s.cfg.tCall) 0x00 [] }) ∧
    (∀ (b : Byte) (t : Nat), b ≠ 0x01 → w.t0 + m.toNat ≤ t → s.clock = w.times ++ t :: c →
      s.rx = stream (w.samples ++ [b]) ++ rest →
      exec (.pollReady m) s = .next { s with
        clock := c, rx := rest
        events := s.events ++ failedWith 0x05 (w.lateCalls s.cfg.tCall b t) (.timeout b) .idle }) ∧
    (s.clock = w.times ++ c → s.rx = stream w.samples ++ .fail :: rest →
      exec (.pollReady m) s = .next { s with
        clock := c, rx := rest
        events := s.events ++
          failedWith 0x05 (w.calls s.cfg.tCall ++ [.call (.read 1 s.cfg.tCall) .readFailed]) .readFailed .idle })

/-- A poll whose samples are not ready and whose clock stays below the bound goes on asking, and emits nothing
(41_poller.md R165, 70_reset_and_hazards.md R361). -/
def Obligations.PollWaitsBelowItsBound : Prop :=
  ∀ (s : State) (m : Millis) (w : Wait), s.AtRest → w.Within m → s.clock = w.times → s.rx = stream w.samples →
    ∃ t : State, exec (.pollReady m) s = .next t ∧ t.busy = true ∧ t.phase = .idle ∧
      t.outstanding = some ⟨.read 1 s.cfg.tCall, .sampled⟩ ∧ t.clock = [] ∧ t.rx = [] ∧
      t.events = s.events ++ .accepted 0x05 :: w.calls s.cfg.tCall

/-! ### Target Record Parser -/

/-- 45_parser.md R290: the checks in their order (`Verdicts.target`); NoTarget is a result; UIDBUF and UIDLEN are written
only when every check has passed. -/
def Obligations.ParseTargetChecksInOrder : Prop :=
  ∀ (s : State) (cap : Byte) (p : List Byte),
    encode (.parseTarget cap p) = [0x08, cap, BitVec.ofNat 8 (p.length / 256), BitVec.ofNat 8 p.length] ++ p ∧
    (s.AtRest → exec (.parseTarget cap p) s =
      .next { s with
        events := s.events ++
          match Verdicts.target p cap.toNat with
          | .ok none => succeeded 0x08 [] 0x01 []
          | .ok (some uid) => succeeded 0x08 [] 0x00 uid
          | .error e => failedWith 0x08 [] e .idle }) ∧
    (parseTarget p (s.capacity .uid)).run s =
      match Verdicts.target p (s.capacity .uid) with
      | .ok none => .ok false s
      | .ok (some uid) => .ok true { s with
          uidbuf := writeBytes s.uidbuf 0 uid, uidlen := some (BitVec.ofNat 8 uid.length) }
      | .error e => .error (.raised e) s

/-! ### Command Dispatcher -/

/-- 44_dispatcher.md R245: a reply with code 0x03 and four data bytes gives the version tuple. -/
def Obligations.GetFirmwareVersionReturns : Prop :=
  encode .getFirmwareVersion = [0x11] ∧
  ∀ (s : State) (r : Reply) (w : List Bool) (rest : List RxToken) (c : List Nat) (ic ver rev sup : Byte),
    s.AtRest → s.cfg.InRange → r.Fits s.cfg 100 → r.rsp = 0x03 → r.data = [ic, ver, rev, sup] →
    s.writeAnswers = true :: w → s.rx = stream r.bytes ++ rest → s.clock = r.times ++ c →
    exec .getFirmwareVersion s = .next { s with
      writeAnswers := w, rx := rest, clock := c
      events := s.events ++ succeeded 0x11 (r.events s.cfg 0x02 ++ [.phase .done]) 0x00 [ic, ver, rev, sup] }

/-- 44_dispatcher.md R245 and R248: a version payload that is not six bytes ends GET_FIRMWARE_VERSION, and the wake command
of BEGIN, with BAD_PAYLOAD_SHAPE. -/
def Obligations.VersionPayloadShape : Prop :=
  ∀ (s : State) (i : Instr) (opc : Byte) (r : Reply) (w : List Bool) (rest : List RxToken) (c : List Nat),
    s.AtRest → s.cfg.InRange → i.opcode = some opc → firstCommand i = some 0x02 →
    r.Fits s.cfg 100 → r.rsp = 0x03 → r.data.length ≠ 4 →
    s.writeAnswers = true :: w → s.rx = stream r.bytes ++ rest → s.clock = r.times ++ c →
    exec i s = .next { s with
      writeAnswers := w, rx := rest, clock := c
      events := s.events ++ failedWith opc (r.events s.cfg 0x02)
        (.badPayloadShape (BitVec.ofNat 8 (r.data.length + 2))) .responsePending }

/-- 44_dispatcher.md R246: a reply with code 0x15 is success, whatever data it carries. -/
def Obligations.ConfigureSamSucceeds : Prop :=
  encode .configureSam = [0x12] ∧
  ∀ (s : State) (r : Reply) (w : List Bool) (rest : List RxToken) (c : List Nat),
    s.AtRest → s.cfg.InRange → r.Fits s.cfg 100 → r.rsp = 0x15 →
    s.writeAnswers = true :: w → s.rx = stream r.bytes ++ rest → s.clock = r.times ++ c →
    exec .configureSam s = .next { s with
      writeAnswers := w, rx := rest, clock := c
      events := s.events ++ succeeded 0x12 (r.events s.cfg 0x14 ++ [.phase .done]) 0x00 [] }

/-- 44_dispatcher.md R247: a reply with code 0x4B goes to the parser with the capacity UID_CAP; the response wait is the
caller's. -/
def Obligations.ReadPassiveTargetReturns : Prop :=
  (∀ m : Millis, encode (.readPassiveTargetA m) =
    [0x13, m.extractLsb' 24 8, m.extractLsb' 16 8, m.extractLsb' 8 8, m.extractLsb' 0 8]) ∧
  ∀ (s : State) (m : Millis) (r : Reply) (w : List Bool) (rest : List RxToken) (c : List Nat),
    s.AtRest → s.cfg.InRange → r.Fits s.cfg m → r.rsp = 0x4B →
    s.writeAnswers = true :: w → s.rx = stream r.bytes ++ rest → s.clock = r.times ++ c →
    exec (.readPassiveTargetA m) s = .next { s with
      writeAnswers := w, rx := rest, clock := c
      events := s.events ++
        match Verdicts.target ([0xD5, 0x4B] ++ r.data) s.cfg.uidCap with
        | .ok none => succeeded 0x13 (r.events s.cfg 0x4A ++ [.phase .done]) 0x01 []
        | .ok (some uid) => succeeded 0x13 (r.events s.cfg 0x4A ++ [.phase .done]) 0x00 uid
        | .error e => failedWith 0x13 (r.events s.cfg 0x4A) e .responsePending }

/-- 44_dispatcher.md R248: after a good reply to the wake command, BEGIN discards the wake command's state and runs
SAMConfiguration. Here are that command's success, its mismatch, its failed write, and the state in which BEGIN waits for the
write, which holds nothing of the wake command; OtherCodeIsMismatch to ResponseReadFailures have every failure of it. -/
def Obligations.BeginOutcomes : Prop :=
  encode .beginOp = [0x10] ∧
  ∀ (s : State) (r : Reply) (w : List Bool) (rest : List RxToken) (c : List Nat) (ic ver rev sup : Byte),
    s.AtRest → s.cfg.InRange → r.Fits s.cfg 100 → r.rsp = 0x03 → r.data = [ic, ver, rev, sup] →
    (∀ r' : Reply, r'.Fits s.cfg 100 → s.writeAnswers = true :: true :: w →
      s.rx = stream r.bytes ++ (stream r'.bytes ++ rest) → s.clock = r.times ++ (r'.times ++ c) →
      exec .beginOp s = .next { s with
        writeAnswers := w, rx := rest, clock := c
        events := s.events ++
          if r'.rsp = 0x15 then
            succeeded 0x10
              (r.events s.cfg 0x02 ++ [.phase .done, .phase .idle] ++ (r'.events s.cfg 0x14 ++ [.phase .done])) 0x00 []
          else
            failedWith 0x10 (r.events s.cfg 0x02 ++ [.phase .done, .phase .idle] ++ r'.events s.cfg 0x14)
              (.protocolMismatch r'.rsp) .responsePending }) ∧
    (s.writeAnswers = true :: false :: w → s.rx = stream r.bytes ++ rest → s.clock = r.times ++ c →
      exec .beginOp s = .next { s with
        writeAnswers := w, rx := rest, clock := c
        events := s.events ++
          failedWith 0x10 (r.events s.cfg 0x02 ++ [.phase .done, .phase .idle] ++ writing s.cfg 0x14 false)
            .writeFailed .encoded }) ∧
    (s.writeAnswers = [true] → s.rx = stream r.bytes ++ rest → s.clock = r.times ++ c →
      exec .beginOp s = .next { s with
        busy := true, curOp := some 0x10, operands := some .beginOp, phase := .encoded, cmd := some 0x14
        txbuf := writeBytes [] 0 (sentFrame s.cfg 0x14), txlen := some 12
        ackbuf := [], hdrbuf := [], rxbuf := [], rxlen := none, plen := none
        pollT0 := none, pollTmo := none, pollLast := none
        outstanding := some ⟨.write (sentFrame s.cfg 0x14) s.cfg.tCall, .frameWritten⟩
        writeAnswers := [], rx := rest, clock := c
        events := s.events ++
          .accepted 0x10 :: (r.events s.cfg 0x02 ++ [.phase .done, .phase .idle, .phase .encoded]) })

/-! The failures of an Exchange, for each command that a dispatcher operation sends: its first, and BEGIN's second (`Leads`),
which "then" ends BEGIN with "any exception of CONFIGURE_SAM" (44_dispatcher.md R248). -/

/-- 44_dispatcher.md R243: a valid response with another code than the command's plus one ends the command with
ProtocolMismatch, before any criterion of the command. -/
def Obligations.OtherCodeIsMismatch : Prop :=
  ∀ (s : State) (i : Instr) (opc cmd : Byte) (l : Lead) (b : Millis) (r : Reply) (w : List Bool) (rest : List RxToken)
      (c : List Nat),
    s.AtRest → s.cfg.InRange → i.opcode = some opc → Leads s.cfg i cmd l → responseBound (some i) = some b →
    r.Fits s.cfg b → r.rsp ≠ cmd + 1 →
    s.writeAnswers = l.writes ++ true :: w → s.rx = stream (l.bytes ++ r.bytes) ++ rest →
    s.clock = l.times ++ (r.times ++ c) →
    exec i s = .next { s with
      writeAnswers := w, rx := rest, clock := c
      events := s.events ++ failedWith opc (l.events ++ r.events s.cfg cmd) (.protocolMismatch r.rsp) .responsePending }

/-- 44_dispatcher.md R241: a failed write ends the command in phase `Encoded`, with no other call. -/
def Obligations.FailedWriteEndsCommand : Prop :=
  ∀ (s : State) (i : Instr) (opc cmd : Byte) (l : Lead) (w : List Bool) (rest : List RxToken) (c : List Nat),
    s.AtRest → s.cfg.InRange → i.opcode = some opc → Leads s.cfg i cmd l →
    s.writeAnswers = l.writes ++ false :: w → s.rx = stream l.bytes ++ rest → s.clock = l.times ++ c →
    exec i s = .next { s with
      writeAnswers := w, rx := rest, clock := c
      events := s.events ++ failedWith opc (l.events ++ writing s.cfg cmd false) .writeFailed .encoded }

/-- No acknowledgement within 50 ms ends the command in phase `AckPending` (41_poller.md R160, 00_scope.md R7); a failed
sample read does so too. -/
def Obligations.AckPollFailures : Prop :=
  ∀ (s : State) (i : Instr) (opc cmd : Byte) (l : Lead) (v : Wait) (w : List Bool) (rest : List RxToken)
      (c : List Nat),
    s.AtRest → s.cfg.InRange → i.opcode = some opc → Leads s.cfg i cmd l → s.writeAnswers = l.writes ++ true :: w →
    v.Within 50 →
    (∀ (b : Byte) (t : Nat), b ≠ 0x01 → v.t0 + 50 ≤ t → s.rx = stream (l.bytes ++ v.samples ++ [b]) ++ rest →
      s.clock = l.times ++ (v.times ++ t :: c) →
      exec i s = .next { s with
        writeAnswers := w, rx := rest, clock := c
        events := s.events ++
          failedWith opc (l.events ++ written s.cfg cmd ++ v.lateCalls s.cfg.tCall b t) (.timeout b) .ackPending }) ∧
    (s.rx = stream (l.bytes ++ v.samples) ++ .fail :: rest → s.clock = l.times ++ (v.times ++ c) →
      exec i s = .next { s with
        writeAnswers := w, rx := rest, clock := c
        events := s.events ++
          failedWith opc
            (l.events ++ written s.cfg cmd ++ v.calls s.cfg.tCall ++ [.call (.read 1 s.cfg.tCall) .readFailed])
            .readFailed .ackPending })

/-- A wrong acknowledgement, or a failed read of it, ends the command in phase `AckPending` (43_decoder.md R201). -/
def Obligations.AckReadFailures : Prop :=
  ∀ (s : State) (i : Instr) (opc cmd : Byte) (l : Lead) (v : Wait) (w : List Bool) (rest : List RxToken)
      (c : List Nat),
    s.AtRest → s.cfg.InRange → i.opcode = some opc → Leads s.cfg i cmd l → s.writeAnswers = l.writes ++ true :: w →
    v.Within 50 → s.clock = l.times ++ (v.times ++ c) →
    (∀ (st : Byte) (a : List Byte), a.length = 6 → a ≠ [0x00, 0x00, 0xFF, 0x00, 0xFF, 0x00] →
      s.rx = stream (l.bytes ++ v.samples ++ [0x01] ++ st :: a) ++ rest →
      exec i s = .next { s with
        writeAnswers := w, rx := rest, clock := c
        events := s.events ++
          failedWith opc
            (l.events ++ written s.cfg cmd ++ v.readyCalls s.cfg.tCall ++
              [.call (.read 7 s.cfg.tCall) (.bytes (st :: a))])
            (.ackMismatch a) .ackPending }) ∧
    (∀ bs : List Byte, bs.length < 7 → s.rx = stream (l.bytes ++ v.samples ++ [0x01] ++ bs) ++ .fail :: rest →
      exec i s = .next { s with
        writeAnswers := w, rx := rest, clock := c
        events := s.events ++
          failedWith opc
            (l.events ++ written s.cfg cmd ++ v.readyCalls s.cfg.tCall ++ [.call (.read 7 s.cfg.tCall) .readFailed])
            .readFailed .ackPending })

/-- No response within the bound ends the command in phase `ResponsePending`: 100 ms, or the caller's for
READ_PASSIVE_TARGET_A (44_dispatcher.md R240); a failed sample read does so too. -/
def Obligations.ResponsePollFailures : Prop :=
  ∀ (s : State) (i : Instr) (opc cmd : Byte) (l : Lead) (m : Millis) (a : Acked) (v : Wait) (w : List Bool)
      (rest : List RxToken) (c : List Nat),
    s.AtRest → s.cfg.InRange → i.opcode = some opc → Leads s.cfg i cmd l → responseBound (some i) = some m →
    s.writeAnswers = l.writes ++ true :: w → a.wait.Within 50 → v.Within m →
    (∀ (b : Byte) (t : Nat), b ≠ 0x01 → v.t0 + m.toNat ≤ t →
      s.rx = stream (l.bytes ++ a.bytes ++ (v.samples ++ [b])) ++ rest →
      s.clock = l.times ++ (a.wait.times ++ (v.times ++ t :: c)) →
      exec i s = .next { s with
        writeAnswers := w, rx := rest, clock := c
        events := s.events ++
          failedWith opc (l.events ++ a.events s.cfg cmd ++ v.lateCalls s.cfg.tCall b t) (.timeout b) .responsePending }) ∧
    (s.rx = stream (l.bytes ++ a.bytes ++ v.samples) ++ .fail :: rest →
      s.clock = l.times ++ (a.wait.times ++ (v.times ++ c)) →
      exec i s = .next { s with
        writeAnswers := w, rx := rest, clock := c
        events := s.events ++
          failedWith opc
            (l.events ++ a.events s.cfg cmd ++ v.calls s.cfg.tCall ++ [.call (.read 1 s.cfg.tCall) .readFailed])
            .readFailed .responsePending })

/-- A response that fails a check of 43_decoder.md R204, or whose read fails, ends the command in phase `ResponsePending`
with that failure; a header that fails leads to no body read (R207). -/
def Obligations.ResponseReadFailures : Prop :=
  ∀ (s : State) (i : Instr) (opc cmd : Byte) (l : Lead) (m : Millis) (a : Acked) (v : Wait) (w : List Bool)
      (rest : List RxToken) (c : List Nat),
    s.AtRest → s.cfg.InRange → i.opcode = some opc → Leads s.cfg i cmd l → responseBound (some i) = some m →
    s.writeAnswers = l.writes ++ true :: w → a.wait.Within 50 → v.Within m →
    s.clock = l.times ++ (a.wait.times ++ (v.times ++ c)) →
    (∀ bs : List Byte, bs.length < 6 →
      s.rx = stream (l.bytes ++ a.bytes ++ (v.samples ++ [0x01] ++ bs)) ++ .fail :: rest →
      exec i s = .next { s with
        writeAnswers := w, rx := rest, clock := c
        events := s.events ++
          failedWith opc
            (l.events ++ a.events s.cfg cmd ++ v.readyCalls s.cfg.tCall ++ [.call (.read 6 s.cfg.tCall) .readFailed])
            .readFailed .responsePending }) ∧
    (∀ (st : Byte) (h : List Byte) (e : Failure), h.length = 5 → Verdicts.header s.cfg.rxBodyCap h = .error e →
      s.rx = stream (l.bytes ++ a.bytes ++ (v.samples ++ [0x01] ++ st :: h)) ++ rest →
      exec i s = .next { s with
        writeAnswers := w, rx := rest, clock := c
        events := s.events ++
          failedWith opc
            (l.events ++ a.events s.cfg cmd ++ v.readyCalls s.cfg.tCall ++
              [.call (.read 6 s.cfg.tCall) (.bytes (st :: h))])
            e .responsePending }) ∧
    (∀ (st : Byte) (h : List Byte) (len : Byte), h.length = 5 → Verdicts.header s.cfg.rxBodyCap h = .ok len →
      (∀ bs : List Byte, bs.length < len.toNat + 2 →
        s.rx = stream (l.bytes ++ a.bytes ++ (v.samples ++ [0x01] ++ st :: h) ++ bs) ++ .fail :: rest →
        exec i s = .next { s with
          writeAnswers := w, rx := rest, clock := c
          events := s.events ++
            failedWith opc
              (l.events ++ a.events s.cfg cmd ++ v.readyCalls s.cfg.tCall ++
                [.call (.read 6 s.cfg.tCall) (.bytes (st :: h)), .call (.read (len.toNat + 2) s.cfg.tCall) .readFailed])
              .readFailed .responsePending }) ∧
      (∀ (b : List Byte) (e : Failure), b.length = len.toNat + 2 → Verdicts.body 0xD5 len b = .error e →
        s.rx = stream (l.bytes ++ a.bytes ++ (v.samples ++ [0x01] ++ st :: h) ++ b) ++ rest →
        exec i s = .next { s with
          writeAnswers := w, rx := rest, clock := c
          events := s.events ++
            failedWith opc
              (l.events ++ a.events s.cfg cmd ++ v.readyCalls s.cfg.tCall ++
                [.call (.read 6 s.cfg.tCall) (.bytes (st :: h)), .call (.read (len.toNat + 2) s.cfg.tCall) (.bytes b)])
              e .responsePending }))

/-! ### The wire layer -/

/-- A command frame goes out where the block is writing it: Exchange goes to AckPending and asks for the time of its ack
poll (44_dispatcher.md R241, R249 to R251). -/
def Obligations.WireCommandStartsAckPoll : Prop :=
  ∀ (s : State) (i : Instr) (tc : Nat), i.channel = .command →
    s.outstanding = some ⟨.write (encode i) tc, .frameWritten⟩ → s.clock = [] →
    exec i s = .next { s with
      phase := .ackPending, pollTmo := some 50, outstanding := some ⟨.clock, .pollStarted⟩
      events := s.events ++
        [.call (.write (encode i) tc) (.written true), .phase .transmitted, .phase .ackPending] }

/-- Where the block is not writing that frame, no command frame goes out (44_dispatcher.md R240): the event is refused. -/
def Obligations.WireCommandElsewhereRefused : Prop :=
  ∀ (s : State) (i : Instr), i.channel = .command →
    (∀ (tc : Nat) (k : Resume), s.outstanding ≠ some ⟨.write (encode i) tc, k⟩) → exec i s = .refused .frameNotSent

/-- An ack frame ends a READ_ACK, and takes an Exchange in its ack read to its response poll (43_decoder.md R201,
44_dispatcher.md R241). -/
def Obligations.WireAckAccepted : Prop :=
  ∀ (s : State) (st : Byte) (tc : Nat), s.outstanding = some ⟨.read 7 tc, .ackArrived⟩ →
    (s.phase = .idle →
      exec (.wireAck st) s = .next { s.cleared with
        events := s.events ++
          [.call (.read 7 tc) (.bytes [st, 0x00, 0x00, 0xFF, 0x00, 0xFF, 0x00]), .result (successMsg 0x00 []),
            .phase .idle] }) ∧
    (∀ m : Millis, s.phase = .ackPending → responseBound s.operands = some m → s.clock = [] →
      exec (.wireAck st) s = .next { s with
        ackbuf := writeBytes s.ackbuf 0 [st, 0x00, 0x00, 0xFF, 0x00, 0xFF, 0x00]
        phase := .responsePending, pollTmo := some m, outstanding := some ⟨.clock, .pollStarted⟩
        events := s.events ++
          [.call (.read 7 tc) (.bytes [st, 0x00, 0x00, 0xFF, 0x00, 0xFF, 0x00]), .phase .ackOk,
            .phase .responsePending] })

/-- A ready sample ends a POLL_READY, and makes an Exchange read its ack or its response; no clock query follows it
(41_poller.md R161, R162). -/
def Obligations.WireReadyEndsPoll : Prop :=
  ∀ (s : State) (tc : Nat), s.outstanding = some ⟨.read 1 tc, .sampled⟩ →
    (s.phase = .idle →
      exec .wireStatusReady s = .next { s.cleared with
        events := s.events ++ [sampleCall tc 0x01, .result (successMsg 0x00 []), .phase .idle] }) ∧
    (s.phase = .ackPending → s.rx = [] →
      exec .wireStatusReady s = .next { s with
        pollLast := some 0x01, outstanding := some ⟨.read 7 s.cfg.tCall, .ackArrived⟩
        events := s.events ++ [sampleCall tc 0x01] }) ∧
    (s.phase = .responsePending → s.rx = [] →
      exec .wireStatusReady s = .next { s with
        pollLast := some 0x01, outstanding := some ⟨.read 6 s.cfg.tCall, .headerArrived⟩
        events := s.events ++ [sampleCall tc 0x01] })

/-- A response frame that meets a READ_RESPONSE ends it with the validated payload, whichever command it answers
(43_decoder.md R206, R208). -/
def Obligations.WireResponseEndsReadResponse : Prop :=
  ∀ (s : State) (i : Instr) (st rsp : Byte) (d : List Byte) (tc : Nat), i.WellFormed = true →
    i = .wireRspGetFirmwareVersion st (d.getD 0 0) (d.getD 1 0) (d.getD 2 0) (d.getD 3 0) ∧ rsp = 0x03 ∧ d.length = 4 ∨
      i = .wireRspSamConfiguration st d ∧ rsp = 0x15 ∨ i = .wireRspInListPassiveTarget st d ∧ rsp = 0x4B →
    d.length + 4 ≤ s.cfg.rxBodyCap → s.outstanding = some ⟨.read 6 tc, .headerArrived⟩ → s.phase = .idle →
    exec i s = .next { s.cleared with
      events := s.events ++
        [.call (.read 6 tc) (.bytes (st :: responseHead d.length)),
          .call (.read (d.length + 4) s.cfg.tCall) (.bytes (responseBody rsp d)),
          .result (successMsg 0x00 ([0xD5, rsp] ++ d)), .phase .idle] }

/-- A response frame that meets its own command in its response read ends the command with its result (44_dispatcher.md
R245 to R248). The wake command of BEGIN ends with its state discarded, whatever it was, and the SAMConfiguration frame in
TXBUF waiting for its write; BEGIN's second command ends BEGIN (R248). -/
def Obligations.WireResponseEndsCommand : Prop :=
  ∀ (s : State) (st : Byte) (tc : Nat), s.cfg.InRange → s.outstanding = some ⟨.read 6 tc, .headerArrived⟩ →
    s.phase = .responsePending →
    (∀ ic ver rev sup : Byte, s.operands = some .getFirmwareVersion → s.cmd = some 0x02 →
      exec (.wireRspGetFirmwareVersion st ic ver rev sup) s = .next { s.cleared with
        events := s.events ++
          [.call (.read 6 tc) (.bytes [st, 0x00, 0x00, 0xFF, 0x06, 0xFA]),
            .call (.read 8 s.cfg.tCall) (.bytes (responseBody 0x03 [ic, ver, rev, sup])), .phase .done,
            .result (successMsg 0x00 [ic, ver, rev, sup]), .phase .idle] }) ∧
    (∀ ic ver rev sup : Byte, s.operands = some .beginOp → s.cmd = some 0x02 → s.writeAnswers = [] →
      exec (.wireRspGetFirmwareVersion st ic ver rev sup) s = .next { s with
        phase := .encoded, cmd := some 0x14
        txbuf := writeBytes [] 0 (sentFrame s.cfg 0x14), txlen := some 12
        ackbuf := [], hdrbuf := [], rxbuf := [], rxlen := none, plen := none
        pollT0 := none, pollTmo := none, pollLast := none
        outstanding := some ⟨.write (sentFrame s.cfg 0x14) s.cfg.tCall, .frameWritten⟩
        events := s.events ++
          [.call (.read 6 tc) (.bytes [st, 0x00, 0x00, 0xFF, 0x06, 0xFA]),
            .call (.read 8 s.cfg.tCall) (.bytes (responseBody 0x03 [ic, ver, rev, sup])), .phase .done, .phase .idle,
            .phase .encoded] }) ∧
    (∀ d : List Byte, s.operands = some .configureSam ∨ s.operands = some .beginOp → s.cmd = some 0x14 →
      d.length ≤ 253 →
      d.length + 4 ≤ s.cfg.rxBodyCap →
      exec (.wireRspSamConfiguration st d) s = .next { s.cleared with
        events := s.events ++
          [.call (.read 6 tc) (.bytes (st :: responseHead d.length)),
            .call (.read (d.length + 4) s.cfg.tCall) (.bytes (responseBody 0x15 d)), .phase .done,
            .result (successMsg 0x00 []), .phase .idle] }) ∧
    (∀ (m : Millis) (d : List Byte), s.operands = some (.readPassiveTargetA m) → s.cmd = some 0x4A → d.length ≤ 253 →
      d.length + 4 ≤ s.cfg.rxBodyCap →
      exec (.wireRspInListPassiveTarget st d) s = .next { s.cleared with
        events := s.events ++
          ([.call (.read 6 tc) (.bytes (st :: responseHead d.length)),
            .call (.read (d.length + 4) s.cfg.tCall) (.bytes (responseBody 0x4B d))] ++
          match Verdicts.target ([0xD5, 0x4B] ++ d) s.cfg.uidCap with
          | .ok none => [.phase .done, .result (successMsg 0x01 []), .phase .idle]
          | .ok (some uid) => [.phase .done, .result (successMsg 0x00 uid), .phase .idle]
          | .error e => [.phase .failed, .result (failureMsg e .responsePending), .phase .idle]) })

/-! ### The whole block -/

/-- The block right after reset has the invariant. -/
def Obligations.InvariantAtReset : Prop := State.reset.Inv

/-- Every step keeps the invariant, and writes no parameter of the configuration (10_state.md R27). -/
def Obligations.StepKeepsInvariant : Prop :=
  ∀ s t : State, s.Inv → step s = .next t → t.Inv ∧ t.cfg = s.cfg

/-- No step from a state with the invariant reads an element that holds no value or goes outside a buffer (00_scope.md
R12, 20_memory.md R61). -/
def Obligations.StepNeverFaults : Prop :=
  ∀ s : State, s.Inv → SafeStep s

/-- A step is refused only for the oldest descriptor on REQ, which spells no operation (30_encoding.md R109), and the reason
is the decoder's. -/
def Obligations.StepRefusesOnlyDescriptors : Prop :=
  ∀ (s : State) (r : Refusal), s.Inv → step s = .refused r →
    s.busy = false ∧ s.resetLine = false ∧
      ∃ (d : List Byte) (rest : List (List Byte)) (why : DecodeError),
        s.offered = d :: rest ∧ decode .request d = .error why ∧ r = .badDescriptor why ∧
        ∀ i : Instr, i.WellFormed = true → i.channel = .request → encode i ≠ d

/-- Every move of PHASE in a step is in the table of 44_dispatcher.md R242, or is the Idle that ends a component operation
whose PHASE is Idle (10_state.md R32, R43; that this is recorded as a move is log entry 19); and CUR_OP is the OPC of the
operation that is then in flight (10_state.md R31). -/
def Obligations.PhaseFollowsTransitions : Prop :=
  ∀ s t : State, s.Inv → step s = .next t →
    ∃ new, t.events = s.events ++ new ∧ s.track.follow new = some t.track

/-- Each accepted request gets exactly one RES message, when its operation ends (10_state.md R22): over a step with no
reset, an operation in flight before and the acceptances balance the RES messages and an operation in flight after. -/
def Obligations.OneResultPerRequest : Prop :=
  ∀ s t : State, s.Inv → s.resetLine = false → s.resetOnAccept = false → step s = .next t →
    ∃ new, t.events = s.events ++ new ∧
      (if s.busy then 1 else 0) + acceptances new = results new + (if t.busy then 1 else 0)

/-- Which operation can end with which RES message (60_exceptions.md R312, R313): for the operation in flight, and for a
request that is accepted. -/
def Obligations.OnlyListedResults : Prop :=
  (∀ (s t : State) (i : Instr), s.Inv → s.busy = true → s.operands = some i → step s = .next t →
    ∃ new, t.events = s.events ++ new ∧ ∀ m, Event.result m ∈ new → mayAnswer i m) ∧
  (∀ (s t : State) (i : Instr), s.Inv → s.busy = false → i.channel = .request → exec i s = .next t →
    ∃ new, t.events = s.events ++ new ∧ ∀ m, Event.result m ∈ new → mayAnswer i m)

/-- A step leaves no answered call unprocessed: the block is at rest, or it waits for a call that has not been answered
(70_reset_and_hazards.md R361; that a step runs that far is log entries 5 and 6). A block at rest may still have requests on
REQ, and accepts the oldest at its next step. -/
def Obligations.StepEndsAtRestOrWaiting : Prop :=
  ∀ s t : State, s.Inv → step s = .next t →
    turn t = none ∧ (t.AtRest ∨ ∃ o, t.outstanding = some o ∧ answerOf o.call t = none)

/-- A step takes answers off the front of the channels and puts nothing back (20_memory.md R62). -/
def Obligations.ChannelsOnlyShrink : Prop :=
  ∀ s t : State, s.Inv → step s = .next t →
    t.rx <:+ s.rx ∧ t.clock <:+ s.clock ∧ t.writeAnswers <:+ s.writeAnswers

/-- The response phase begins only with the ack sentinel (20_memory.md R73, 70_reset_and_hazards.md R355): an answer that
moves PHASE to `AckOk` is a read of seven bytes, the last six the sentinel. -/
def Obligations.AckOkOnlyAfterSentinel : Prop :=
  ∀ (s t : State) (new : List Event), s.Inv → turn s = some (.next t) → t.events = s.events ++ new →
    Event.phase .ackOk ∈ new →
    s.phase = .ackPending ∧
      ∃ st : Byte, Event.call (.read 7 s.cfg.tCall) (.bytes [st, 0x00, 0x00, 0xFF, 0x00, 0xFF, 0x00]) ∈ new

/-- 70_reset_and_hazards.md R350: a reset the host applies abandons the operation in flight; with the channels rid of what
answers earlier abandoned calls (`State.dropOwed`), it takes off them only the answer to the outstanding call. -/
def Obligations.ResetAbandonsOperation : Prop :=
  ∀ s : State, s.resetLine = true →
    ∃ t : State, step s = .next t ∧ t.AtRest ∧ t.busy = false ∧ t.phase = .idle ∧ t.operands = none ∧
      t.outstanding = none ∧ t.cfg = s.cfg ∧ t.offered = s.offered ∧ t.resetLine = false ∧
      t.resetOnAccept = s.resetOnAccept ∧ t.events = s.events ++ [.reset] ∧
      (s.outstanding = none →
        t.rx = s.dropOwed.rx ∧ t.clock = s.dropOwed.clock ∧ t.writeAnswers = s.dropOwed.writeAnswers ∧
          t.owed = s.dropOwed.owed) ∧
      (∀ (c : Call) (k : Resume) (a : Answer) (u : State), s.outstanding = some ⟨c, k⟩ → s.owed = .nothing →
        answerOf c s = some (a, u) →
        t.rx = u.rx ∧ t.clock = u.clock ∧ t.writeAnswers = u.writeAnswers ∧ t.owed = .nothing)

/-- 70_reset_and_hazards.md R350, "at any time": a reset right after the acceptance of a request abandons its operation
before anything it does, also one that makes no call. -/
def Obligations.ResetOnAcceptAbandonsRequest : Prop :=
  ∀ (s : State) (i : Instr) (opc : Byte) (rest : List (List Byte)), i.WellFormed = true → i.opcode = some opc →
    s.AtRest → s.resetLine = false → s.resetOnAccept = true → s.offered = encode i :: rest →
    step s = .next { s.dropOwed with
      offered := rest, resetOnAccept := false, events := s.events ++ [.accepted opc, .reset] }

/-- 70_reset_and_hazards.md R350: the answer to an abandoned call, if it comes, is discarded. Where it comes, and what arrives
on the channels after a reset (`w`, `r`, `c`) completes it, the channels then lack exactly that answer and nothing is owed;
whatever arrives, it leaves the block as if it had arrived before the reset. The block discards what is owed before it looks
at a channel. Where the answer does not come, nothing more is owed for the call. (The record of what is owed is the model's:
log entry 13.) -/
def Obligations.LateAnswersAreDiscarded : Prop :=
  (∀ (s u : State) (w : List Bool) (r : List RxToken) (c : List Nat) (call : Call) (k : Resume) (a : Answer),
    s.lateAnswer = true → s.owed = .nothing → s.outstanding = some ⟨call, k⟩ →
    answerOf call { s with writeAnswers := s.writeAnswers ++ w, rx := s.rx ++ r, clock := s.clock ++ c } =
      some (a, u) →
    ({ s.applyReset with
        writeAnswers := s.applyReset.writeAnswers ++ w, rx := s.applyReset.rx ++ r
        clock := s.applyReset.clock ++ c } : State).dropOwed =
      { s.applyReset with writeAnswers := u.writeAnswers, rx := u.rx, clock := u.clock, owed := .nothing }) ∧
  (∀ (s : State) (w : List Bool) (r : List RxToken) (c : List Nat), s.lateAnswer = true →
    ({ s.applyReset with
        writeAnswers := s.applyReset.writeAnswers ++ w, rx := s.applyReset.rx ++ r
        clock := s.applyReset.clock ++ c } : State).dropOwed =
      ({ s with writeAnswers := s.writeAnswers ++ w, rx := s.rx ++ r, clock := s.clock ++ c } : State).applyReset) ∧
  (∀ s : State, s.lateAnswer = false → s.applyReset.owed = s.dropOwed.owed) ∧
  (∀ s : State, step s = step s.dropOwed)

/-- 10_state.md R44 and 70_reset_and_hazards.md R351: the values after reset; the block then does nothing until a request
is offered, but that the late answer to an abandoned call is discarded (`State.dropOwed`; log entry 13). -/
def Obligations.ResetValues : Prop :=
  State.reset.busy = false ∧ State.reset.phase = .idle ∧ State.reset.phase.code = 0 ∧ State.reset.curOp = none ∧
  State.reset.cmd = none ∧ State.reset.txbuf = [] ∧ State.reset.txlen = none ∧ State.reset.ackbuf = [] ∧
  State.reset.hdrbuf = [] ∧ State.reset.rxbuf = [] ∧ State.reset.rxlen = none ∧ State.reset.plen = none ∧
  State.reset.pollT0 = none ∧ State.reset.pollTmo = none ∧ State.reset.pollLast = none ∧ State.reset.uidbuf = [] ∧
  State.reset.uidlen = none ∧ State.reset.events = [] ∧
  (∀ s : State, s.AtRest → s.resetLine = false → s.offered = [] →
    step s = .next s.dropOwed ∧ (s.owed = .nothing → s.dropOwed = s))

/-- 60_exceptions.md R310 and R311, 10_state.md R32: the bytes of every RES message and the code of every phase. -/
def Obligations.ResultCodes : Prop :=
  (∀ (st : Byte) (d : List Byte), successMsg st d = ⟨st, 0x00, .idle, d⟩) ∧
  (∀ e : Failure, e.status.msb = true) ∧
  (∀ (p : Phase) (x y : Byte) (l : List Byte) (n : Nat),
    failureMsg .writeFailed p = ⟨0x80, 0x01, p, []⟩ ∧ failureMsg .readFailed p = ⟨0x80, 0x02, p, []⟩ ∧
    failureMsg (.timeout x) p = ⟨0x81, 0x00, p, [x]⟩ ∧ failureMsg (.ackMismatch l) p = ⟨0x82, 0x01, p, l⟩ ∧
    failureMsg (.badStart l) p = ⟨0x82, 0x02, p, l⟩ ∧ failureMsg (.badLcs x y) p = ⟨0x82, 0x03, p, [x, y]⟩ ∧
    failureMsg (.badPostamble x) p = ⟨0x82, 0x04, p, [x]⟩ ∧ failureMsg (.lenTooShort x) p = ⟨0x82, 0x05, p, [x]⟩ ∧
    failureMsg (.badTfi x) p = ⟨0x82, 0x06, p, [x]⟩ ∧ failureMsg (.badDcs x) p = ⟨0x82, 0x07, p, [x]⟩ ∧
    failureMsg (.badPayloadShape x) p = ⟨0x82, 0x08, p, [x]⟩ ∧ failureMsg (.targetCount x) p = ⟨0x82, 0x09, p, [x]⟩ ∧
    failureMsg (.recordTruncated n) p = ⟨0x82, 0x0A, p, [BitVec.ofNat 8 n]⟩ ∧
    failureMsg .uidLenZero p = ⟨0x82, 0x0B, p, []⟩ ∧ failureMsg (.uidPastEnd x) p = ⟨0x82, 0x0C, p, [x]⟩ ∧
    failureMsg .badFrameLength p = ⟨0x82, 0x0D, p, []⟩ ∧ failureMsg (.protocolMismatch x) p = ⟨0x83, 0x00, p, [x]⟩ ∧
    failureMsg .payloadTooLong p = ⟨0x84, 0x01, p, []⟩ ∧ failureMsg (.rxOverflow x) p = ⟨0x84, 0x02, p, [x]⟩ ∧
    failureMsg (.uidCapacity x) p = ⟨0x84, 0x03, p, [x]⟩) ∧
  Phase.code .idle = 0 ∧ Phase.code .encoded = 1 ∧ Phase.code .transmitted = 2 ∧ Phase.code .ackPending = 3 ∧
  Phase.code .ackOk = 4 ∧ Phase.code .responsePending = 5 ∧ Phase.code .done = 6 ∧ Phase.code .failed = 7

/-- 10_state.md R43, 60_exceptions.md R314: what an operation leaves when it has emitted its RES message, what it emits, and
what it does not touch. -/
def Obligations.EndLeavesNoValue : Prop :=
  (∀ (s : State) (st : Byte) (d : List Byte),
    (s.succeed st d).events = s.events ++ [.result (successMsg st d), .phase .idle]) ∧
  (∀ (s : State) (e : Failure),
    (s.fail e).events = s.events ++ [.phase .failed, .result (failureMsg e s.phase), .phase .idle]) ∧
  ∀ (s t : State), (∃ (st : Byte) (d : List Byte), t = s.succeed st d) ∨ (∃ e : Failure, t = s.fail e) →
    t.AtRest ∧ t.busy = false ∧ t.phase = .idle ∧ t.curOp = none ∧ t.cmd = none ∧ t.txbuf = [] ∧ t.txlen = none ∧
    t.ackbuf = [] ∧ t.hdrbuf = [] ∧ t.rxbuf = [] ∧ t.rxlen = none ∧ t.plen = none ∧ t.pollT0 = none ∧
    t.pollTmo = none ∧ t.pollLast = none ∧ t.uidbuf = [] ∧ t.uidlen = none ∧
    t.cfg = s.cfg ∧ t.offered = s.offered ∧ t.writeAnswers = s.writeAnswers ∧ t.rx = s.rx ∧ t.clock = s.clock

/-- 20_memory.md R61: a write inside a buffer changes the bytes it writes and no other, and reads back; an access outside
the buffer, or a read of a byte that holds no value, faults. -/
def Obligations.BufferAccesses : Prop :=
  ∀ (s : State) (b : Buffer) (i : Nat) (v : List Byte),
    (i + v.length ≤ s.capacity b →
      ∃ t : State, (memWrite b i v).run s = .ok () t ∧ (memRead b i v.length).run t = .ok v t ∧
        (∀ x, x < i ∨ i + v.length ≤ x → readByte (t.buffer b) x = readByte (s.buffer b) x) ∧
        (∀ c, c ≠ b → t.buffer c = s.buffer c) ∧ ((s.buffer b).wf → (t.buffer b).wf)) ∧
    (s.capacity b < i + v.length → (memWrite b i v).run s = .error (.bug .outOfBuffer) s) ∧
    (∀ n, s.capacity b < i + n → (memRead b i n).run s = .error (.bug .outOfBuffer) s) ∧
    (∀ n x, i + n ≤ s.capacity b → i ≤ x → x < i + n → readByte (s.buffer b) x = none →
      (memRead b i n).run s = .error (.bug .noValue) s)

end
end

