-- ==== Sys2Proof/Laws/Bytes.lean ====
section
/-! SUPPORT. The laws of the sums and checksums. -/

namespace Sys2Proof.Machine

open Verdicts (total checksumOf)

@[simp] theorem sum8_nil : sum8 [] = 0 := rfl

@[simp] theorem sum8_cons (b : Byte) (s : List Byte) : sum8 (b :: s) = b + sum8 s := rfl

@[simp] theorem sum8_append (s t : List Byte) : sum8 (s ++ t) = sum8 s + sum8 t := by
  induction s with
  | nil => simp
  | cons b s ih => simp [ih, BitVec.add_assoc]

/-- `sum8` is the natural sum modulo 256 (00_scope.md R10). -/
theorem sum8_toNat (s : List Byte) : (sum8 s).toNat = total s % 256 := by
  induction s with
  | nil => rfl
  | cons b s ih => simp [total, ih, BitVec.toNat_add]

/-- The checksum is the additive complement of the sum. -/
theorem checksum_eq_neg (s : List Byte) : checksum s = -sum8 s := by
  apply BitVec.eq_of_toNat_eq
  simp [checksum, BitVec.toNat_neg]

theorem checksum_eq_checksumOf (s : List Byte) : checksum s = checksumOf s := by
  apply BitVec.eq_of_toNat_eq
  simp [checksum, checksumOf, sum8_toNat]

/-- A sum is 0 exactly when the natural sum is a multiple of 256. -/
theorem sum8_add_eq_zero (s : List Byte) (c : Byte) : sum8 s + c = 0 ↔ (total s + c.toNat) % 256 = 0 := by
  rw [← BitVec.toNat_inj]
  simp [BitVec.toNat_add, sum8_toNat]

theorem byte_add_eq_zero (a b : Byte) : a + b = 0 ↔ (a.toNat + b.toNat) % 256 = 0 := by
  rw [← BitVec.toNat_inj]
  simp [BitVec.toNat_add]

theorem validSum_iff (s : List Byte) (c : Byte) : validSum s c = true ↔ sum8 s + c = 0 := by
  simp [validSum]

/-- A checksum makes its sequence valid, and no other byte does (40_checksum.md R144). -/
theorem sum8_add_iff (s : List Byte) (c : Byte) : sum8 s + c = 0 ↔ c = checksum s := by
  rw [checksum_eq_neg]
  constructor
  · intro h
    have : c = -sum8 s + (sum8 s + c) := by rw [← BitVec.add_assoc, BitVec.add_comm (-sum8 s), BitVec.add_right_neg]; simp
    rw [this, h]; simp
  · rintro rfl
    exact BitVec.add_right_neg _

@[simp] theorem sum8_add_checksum (s : List Byte) : sum8 s + checksum s = 0 := (sum8_add_iff s _).mpr rfl

end Sys2Proof.Machine
end

