-- ==== Sys2Proof/Laws/Memory.lean ====
section
/-! SUPPORT. The laws of a buffer: what a read after a write gives, and that every write keeps the canonical form. -/

namespace Sys2Proof.Machine

/-- A write gives the byte written at its index and changes no other. -/
theorem readByte_writeByte (m : Memory) (a : Nat) (v : Byte) (x : Nat) :
    readByte (writeByte m a v) x = if x = a then some v else readByte m x := by
  induction m with
  | nil =>
    by_cases h : x = a
    · simp [writeByte, readByte, h]
    · simp [writeByte, readByte, h, Ne.symm h]
  | cons c m ih =>
    obtain ⟨i, b⟩ := c
    by_cases h : x = a
    · subst h
      simp only [writeByte]
      split
      · simp [readByte]
      · split
        · simp [readByte]
        · rename_i hne
          simp [readByte, Ne.symm hne, ih]
    · simp only [writeByte]
      split
      · simp [readByte, Ne.symm h]
      · split
        · subst_vars; simp [readByte, Ne.symm h]
        · simp [readByte, h, ih]

/-- A longer write gives its bytes at its indices and changes no other. -/
theorem readByte_writeBytes (v : List Byte) : ∀ (m : Memory) (a x : Nat),
    readByte (writeBytes m a v) x = if a ≤ x ∧ x < a + v.length then v[x - a]? else readByte m x := by
  induction v with
  | nil => intro m a x; simp [writeBytes]
  | cons b v ih =>
    intro m a x
    simp only [writeBytes, ih, readByte_writeByte, List.length_cons]
    by_cases h : x = a
    · subst h; simp
    · by_cases h1 : a ≤ x ∧ x < a + (v.length + 1)
      · have h2 : a + 1 ≤ x ∧ x < a + 1 + v.length := by omega
        obtain ⟨k, hk⟩ : ∃ k, x - a = k + 1 := ⟨x - a - 1, by omega⟩
        have hk' : x - (a + 1) = k := by omega
        simp [h1, h2, hk, hk']
      · have h2 : ¬(a + 1 ≤ x ∧ x < a + 1 + v.length) := by omega
        rw [if_neg h2, if_neg h, if_neg h1]

/-- Reading `v.length` bytes from `a` gives `v` exactly when each of them is there. -/
theorem readBytes_eq_some {m : Memory} {a n : Nat} {v : List Byte} :
    readBytes m a n = some v ↔ v.length = n ∧ ∀ k, k < n → readByte m (a + k) = v[k]? := by
  induction n generalizing a v with
  | zero => cases v <;> simp [readBytes]
  | succ n ih =>
    constructor
    · intro h
      simp only [readBytes] at h
      split at h
      · rename_i b w hb hw
        obtain ⟨hl, hk⟩ := ih.mp hw
        cases h
        refine ⟨by simp [hl], fun k hkn => ?_⟩
        cases k with
        | zero => simpa using hb
        | succ k =>
          have := hk k (by omega)
          simpa [Nat.add_assoc, Nat.add_comm 1 k] using this
      · cases h
    · rintro ⟨hl, hk⟩
      cases v with
      | nil => simp at hl
      | cons b w =>
        have h0 := hk 0 (by omega)
        have hw : readBytes m (a + 1) n = some w := by
          refine ih.mpr ⟨by simpa using hl, fun k hkn => ?_⟩
          have := hk (k + 1) (by omega)
          simpa [Nat.add_assoc, Nat.add_comm 1 k] using this
        simp [readBytes, hw] at h0 ⊢
        simp [h0]

/-- A read of part of what has just been written (20_memory.md R61). -/
theorem readBytes_writeBytes (m : Memory) (v : List Byte) (i n : Nat) (h : i + n ≤ v.length) :
    readBytes (writeBytes m 0 v) i n = some ((v.drop i).take n) := by
  refine readBytes_eq_some.mpr ⟨by simp; omega, fun k hk => ?_⟩
  rw [readByte_writeBytes, if_pos ⟨by omega, by omega⟩]
  simp [hk]

/-- A read of all that has just been written. -/
@[simp] theorem readBytes_writeBytes_all (m : Memory) (v : List Byte) :
    readBytes (writeBytes m 0 v) 0 v.length = some v := by
  simpa using readBytes_writeBytes m v 0 v.length (by omega)

/-- Every index of a write is an old one or the one written. -/
theorem mem_writeByte {m : Memory} {a : Nat} {v : Byte} {c : Host.Cell} (h : c ∈ writeByte m a v) :
    c.1 = a ∨ c ∈ m := by
  induction m with
  | nil => simp [writeByte] at h; simp [h]
  | cons d m ih =>
    obtain ⟨i, b⟩ := d
    simp only [writeByte] at h
    split at h
    · rcases List.mem_cons.mp h with rfl | h
      · simp
      · exact .inr h
    · split at h
      · rcases List.mem_cons.mp h with rfl | h
        · simp
        · exact .inr (List.mem_cons_of_mem _ h)
      · rcases List.mem_cons.mp h with rfl | h
        · simp
        · rcases ih h with h | h
          · exact .inl h
          · exact .inr (List.mem_cons_of_mem _ h)

theorem writeByte_wf {m : Memory} (h : m.wf) (a : Nat) (v : Byte) : (writeByte m a v).wf := by
  induction m with
  | nil => simp [writeByte, Memory.wf]
  | cons d m ih =>
    obtain ⟨i, b⟩ := d
    simp only [Memory.wf, List.pairwise_cons] at h ih ⊢
    obtain ⟨hi, hm⟩ := h
    simp only [writeByte]
    split
    · rename_i hlt
      refine List.pairwise_cons.mpr ⟨fun c hc => ?_, List.pairwise_cons.mpr ⟨hi, hm⟩⟩
      rcases List.mem_cons.mp hc with rfl | hc
      · exact hlt
      · exact lt_trans hlt (hi c hc)
    · split
      · rename_i ha
        subst ha
        exact List.pairwise_cons.mpr ⟨hi, hm⟩
      · refine List.pairwise_cons.mpr ⟨fun c hc => ?_, ih hm⟩
        rcases mem_writeByte hc with hc | hc
        · simp only [hc]; omega
        · exact hi c hc

/-- Every memory operation keeps the canonical form: `writeBytes` is the only one that changes a buffer. -/
theorem writeBytes_wf {m : Memory} (h : m.wf) (a : Nat) (v : List Byte) : (writeBytes m a v).wf := by
  induction v generalizing m a with
  | nil => exact h
  | cons b v ih => exact ih (writeByte_wf h a b) (a + 1)

/-- The buffers of the reset state have the canonical form. -/
theorem reset_buffers_wf (b : Buffer) : (State.reset.buffer b).wf := by
  cases b <;> exact List.Pairwise.nil

end Sys2Proof.Machine
end

