-- ==== Sys2Proof/Laws/Rule.lean ====
section
/-! SUPPORT. What the actions of a rule do to the state, one equation each: a proof runs a rule with these and unfolds no
monad. -/

namespace Sys2Proof.Machine

variable {α β : Type}

/-! ### Sequencing -/

@[simp] theorem Rule.run_pure (a : α) (s : State) : (pure a : Rule α).run s = .ok a s := rfl

theorem Rule.run_bind (x : Rule α) (f : α → Rule β) (s : State) :
    (x >>= f).run s = match x.run s with
      | .ok a t => (f a).run t
      | .error e t => .error e t := by
  show EStateM.bind x f s = _
  unfold EStateM.bind EStateM.run
  cases x s <;> rfl

/-- An action that succeeds hands its value and state on. -/
theorem Rule.run_bind_ok {x : Rule α} {s t : State} {a : α} (h : x.run s = .ok a t) (f : α → Rule β) :
    (x >>= f).run s = (f a).run t := by
  simp only [Rule.run_bind, h]

/-- An action that stops ends the rule. -/
theorem Rule.run_bind_error {x : Rule α} {s t : State} {e : Stop} (h : x.run s = .error e t) (f : α → Rule β) :
    (x >>= f).run s = .error e t := by
  simp only [Rule.run_bind, h]

@[simp] theorem Rule.run_get (s : State) : (get : Rule State).run s = .ok s s := rfl

@[simp] theorem Rule.run_set (s t : State) : (set t : Rule PUnit).run s = .ok ⟨⟩ t := rfl

@[simp] theorem Rule.run_modify (f : State → State) (s : State) :
    (modify f : Rule PUnit).run s = .ok ⟨⟩ (f s) := rfl

@[simp] theorem run_raise (e : Failure) (s : State) : (raise e : Rule α).run s = .error (.raised e) s := rfl

@[simp] theorem run_bug (f : Fault) (s : State) : (bug f : Rule α).run s = .error (.bug f) s := rfl

/-! ### Checks, values and buffers -/

theorem run_check (p : Prop) [Decidable p] (e : Failure) (s : State) :
    (check p e).run s = if p then .ok () s else .error (.raised e) s := by
  unfold check; split <;> rfl

@[simp] theorem run_check_true {p : Prop} [Decidable p] (h : p) (e : Failure) (s : State) :
    (check p e).run s = .ok () s := by
  simp [run_check, h]

@[simp] theorem run_check_false {p : Prop} [Decidable p] (h : ¬p) (e : Failure) (s : State) :
    (check p e).run s = .error (.raised e) s := by
  simp [run_check, h]

@[simp] theorem run_valueOf_some (a : α) (s : State) : (valueOf (some a)).run s = .ok a s := rfl

@[simp] theorem run_valueOf_none (s : State) : (valueOf (none : Option α)).run s = .error (.bug .noValue) s := rfl

theorem run_byteAt (p : List Byte) (i : Nat) (s : State) :
    (byteAt p i).run s = match p[i]? with
      | some b => .ok b s
      | none => .error (.bug .outOfBuffer) s := by
  unfold byteAt; cases p[i]? <;> rfl

theorem run_memRead (b : Buffer) (i n : Nat) (s : State) :
    (memRead b i n).run s =
      if i + n ≤ s.capacity b then
        match readBytes (s.buffer b) i n with
        | some v => .ok v s
        | none => .error (.bug .noValue) s
      else .error (.bug .outOfBuffer) s := by
  simp only [memRead, Rule.run_bind, Rule.run_get]
  split
  · cases readBytes (s.buffer b) i n <;> rfl
  · rfl

theorem run_memWrite (b : Buffer) (i : Nat) (v : List Byte) (s : State) :
    (memWrite b i v).run s =
      if i + v.length ≤ s.capacity b then .ok () (s.setBuffer b (writeBytes (s.buffer b) i v))
      else .error (.bug .outOfBuffer) s := by
  simp only [memWrite, Rule.run_bind, Rule.run_get]
  split <;> rfl

/-! ### Phases, replies and calls -/

@[simp] theorem run_setPhase (p : Phase) (s : State) : (setPhase p).run s = .ok ⟨⟩ (s.setPhase p) := rfl

@[simp] theorem run_reply (st : Byte) (d : List Byte) (s : State) : (reply st d).run s = .ok ⟨⟩ (s.succeed st d) := rfl

@[simp] theorem run_issue (c : Call) (k : Resume) (s : State) :
    (issue c k).run s = .ok ⟨⟩ { s with outstanding := some ⟨c, k⟩ } := rfl

@[simp] theorem run_transportWrite (f : List Byte) (k : Resume) (s : State) :
    (transportWrite f k).run s = .ok ⟨⟩ { s with outstanding := some ⟨.write f s.cfg.tCall, k⟩ } := rfl

@[simp] theorem run_transportRead (n : Nat) (k : Resume) (s : State) :
    (transportRead n k).run s = .ok ⟨⟩ { s with outstanding := some ⟨.read n s.cfg.tCall, k⟩ } := rfl

@[simp] theorem run_clockNow (k : Resume) (s : State) :
    (clockNow k).run s = .ok ⟨⟩ { s with outstanding := some ⟨.clock, k⟩ } := rfl

end Sys2Proof.Machine
end

