-- ==== Sys2Proof/Laws/State.lean ====
section
/-! SUPPORT. One lemma per field for each update of the state: what the update leaves in the field. -/

namespace Sys2Proof.Machine

/-! ### `State.log` -/

@[simp] theorem State.log_cfg (s : State) (e : Event) : (s.log e).cfg = s.cfg := rfl
@[simp] theorem State.log_busy (s : State) (e : Event) : (s.log e).busy = s.busy := rfl
@[simp] theorem State.log_curOp (s : State) (e : Event) : (s.log e).curOp = s.curOp := rfl
@[simp] theorem State.log_phase (s : State) (e : Event) : (s.log e).phase = s.phase := rfl
@[simp] theorem State.log_cmd (s : State) (e : Event) : (s.log e).cmd = s.cmd := rfl
@[simp] theorem State.log_txbuf (s : State) (e : Event) : (s.log e).txbuf = s.txbuf := rfl
@[simp] theorem State.log_txlen (s : State) (e : Event) : (s.log e).txlen = s.txlen := rfl
@[simp] theorem State.log_ackbuf (s : State) (e : Event) : (s.log e).ackbuf = s.ackbuf := rfl
@[simp] theorem State.log_hdrbuf (s : State) (e : Event) : (s.log e).hdrbuf = s.hdrbuf := rfl
@[simp] theorem State.log_rxbuf (s : State) (e : Event) : (s.log e).rxbuf = s.rxbuf := rfl
@[simp] theorem State.log_rxlen (s : State) (e : Event) : (s.log e).rxlen = s.rxlen := rfl
@[simp] theorem State.log_plen (s : State) (e : Event) : (s.log e).plen = s.plen := rfl
@[simp] theorem State.log_pollT0 (s : State) (e : Event) : (s.log e).pollT0 = s.pollT0 := rfl
@[simp] theorem State.log_pollTmo (s : State) (e : Event) : (s.log e).pollTmo = s.pollTmo := rfl
@[simp] theorem State.log_pollLast (s : State) (e : Event) : (s.log e).pollLast = s.pollLast := rfl
@[simp] theorem State.log_uidbuf (s : State) (e : Event) : (s.log e).uidbuf = s.uidbuf := rfl
@[simp] theorem State.log_uidlen (s : State) (e : Event) : (s.log e).uidlen = s.uidlen := rfl
@[simp] theorem State.log_operands (s : State) (e : Event) : (s.log e).operands = s.operands := rfl
@[simp] theorem State.log_outstanding (s : State) (e : Event) : (s.log e).outstanding = s.outstanding := rfl
@[simp] theorem State.log_offered (s : State) (e : Event) : (s.log e).offered = s.offered := rfl
@[simp] theorem State.log_writeAnswers (s : State) (e : Event) : (s.log e).writeAnswers = s.writeAnswers := rfl
@[simp] theorem State.log_rx (s : State) (e : Event) : (s.log e).rx = s.rx := rfl
@[simp] theorem State.log_clock (s : State) (e : Event) : (s.log e).clock = s.clock := rfl
@[simp] theorem State.log_owed (s : State) (e : Event) : (s.log e).owed = s.owed := rfl
@[simp] theorem State.log_resetLine (s : State) (e : Event) : (s.log e).resetLine = s.resetLine := rfl
@[simp] theorem State.log_resetOnAccept (s : State) (e : Event) : (s.log e).resetOnAccept = s.resetOnAccept := rfl
@[simp] theorem State.log_lateAnswer (s : State) (e : Event) : (s.log e).lateAnswer = s.lateAnswer := rfl
@[simp] theorem State.log_events (s : State) (e : Event) : (s.log e).events = s.events ++ [e] := rfl

/-! ### `State.setPhase` -/

@[simp] theorem State.setPhase_cfg (s : State) (p : Phase) : (s.setPhase p).cfg = s.cfg := rfl
@[simp] theorem State.setPhase_busy (s : State) (p : Phase) : (s.setPhase p).busy = s.busy := rfl
@[simp] theorem State.setPhase_curOp (s : State) (p : Phase) : (s.setPhase p).curOp = s.curOp := rfl
@[simp] theorem State.setPhase_phase (s : State) (p : Phase) : (s.setPhase p).phase = p := rfl
@[simp] theorem State.setPhase_cmd (s : State) (p : Phase) : (s.setPhase p).cmd = s.cmd := rfl
@[simp] theorem State.setPhase_txbuf (s : State) (p : Phase) : (s.setPhase p).txbuf = s.txbuf := rfl
@[simp] theorem State.setPhase_txlen (s : State) (p : Phase) : (s.setPhase p).txlen = s.txlen := rfl
@[simp] theorem State.setPhase_ackbuf (s : State) (p : Phase) : (s.setPhase p).ackbuf = s.ackbuf := rfl
@[simp] theorem State.setPhase_hdrbuf (s : State) (p : Phase) : (s.setPhase p).hdrbuf = s.hdrbuf := rfl
@[simp] theorem State.setPhase_rxbuf (s : State) (p : Phase) : (s.setPhase p).rxbuf = s.rxbuf := rfl
@[simp] theorem State.setPhase_rxlen (s : State) (p : Phase) : (s.setPhase p).rxlen = s.rxlen := rfl
@[simp] theorem State.setPhase_plen (s : State) (p : Phase) : (s.setPhase p).plen = s.plen := rfl
@[simp] theorem State.setPhase_pollT0 (s : State) (p : Phase) : (s.setPhase p).pollT0 = s.pollT0 := rfl
@[simp] theorem State.setPhase_pollTmo (s : State) (p : Phase) : (s.setPhase p).pollTmo = s.pollTmo := rfl
@[simp] theorem State.setPhase_pollLast (s : State) (p : Phase) : (s.setPhase p).pollLast = s.pollLast := rfl
@[simp] theorem State.setPhase_uidbuf (s : State) (p : Phase) : (s.setPhase p).uidbuf = s.uidbuf := rfl
@[simp] theorem State.setPhase_uidlen (s : State) (p : Phase) : (s.setPhase p).uidlen = s.uidlen := rfl
@[simp] theorem State.setPhase_operands (s : State) (p : Phase) : (s.setPhase p).operands = s.operands := rfl
@[simp] theorem State.setPhase_outstanding (s : State) (p : Phase) : (s.setPhase p).outstanding = s.outstanding := rfl
@[simp] theorem State.setPhase_offered (s : State) (p : Phase) : (s.setPhase p).offered = s.offered := rfl
@[simp] theorem State.setPhase_writeAnswers (s : State) (p : Phase) : (s.setPhase p).writeAnswers = s.writeAnswers := rfl
@[simp] theorem State.setPhase_rx (s : State) (p : Phase) : (s.setPhase p).rx = s.rx := rfl
@[simp] theorem State.setPhase_clock (s : State) (p : Phase) : (s.setPhase p).clock = s.clock := rfl
@[simp] theorem State.setPhase_owed (s : State) (p : Phase) : (s.setPhase p).owed = s.owed := rfl
@[simp] theorem State.setPhase_resetLine (s : State) (p : Phase) : (s.setPhase p).resetLine = s.resetLine := rfl
@[simp] theorem State.setPhase_resetOnAccept (s : State) (p : Phase) : (s.setPhase p).resetOnAccept = s.resetOnAccept := rfl
@[simp] theorem State.setPhase_lateAnswer (s : State) (p : Phase) : (s.setPhase p).lateAnswer = s.lateAnswer := rfl
@[simp] theorem State.setPhase_events (s : State) (p : Phase) : (s.setPhase p).events = s.events ++ [.phase p] := rfl

/-! ### `State.discardCommand` -/

@[simp] theorem State.discardCommand_cfg (s : State) : (s.discardCommand).cfg = s.cfg := rfl
@[simp] theorem State.discardCommand_busy (s : State) : (s.discardCommand).busy = s.busy := rfl
@[simp] theorem State.discardCommand_curOp (s : State) : (s.discardCommand).curOp = s.curOp := rfl
@[simp] theorem State.discardCommand_phase (s : State) : (s.discardCommand).phase = s.phase := rfl
@[simp] theorem State.discardCommand_cmd (s : State) : (s.discardCommand).cmd = none := rfl
@[simp] theorem State.discardCommand_txbuf (s : State) : (s.discardCommand).txbuf = [] := rfl
@[simp] theorem State.discardCommand_txlen (s : State) : (s.discardCommand).txlen = none := rfl
@[simp] theorem State.discardCommand_ackbuf (s : State) : (s.discardCommand).ackbuf = [] := rfl
@[simp] theorem State.discardCommand_hdrbuf (s : State) : (s.discardCommand).hdrbuf = [] := rfl
@[simp] theorem State.discardCommand_rxbuf (s : State) : (s.discardCommand).rxbuf = [] := rfl
@[simp] theorem State.discardCommand_rxlen (s : State) : (s.discardCommand).rxlen = none := rfl
@[simp] theorem State.discardCommand_plen (s : State) : (s.discardCommand).plen = none := rfl
@[simp] theorem State.discardCommand_pollT0 (s : State) : (s.discardCommand).pollT0 = none := rfl
@[simp] theorem State.discardCommand_pollTmo (s : State) : (s.discardCommand).pollTmo = none := rfl
@[simp] theorem State.discardCommand_pollLast (s : State) : (s.discardCommand).pollLast = none := rfl
@[simp] theorem State.discardCommand_uidbuf (s : State) : (s.discardCommand).uidbuf = s.uidbuf := rfl
@[simp] theorem State.discardCommand_uidlen (s : State) : (s.discardCommand).uidlen = s.uidlen := rfl
@[simp] theorem State.discardCommand_operands (s : State) : (s.discardCommand).operands = s.operands := rfl
@[simp] theorem State.discardCommand_outstanding (s : State) : (s.discardCommand).outstanding = s.outstanding := rfl
@[simp] theorem State.discardCommand_offered (s : State) : (s.discardCommand).offered = s.offered := rfl
@[simp] theorem State.discardCommand_writeAnswers (s : State) : (s.discardCommand).writeAnswers = s.writeAnswers := rfl
@[simp] theorem State.discardCommand_rx (s : State) : (s.discardCommand).rx = s.rx := rfl
@[simp] theorem State.discardCommand_clock (s : State) : (s.discardCommand).clock = s.clock := rfl
@[simp] theorem State.discardCommand_owed (s : State) : (s.discardCommand).owed = s.owed := rfl
@[simp] theorem State.discardCommand_resetLine (s : State) : (s.discardCommand).resetLine = s.resetLine := rfl
@[simp] theorem State.discardCommand_resetOnAccept (s : State) : (s.discardCommand).resetOnAccept = s.resetOnAccept := rfl
@[simp] theorem State.discardCommand_lateAnswer (s : State) : (s.discardCommand).lateAnswer = s.lateAnswer := rfl
@[simp] theorem State.discardCommand_events (s : State) : (s.discardCommand).events = s.events := rfl

/-! ### `State.cleared` -/

@[simp] theorem State.cleared_cfg (s : State) : (s.cleared).cfg = s.cfg := rfl
@[simp] theorem State.cleared_busy (s : State) : (s.cleared).busy = false := rfl
@[simp] theorem State.cleared_curOp (s : State) : (s.cleared).curOp = none := rfl
@[simp] theorem State.cleared_phase (s : State) : (s.cleared).phase = .idle := rfl
@[simp] theorem State.cleared_cmd (s : State) : (s.cleared).cmd = none := rfl
@[simp] theorem State.cleared_txbuf (s : State) : (s.cleared).txbuf = [] := rfl
@[simp] theorem State.cleared_txlen (s : State) : (s.cleared).txlen = none := rfl
@[simp] theorem State.cleared_ackbuf (s : State) : (s.cleared).ackbuf = [] := rfl
@[simp] theorem State.cleared_hdrbuf (s : State) : (s.cleared).hdrbuf = [] := rfl
@[simp] theorem State.cleared_rxbuf (s : State) : (s.cleared).rxbuf = [] := rfl
@[simp] theorem State.cleared_rxlen (s : State) : (s.cleared).rxlen = none := rfl
@[simp] theorem State.cleared_plen (s : State) : (s.cleared).plen = none := rfl
@[simp] theorem State.cleared_pollT0 (s : State) : (s.cleared).pollT0 = none := rfl
@[simp] theorem State.cleared_pollTmo (s : State) : (s.cleared).pollTmo = none := rfl
@[simp] theorem State.cleared_pollLast (s : State) : (s.cleared).pollLast = none := rfl
@[simp] theorem State.cleared_uidbuf (s : State) : (s.cleared).uidbuf = [] := rfl
@[simp] theorem State.cleared_uidlen (s : State) : (s.cleared).uidlen = none := rfl
@[simp] theorem State.cleared_operands (s : State) : (s.cleared).operands = none := rfl
@[simp] theorem State.cleared_outstanding (s : State) : (s.cleared).outstanding = none := rfl
@[simp] theorem State.cleared_offered (s : State) : (s.cleared).offered = s.offered := rfl
@[simp] theorem State.cleared_writeAnswers (s : State) : (s.cleared).writeAnswers = s.writeAnswers := rfl
@[simp] theorem State.cleared_rx (s : State) : (s.cleared).rx = s.rx := rfl
@[simp] theorem State.cleared_clock (s : State) : (s.cleared).clock = s.clock := rfl
@[simp] theorem State.cleared_owed (s : State) : (s.cleared).owed = s.owed := rfl
@[simp] theorem State.cleared_resetLine (s : State) : (s.cleared).resetLine = s.resetLine := rfl
@[simp] theorem State.cleared_resetOnAccept (s : State) : (s.cleared).resetOnAccept = s.resetOnAccept := rfl
@[simp] theorem State.cleared_lateAnswer (s : State) : (s.cleared).lateAnswer = s.lateAnswer := rfl
@[simp] theorem State.cleared_events (s : State) : (s.cleared).events = s.events := rfl

/-! ### `State.endOperation` -/

@[simp] theorem State.endOperation_cfg (s : State) : (s.endOperation).cfg = s.cfg := rfl
@[simp] theorem State.endOperation_busy (s : State) : (s.endOperation).busy = false := rfl
@[simp] theorem State.endOperation_curOp (s : State) : (s.endOperation).curOp = none := rfl
@[simp] theorem State.endOperation_phase (s : State) : (s.endOperation).phase = .idle := rfl
@[simp] theorem State.endOperation_cmd (s : State) : (s.endOperation).cmd = none := rfl
@[simp] theorem State.endOperation_txbuf (s : State) : (s.endOperation).txbuf = [] := rfl
@[simp] theorem State.endOperation_txlen (s : State) : (s.endOperation).txlen = none := rfl
@[simp] theorem State.endOperation_ackbuf (s : State) : (s.endOperation).ackbuf = [] := rfl
@[simp] theorem State.endOperation_hdrbuf (s : State) : (s.endOperation).hdrbuf = [] := rfl
@[simp] theorem State.endOperation_rxbuf (s : State) : (s.endOperation).rxbuf = [] := rfl
@[simp] theorem State.endOperation_rxlen (s : State) : (s.endOperation).rxlen = none := rfl
@[simp] theorem State.endOperation_plen (s : State) : (s.endOperation).plen = none := rfl
@[simp] theorem State.endOperation_pollT0 (s : State) : (s.endOperation).pollT0 = none := rfl
@[simp] theorem State.endOperation_pollTmo (s : State) : (s.endOperation).pollTmo = none := rfl
@[simp] theorem State.endOperation_pollLast (s : State) : (s.endOperation).pollLast = none := rfl
@[simp] theorem State.endOperation_uidbuf (s : State) : (s.endOperation).uidbuf = [] := rfl
@[simp] theorem State.endOperation_uidlen (s : State) : (s.endOperation).uidlen = none := rfl
@[simp] theorem State.endOperation_operands (s : State) : (s.endOperation).operands = none := rfl
@[simp] theorem State.endOperation_outstanding (s : State) : (s.endOperation).outstanding = none := rfl
@[simp] theorem State.endOperation_offered (s : State) : (s.endOperation).offered = s.offered := rfl
@[simp] theorem State.endOperation_writeAnswers (s : State) : (s.endOperation).writeAnswers = s.writeAnswers := rfl
@[simp] theorem State.endOperation_rx (s : State) : (s.endOperation).rx = s.rx := rfl
@[simp] theorem State.endOperation_clock (s : State) : (s.endOperation).clock = s.clock := rfl
@[simp] theorem State.endOperation_owed (s : State) : (s.endOperation).owed = s.owed := rfl
@[simp] theorem State.endOperation_resetLine (s : State) : (s.endOperation).resetLine = s.resetLine := rfl
@[simp] theorem State.endOperation_resetOnAccept (s : State) : (s.endOperation).resetOnAccept = s.resetOnAccept := rfl
@[simp] theorem State.endOperation_lateAnswer (s : State) : (s.endOperation).lateAnswer = s.lateAnswer := rfl
@[simp] theorem State.endOperation_events (s : State) : (s.endOperation).events = s.events ++ [.phase .idle] := rfl

/-! ### `State.accept` -/

@[simp] theorem State.accept_cfg (s : State) (i : Instr) (opc : Byte) : (s.accept i opc).cfg = s.cfg := rfl
@[simp] theorem State.accept_busy (s : State) (i : Instr) (opc : Byte) : (s.accept i opc).busy = true := rfl
@[simp] theorem State.accept_curOp (s : State) (i : Instr) (opc : Byte) : (s.accept i opc).curOp = some opc := rfl
@[simp] theorem State.accept_phase (s : State) (i : Instr) (opc : Byte) : (s.accept i opc).phase = s.phase := rfl
@[simp] theorem State.accept_cmd (s : State) (i : Instr) (opc : Byte) : (s.accept i opc).cmd = s.cmd := rfl
@[simp] theorem State.accept_txbuf (s : State) (i : Instr) (opc : Byte) : (s.accept i opc).txbuf = s.txbuf := rfl
@[simp] theorem State.accept_txlen (s : State) (i : Instr) (opc : Byte) : (s.accept i opc).txlen = s.txlen := rfl
@[simp] theorem State.accept_ackbuf (s : State) (i : Instr) (opc : Byte) : (s.accept i opc).ackbuf = s.ackbuf := rfl
@[simp] theorem State.accept_hdrbuf (s : State) (i : Instr) (opc : Byte) : (s.accept i opc).hdrbuf = s.hdrbuf := rfl
@[simp] theorem State.accept_rxbuf (s : State) (i : Instr) (opc : Byte) : (s.accept i opc).rxbuf = s.rxbuf := rfl
@[simp] theorem State.accept_rxlen (s : State) (i : Instr) (opc : Byte) : (s.accept i opc).rxlen = s.rxlen := rfl
@[simp] theorem State.accept_plen (s : State) (i : Instr) (opc : Byte) : (s.accept i opc).plen = s.plen := rfl
@[simp] theorem State.accept_pollT0 (s : State) (i : Instr) (opc : Byte) : (s.accept i opc).pollT0 = s.pollT0 := rfl
@[simp] theorem State.accept_pollTmo (s : State) (i : Instr) (opc : Byte) : (s.accept i opc).pollTmo = s.pollTmo := rfl
@[simp] theorem State.accept_pollLast (s : State) (i : Instr) (opc : Byte) : (s.accept i opc).pollLast = s.pollLast := rfl
@[simp] theorem State.accept_uidbuf (s : State) (i : Instr) (opc : Byte) : (s.accept i opc).uidbuf = s.uidbuf := rfl
@[simp] theorem State.accept_uidlen (s : State) (i : Instr) (opc : Byte) : (s.accept i opc).uidlen = s.uidlen := rfl
@[simp] theorem State.accept_operands (s : State) (i : Instr) (opc : Byte) : (s.accept i opc).operands = some i := rfl
@[simp] theorem State.accept_outstanding (s : State) (i : Instr) (opc : Byte) : (s.accept i opc).outstanding = s.outstanding := rfl
@[simp] theorem State.accept_offered (s : State) (i : Instr) (opc : Byte) : (s.accept i opc).offered = s.offered := rfl
@[simp] theorem State.accept_writeAnswers (s : State) (i : Instr) (opc : Byte) : (s.accept i opc).writeAnswers = s.writeAnswers := rfl
@[simp] theorem State.accept_rx (s : State) (i : Instr) (opc : Byte) : (s.accept i opc).rx = s.rx := rfl
@[simp] theorem State.accept_clock (s : State) (i : Instr) (opc : Byte) : (s.accept i opc).clock = s.clock := rfl
@[simp] theorem State.accept_owed (s : State) (i : Instr) (opc : Byte) : (s.accept i opc).owed = s.owed := rfl
@[simp] theorem State.accept_resetLine (s : State) (i : Instr) (opc : Byte) : (s.accept i opc).resetLine = s.resetLine := rfl
@[simp] theorem State.accept_resetOnAccept (s : State) (i : Instr) (opc : Byte) : (s.accept i opc).resetOnAccept = s.resetOnAccept := rfl
@[simp] theorem State.accept_lateAnswer (s : State) (i : Instr) (opc : Byte) : (s.accept i opc).lateAnswer = s.lateAnswer := rfl
@[simp] theorem State.accept_events (s : State) (i : Instr) (opc : Byte) : (s.accept i opc).events = s.events ++ [.accepted opc] := rfl

/-! ### `State.deliver` -/

@[simp] theorem State.deliver_cfg (s : State) (bs : List Byte) : (s.deliver bs).cfg = s.cfg := rfl
@[simp] theorem State.deliver_busy (s : State) (bs : List Byte) : (s.deliver bs).busy = s.busy := rfl
@[simp] theorem State.deliver_curOp (s : State) (bs : List Byte) : (s.deliver bs).curOp = s.curOp := rfl
@[simp] theorem State.deliver_phase (s : State) (bs : List Byte) : (s.deliver bs).phase = s.phase := rfl
@[simp] theorem State.deliver_cmd (s : State) (bs : List Byte) : (s.deliver bs).cmd = s.cmd := rfl
@[simp] theorem State.deliver_txbuf (s : State) (bs : List Byte) : (s.deliver bs).txbuf = s.txbuf := rfl
@[simp] theorem State.deliver_txlen (s : State) (bs : List Byte) : (s.deliver bs).txlen = s.txlen := rfl
@[simp] theorem State.deliver_ackbuf (s : State) (bs : List Byte) : (s.deliver bs).ackbuf = s.ackbuf := rfl
@[simp] theorem State.deliver_hdrbuf (s : State) (bs : List Byte) : (s.deliver bs).hdrbuf = s.hdrbuf := rfl
@[simp] theorem State.deliver_rxbuf (s : State) (bs : List Byte) : (s.deliver bs).rxbuf = s.rxbuf := rfl
@[simp] theorem State.deliver_rxlen (s : State) (bs : List Byte) : (s.deliver bs).rxlen = s.rxlen := rfl
@[simp] theorem State.deliver_plen (s : State) (bs : List Byte) : (s.deliver bs).plen = s.plen := rfl
@[simp] theorem State.deliver_pollT0 (s : State) (bs : List Byte) : (s.deliver bs).pollT0 = s.pollT0 := rfl
@[simp] theorem State.deliver_pollTmo (s : State) (bs : List Byte) : (s.deliver bs).pollTmo = s.pollTmo := rfl
@[simp] theorem State.deliver_pollLast (s : State) (bs : List Byte) : (s.deliver bs).pollLast = s.pollLast := rfl
@[simp] theorem State.deliver_uidbuf (s : State) (bs : List Byte) : (s.deliver bs).uidbuf = s.uidbuf := rfl
@[simp] theorem State.deliver_uidlen (s : State) (bs : List Byte) : (s.deliver bs).uidlen = s.uidlen := rfl
@[simp] theorem State.deliver_operands (s : State) (bs : List Byte) : (s.deliver bs).operands = s.operands := rfl
@[simp] theorem State.deliver_outstanding (s : State) (bs : List Byte) : (s.deliver bs).outstanding = s.outstanding := rfl
@[simp] theorem State.deliver_offered (s : State) (bs : List Byte) : (s.deliver bs).offered = s.offered := rfl
@[simp] theorem State.deliver_writeAnswers (s : State) (bs : List Byte) : (s.deliver bs).writeAnswers = s.writeAnswers := rfl
@[simp] theorem State.deliver_rx (s : State) (bs : List Byte) : (s.deliver bs).rx = bs.map .byte ++ s.rx := rfl
@[simp] theorem State.deliver_clock (s : State) (bs : List Byte) : (s.deliver bs).clock = s.clock := rfl
@[simp] theorem State.deliver_owed (s : State) (bs : List Byte) : (s.deliver bs).owed = s.owed := rfl
@[simp] theorem State.deliver_resetLine (s : State) (bs : List Byte) : (s.deliver bs).resetLine = s.resetLine := rfl
@[simp] theorem State.deliver_resetOnAccept (s : State) (bs : List Byte) : (s.deliver bs).resetOnAccept = s.resetOnAccept := rfl
@[simp] theorem State.deliver_lateAnswer (s : State) (bs : List Byte) : (s.deliver bs).lateAnswer = s.lateAnswer := rfl
@[simp] theorem State.deliver_events (s : State) (bs : List Byte) : (s.deliver bs).events = s.events := rfl

/-! ### `State.setBuffer`, which writes one of the five buffers -/

@[simp] theorem State.setBuffer_cfg (s : State) (b : Buffer) (m : Memory) : (s.setBuffer b m).cfg = s.cfg := by
  cases b <;> rfl
@[simp] theorem State.setBuffer_busy (s : State) (b : Buffer) (m : Memory) : (s.setBuffer b m).busy = s.busy := by
  cases b <;> rfl
@[simp] theorem State.setBuffer_curOp (s : State) (b : Buffer) (m : Memory) : (s.setBuffer b m).curOp = s.curOp := by
  cases b <;> rfl
@[simp] theorem State.setBuffer_phase (s : State) (b : Buffer) (m : Memory) : (s.setBuffer b m).phase = s.phase := by
  cases b <;> rfl
@[simp] theorem State.setBuffer_cmd (s : State) (b : Buffer) (m : Memory) : (s.setBuffer b m).cmd = s.cmd := by
  cases b <;> rfl
@[simp] theorem State.setBuffer_txlen (s : State) (b : Buffer) (m : Memory) : (s.setBuffer b m).txlen = s.txlen := by
  cases b <;> rfl
@[simp] theorem State.setBuffer_rxlen (s : State) (b : Buffer) (m : Memory) : (s.setBuffer b m).rxlen = s.rxlen := by
  cases b <;> rfl
@[simp] theorem State.setBuffer_plen (s : State) (b : Buffer) (m : Memory) : (s.setBuffer b m).plen = s.plen := by
  cases b <;> rfl
@[simp] theorem State.setBuffer_pollT0 (s : State) (b : Buffer) (m : Memory) : (s.setBuffer b m).pollT0 = s.pollT0 := by
  cases b <;> rfl
@[simp] theorem State.setBuffer_pollTmo (s : State) (b : Buffer) (m : Memory) : (s.setBuffer b m).pollTmo = s.pollTmo := by
  cases b <;> rfl
@[simp] theorem State.setBuffer_pollLast (s : State) (b : Buffer) (m : Memory) : (s.setBuffer b m).pollLast = s.pollLast := by
  cases b <;> rfl
@[simp] theorem State.setBuffer_uidlen (s : State) (b : Buffer) (m : Memory) : (s.setBuffer b m).uidlen = s.uidlen := by
  cases b <;> rfl
@[simp] theorem State.setBuffer_operands (s : State) (b : Buffer) (m : Memory) : (s.setBuffer b m).operands = s.operands := by
  cases b <;> rfl
@[simp] theorem State.setBuffer_outstanding (s : State) (b : Buffer) (m : Memory) : (s.setBuffer b m).outstanding = s.outstanding := by
  cases b <;> rfl
@[simp] theorem State.setBuffer_offered (s : State) (b : Buffer) (m : Memory) : (s.setBuffer b m).offered = s.offered := by
  cases b <;> rfl
@[simp] theorem State.setBuffer_writeAnswers (s : State) (b : Buffer) (m : Memory) : (s.setBuffer b m).writeAnswers = s.writeAnswers := by
  cases b <;> rfl
@[simp] theorem State.setBuffer_rx (s : State) (b : Buffer) (m : Memory) : (s.setBuffer b m).rx = s.rx := by
  cases b <;> rfl
@[simp] theorem State.setBuffer_clock (s : State) (b : Buffer) (m : Memory) : (s.setBuffer b m).clock = s.clock := by
  cases b <;> rfl
@[simp] theorem State.setBuffer_owed (s : State) (b : Buffer) (m : Memory) : (s.setBuffer b m).owed = s.owed := by
  cases b <;> rfl
@[simp] theorem State.setBuffer_resetLine (s : State) (b : Buffer) (m : Memory) : (s.setBuffer b m).resetLine = s.resetLine := by
  cases b <;> rfl
@[simp] theorem State.setBuffer_resetOnAccept (s : State) (b : Buffer) (m : Memory) : (s.setBuffer b m).resetOnAccept = s.resetOnAccept := by
  cases b <;> rfl
@[simp] theorem State.setBuffer_lateAnswer (s : State) (b : Buffer) (m : Memory) : (s.setBuffer b m).lateAnswer = s.lateAnswer := by
  cases b <;> rfl
@[simp] theorem State.setBuffer_events (s : State) (b : Buffer) (m : Memory) : (s.setBuffer b m).events = s.events := by
  cases b <;> rfl

@[simp] theorem State.buffer_setBuffer_self (s : State) (b : Buffer) (m : Memory) :
    (s.setBuffer b m).buffer b = m := by
  cases b <;> rfl

theorem State.buffer_setBuffer_ne (s : State) {b c : Buffer} (m : Memory) (h : c ≠ b) :
    (s.setBuffer b m).buffer c = s.buffer c := by
  cases b <;> cases c <;> first | rfl | exact absurd rfl h

@[simp] theorem State.capacity_setBuffer (s : State) (b c : Buffer) (m : Memory) :
    (s.setBuffer b m).capacity c = s.capacity c := by
  cases b <;> cases c <;> rfl

/-! ### `State.dropOwed` -/

@[simp] theorem State.dropOwed_cfg (s : State) : (s.dropOwed).cfg = s.cfg := rfl
@[simp] theorem State.dropOwed_busy (s : State) : (s.dropOwed).busy = s.busy := rfl
@[simp] theorem State.dropOwed_curOp (s : State) : (s.dropOwed).curOp = s.curOp := rfl
@[simp] theorem State.dropOwed_phase (s : State) : (s.dropOwed).phase = s.phase := rfl
@[simp] theorem State.dropOwed_cmd (s : State) : (s.dropOwed).cmd = s.cmd := rfl
@[simp] theorem State.dropOwed_txbuf (s : State) : (s.dropOwed).txbuf = s.txbuf := rfl
@[simp] theorem State.dropOwed_txlen (s : State) : (s.dropOwed).txlen = s.txlen := rfl
@[simp] theorem State.dropOwed_ackbuf (s : State) : (s.dropOwed).ackbuf = s.ackbuf := rfl
@[simp] theorem State.dropOwed_hdrbuf (s : State) : (s.dropOwed).hdrbuf = s.hdrbuf := rfl
@[simp] theorem State.dropOwed_rxbuf (s : State) : (s.dropOwed).rxbuf = s.rxbuf := rfl
@[simp] theorem State.dropOwed_rxlen (s : State) : (s.dropOwed).rxlen = s.rxlen := rfl
@[simp] theorem State.dropOwed_plen (s : State) : (s.dropOwed).plen = s.plen := rfl
@[simp] theorem State.dropOwed_pollT0 (s : State) : (s.dropOwed).pollT0 = s.pollT0 := rfl
@[simp] theorem State.dropOwed_pollTmo (s : State) : (s.dropOwed).pollTmo = s.pollTmo := rfl
@[simp] theorem State.dropOwed_pollLast (s : State) : (s.dropOwed).pollLast = s.pollLast := rfl
@[simp] theorem State.dropOwed_uidbuf (s : State) : (s.dropOwed).uidbuf = s.uidbuf := rfl
@[simp] theorem State.dropOwed_uidlen (s : State) : (s.dropOwed).uidlen = s.uidlen := rfl
@[simp] theorem State.dropOwed_operands (s : State) : (s.dropOwed).operands = s.operands := rfl
@[simp] theorem State.dropOwed_outstanding (s : State) : (s.dropOwed).outstanding = s.outstanding := rfl
@[simp] theorem State.dropOwed_offered (s : State) : (s.dropOwed).offered = s.offered := rfl
@[simp] theorem State.dropOwed_resetLine (s : State) : (s.dropOwed).resetLine = s.resetLine := rfl
@[simp] theorem State.dropOwed_resetOnAccept (s : State) : (s.dropOwed).resetOnAccept = s.resetOnAccept := rfl
@[simp] theorem State.dropOwed_lateAnswer (s : State) : (s.dropOwed).lateAnswer = s.lateAnswer := rfl
@[simp] theorem State.dropOwed_events (s : State) : (s.dropOwed).events = s.events := rfl

/-! ### `State.abandonCall` -/

@[simp] theorem State.abandonCall_cfg (s : State) : (s.abandonCall).cfg = s.cfg := by
  unfold State.abandonCall; split <;> rfl
@[simp] theorem State.abandonCall_busy (s : State) : (s.abandonCall).busy = s.busy := by
  unfold State.abandonCall; split <;> rfl
@[simp] theorem State.abandonCall_curOp (s : State) : (s.abandonCall).curOp = s.curOp := by
  unfold State.abandonCall; split <;> rfl
@[simp] theorem State.abandonCall_phase (s : State) : (s.abandonCall).phase = s.phase := by
  unfold State.abandonCall; split <;> rfl
@[simp] theorem State.abandonCall_cmd (s : State) : (s.abandonCall).cmd = s.cmd := by
  unfold State.abandonCall; split <;> rfl
@[simp] theorem State.abandonCall_txbuf (s : State) : (s.abandonCall).txbuf = s.txbuf := by
  unfold State.abandonCall; split <;> rfl
@[simp] theorem State.abandonCall_txlen (s : State) : (s.abandonCall).txlen = s.txlen := by
  unfold State.abandonCall; split <;> rfl
@[simp] theorem State.abandonCall_ackbuf (s : State) : (s.abandonCall).ackbuf = s.ackbuf := by
  unfold State.abandonCall; split <;> rfl
@[simp] theorem State.abandonCall_hdrbuf (s : State) : (s.abandonCall).hdrbuf = s.hdrbuf := by
  unfold State.abandonCall; split <;> rfl
@[simp] theorem State.abandonCall_rxbuf (s : State) : (s.abandonCall).rxbuf = s.rxbuf := by
  unfold State.abandonCall; split <;> rfl
@[simp] theorem State.abandonCall_rxlen (s : State) : (s.abandonCall).rxlen = s.rxlen := by
  unfold State.abandonCall; split <;> rfl
@[simp] theorem State.abandonCall_plen (s : State) : (s.abandonCall).plen = s.plen := by
  unfold State.abandonCall; split <;> rfl
@[simp] theorem State.abandonCall_pollT0 (s : State) : (s.abandonCall).pollT0 = s.pollT0 := by
  unfold State.abandonCall; split <;> rfl
@[simp] theorem State.abandonCall_pollTmo (s : State) : (s.abandonCall).pollTmo = s.pollTmo := by
  unfold State.abandonCall; split <;> rfl
@[simp] theorem State.abandonCall_pollLast (s : State) : (s.abandonCall).pollLast = s.pollLast := by
  unfold State.abandonCall; split <;> rfl
@[simp] theorem State.abandonCall_uidbuf (s : State) : (s.abandonCall).uidbuf = s.uidbuf := by
  unfold State.abandonCall; split <;> rfl
@[simp] theorem State.abandonCall_uidlen (s : State) : (s.abandonCall).uidlen = s.uidlen := by
  unfold State.abandonCall; split <;> rfl
@[simp] theorem State.abandonCall_operands (s : State) : (s.abandonCall).operands = s.operands := by
  unfold State.abandonCall; split <;> rfl
@[simp] theorem State.abandonCall_outstanding (s : State) : (s.abandonCall).outstanding = s.outstanding := by
  unfold State.abandonCall; split <;> rfl
@[simp] theorem State.abandonCall_offered (s : State) : (s.abandonCall).offered = s.offered := by
  unfold State.abandonCall; split <;> rfl
@[simp] theorem State.abandonCall_resetLine (s : State) : (s.abandonCall).resetLine = s.resetLine := by
  unfold State.abandonCall; split <;> rfl
@[simp] theorem State.abandonCall_resetOnAccept (s : State) : (s.abandonCall).resetOnAccept = s.resetOnAccept := by
  unfold State.abandonCall; split <;> rfl
@[simp] theorem State.abandonCall_lateAnswer (s : State) : (s.abandonCall).lateAnswer = s.lateAnswer := by
  unfold State.abandonCall; split <;> rfl
@[simp] theorem State.abandonCall_events (s : State) : (s.abandonCall).events = s.events := by
  unfold State.abandonCall; split <;> rfl
@[simp] theorem State.abandonCall_writeAnswers (s : State) : (s.abandonCall).writeAnswers = s.writeAnswers := by
  unfold State.abandonCall; split <;> rfl
@[simp] theorem State.abandonCall_rx (s : State) : (s.abandonCall).rx = s.rx := by
  unfold State.abandonCall; split <;> rfl
@[simp] theorem State.abandonCall_clock (s : State) : (s.abandonCall).clock = s.clock := by
  unfold State.abandonCall; split <;> rfl

/-! ### `State.dropAnswer` -/

@[simp] theorem State.dropAnswer_cfg (s : State) : (s.dropAnswer).cfg = s.cfg := by
  simp [State.dropAnswer]
@[simp] theorem State.dropAnswer_busy (s : State) : (s.dropAnswer).busy = s.busy := by
  simp [State.dropAnswer]
@[simp] theorem State.dropAnswer_curOp (s : State) : (s.dropAnswer).curOp = s.curOp := by
  simp [State.dropAnswer]
@[simp] theorem State.dropAnswer_phase (s : State) : (s.dropAnswer).phase = s.phase := by
  simp [State.dropAnswer]
@[simp] theorem State.dropAnswer_cmd (s : State) : (s.dropAnswer).cmd = s.cmd := by
  simp [State.dropAnswer]
@[simp] theorem State.dropAnswer_txbuf (s : State) : (s.dropAnswer).txbuf = s.txbuf := by
  simp [State.dropAnswer]
@[simp] theorem State.dropAnswer_txlen (s : State) : (s.dropAnswer).txlen = s.txlen := by
  simp [State.dropAnswer]
@[simp] theorem State.dropAnswer_ackbuf (s : State) : (s.dropAnswer).ackbuf = s.ackbuf := by
  simp [State.dropAnswer]
@[simp] theorem State.dropAnswer_hdrbuf (s : State) : (s.dropAnswer).hdrbuf = s.hdrbuf := by
  simp [State.dropAnswer]
@[simp] theorem State.dropAnswer_rxbuf (s : State) : (s.dropAnswer).rxbuf = s.rxbuf := by
  simp [State.dropAnswer]
@[simp] theorem State.dropAnswer_rxlen (s : State) : (s.dropAnswer).rxlen = s.rxlen := by
  simp [State.dropAnswer]
@[simp] theorem State.dropAnswer_plen (s : State) : (s.dropAnswer).plen = s.plen := by
  simp [State.dropAnswer]
@[simp] theorem State.dropAnswer_pollT0 (s : State) : (s.dropAnswer).pollT0 = s.pollT0 := by
  simp [State.dropAnswer]
@[simp] theorem State.dropAnswer_pollTmo (s : State) : (s.dropAnswer).pollTmo = s.pollTmo := by
  simp [State.dropAnswer]
@[simp] theorem State.dropAnswer_pollLast (s : State) : (s.dropAnswer).pollLast = s.pollLast := by
  simp [State.dropAnswer]
@[simp] theorem State.dropAnswer_uidbuf (s : State) : (s.dropAnswer).uidbuf = s.uidbuf := by
  simp [State.dropAnswer]
@[simp] theorem State.dropAnswer_uidlen (s : State) : (s.dropAnswer).uidlen = s.uidlen := by
  simp [State.dropAnswer]
@[simp] theorem State.dropAnswer_operands (s : State) : (s.dropAnswer).operands = s.operands := by
  simp [State.dropAnswer]
@[simp] theorem State.dropAnswer_outstanding (s : State) : (s.dropAnswer).outstanding = s.outstanding := by
  simp [State.dropAnswer]
@[simp] theorem State.dropAnswer_offered (s : State) : (s.dropAnswer).offered = s.offered := by
  simp [State.dropAnswer]
@[simp] theorem State.dropAnswer_resetLine (s : State) : (s.dropAnswer).resetLine = s.resetLine := by
  simp [State.dropAnswer]
@[simp] theorem State.dropAnswer_resetOnAccept (s : State) : (s.dropAnswer).resetOnAccept = s.resetOnAccept := by
  simp [State.dropAnswer]
@[simp] theorem State.dropAnswer_lateAnswer (s : State) : (s.dropAnswer).lateAnswer = s.lateAnswer := by
  simp [State.dropAnswer]
@[simp] theorem State.dropAnswer_events (s : State) : (s.dropAnswer).events = s.events := by
  simp [State.dropAnswer]

/-! ### `State.applyReset` -/

@[simp] theorem State.applyReset_cfg (s : State) : (s.applyReset).cfg = s.cfg := by
  simp [State.applyReset]
@[simp] theorem State.applyReset_offered (s : State) : (s.applyReset).offered = s.offered := by
  simp [State.applyReset]
@[simp] theorem State.applyReset_resetOnAccept (s : State) : (s.applyReset).resetOnAccept = s.resetOnAccept := by
  simp [State.applyReset]
@[simp] theorem State.applyReset_lateAnswer (s : State) : (s.applyReset).lateAnswer = s.lateAnswer := by
  simp [State.applyReset]
@[simp] theorem State.applyReset_busy (s : State) : (s.applyReset).busy = false := by
  simp [State.applyReset]
@[simp] theorem State.applyReset_phase (s : State) : (s.applyReset).phase = .idle := by
  simp [State.applyReset]
@[simp] theorem State.applyReset_curOp (s : State) : (s.applyReset).curOp = none := by
  simp [State.applyReset]
@[simp] theorem State.applyReset_operands (s : State) : (s.applyReset).operands = none := by
  simp [State.applyReset]
@[simp] theorem State.applyReset_outstanding (s : State) : (s.applyReset).outstanding = none := by
  simp [State.applyReset]
@[simp] theorem State.applyReset_resetLine (s : State) : (s.applyReset).resetLine = false := by
  simp [State.applyReset]
@[simp] theorem State.applyReset_events (s : State) : (s.applyReset).events = s.events ++ [.reset] := by
  simp [State.applyReset]

/-! ### The two ends of an operation -/

/-- A success leaves the cleared state and two events (10_state.md R22, R43). -/
theorem State.succeed_eq (s : State) (status : Byte) (data : List Byte) :
    s.succeed status data =
      { s.cleared with events := s.events ++ [.result (successMsg status data), .phase .idle] } := by
  simp [State.succeed, State.endOperation, State.log, State.setPhase, State.cleared, State.discardCommand]

/-- A failure leaves the cleared state and three events (60_exceptions.md R314). -/
theorem State.fail_eq (s : State) (e : Failure) :
    s.fail e =
      { s.cleared with
        events := s.events ++ [.phase .failed, .result (failureMsg e s.phase), .phase .idle] } := by
  simp [State.fail, State.endOperation, State.log, State.setPhase, State.cleared, State.discardCommand]

@[simp] theorem State.cleared_cleared (s : State) : s.cleared.cleared = s.cleared := rfl

end Sys2Proof.Machine
end

