-- ==== Sys2Proof/Laws/Wp.lean ====
section
/-! SUPPORT. A rule's weakest precondition, with one lemma per action: what must hold of the state for the rule to end well
(`Q`), or to raise (`R`), and never to meet a bug of the model. -/

namespace Sys2Proof.Machine

variable {α β : Type}

/-- `x` from `s` ends in `Q`, or raises in `R`; it meets no bug. -/
def Rule.wp (x : Rule α) (s : State) (Q : α → State → Prop) (R : Failure → State → Prop) : Prop :=
  match x.run s with
  | .ok a t => Q a t
  | .error (.raised e) t => R e t
  | .error (.bug _) _ => False

variable {s : State} {R : Failure → State → Prop}

/-- What the weakest precondition says of every outcome holds of the outcome. -/
theorem Rule.run_of_wp {x : Rule α} {P : EStateM.Result Stop State α → Prop}
    (h : x.wp s (fun a t => P (.ok a t)) (fun e t => P (.error (.raised e) t))) : P (x.run s) := by
  unfold Rule.wp at h
  cases hx : x.run s with
  | ok a t => rw [hx] at h; exact h
  | error e t =>
    rw [hx] at h
    cases e with
    | raised e => exact h
    | bug f => exact h.elim

theorem Rule.run_eq_of_wp {x : Rule α} {r : EStateM.Result Stop State α}
    (h : x.wp s (fun a t => .ok a t = r) (fun e t => .error (.raised e) t = r)) : x.run s = r :=
  Rule.run_of_wp (P := fun y => y = r) h

theorem Rule.wp_mono {x : Rule α} {Q Q' : α → State → Prop} {R' : Failure → State → Prop}
    (h : x.wp s Q R) (hQ : ∀ a t, Q a t → Q' a t) (hR : ∀ e t, R e t → R' e t) : x.wp s Q' R' := by
  unfold Rule.wp at h ⊢
  split <;> simp_all

@[simp] theorem wp_pure (a : α) (Q : α → State → Prop) : (pure a : Rule α).wp s Q R ↔ Q a s := Iff.rfl

@[simp] theorem wp_bind (x : Rule α) (f : α → Rule β) (Q : β → State → Prop) :
    (x >>= f).wp s Q R ↔ x.wp s (fun a t => (f a).wp t Q R) R := by
  simp only [Rule.wp, Rule.run_bind]
  cases x.run s with
  | ok a t => exact Iff.rfl
  | error e t => cases e <;> exact Iff.rfl

@[simp] theorem wp_map (f : α → β) (x : Rule α) (Q : β → State → Prop) :
    (f <$> x).wp s Q R ↔ x.wp s (fun a t => Q (f a) t) R := by
  have h : (f <$> x : Rule β) = x >>= fun a => pure (f a) := rfl
  rw [h, wp_bind]
  exact Iff.rfl

@[simp] theorem wp_get (Q : State → State → Prop) : (get : Rule State).wp s Q R ↔ Q s s := Iff.rfl

@[simp] theorem wp_modify (f : State → State) (Q : PUnit → State → Prop) :
    (modify f : Rule PUnit).wp s Q R ↔ Q ⟨⟩ (f s) := Iff.rfl

@[simp] theorem wp_raise (e : Failure) (Q : α → State → Prop) : (raise e : Rule α).wp s Q R ↔ R e s := Iff.rfl

@[simp] theorem wp_bug (f : Fault) (Q : α → State → Prop) : (bug f : Rule α).wp s Q R ↔ False := Iff.rfl

@[simp] theorem wp_check (p : Prop) [Decidable p] (e : Failure) (Q : Unit → State → Prop) :
    (check p e).wp s Q R ↔ (p → Q () s) ∧ (¬p → R e s) := by
  by_cases h : p <;> simp [Rule.wp, h]

@[simp] theorem wp_valueOf (x : Option α) (Q : α → State → Prop) :
    (valueOf x).wp s Q R ↔ ∃ a, x = some a ∧ Q a s := by
  cases x <;> simp [Rule.wp]

@[simp] theorem wp_byteAt (p : List Byte) (i : Nat) (Q : Byte → State → Prop) :
    (byteAt p i).wp s Q R ↔ ∃ b, p[i]? = some b ∧ Q b s := by
  simp only [Rule.wp, run_byteAt]
  cases p[i]? <;> simp

@[simp] theorem wp_memRead (b : Buffer) (i n : Nat) (Q : List Byte → State → Prop) :
    (memRead b i n).wp s Q R ↔
      i + n ≤ s.capacity b ∧ ∃ v, readBytes (s.buffer b) i n = some v ∧ Q v s := by
  simp only [Rule.wp, run_memRead]
  by_cases h : i + n ≤ s.capacity b
  · cases readBytes (s.buffer b) i n <;> simp [h]
  · simp [h]

@[simp] theorem wp_memWrite (b : Buffer) (i : Nat) (v : List Byte) (Q : Unit → State → Prop) :
    (memWrite b i v).wp s Q R ↔
      i + v.length ≤ s.capacity b ∧ Q () (s.setBuffer b (writeBytes (s.buffer b) i v)) := by
  simp only [Rule.wp, run_memWrite]
  by_cases h : i + v.length ≤ s.capacity b <;> simp [h]

@[simp] theorem wp_setPhase (p : Phase) (Q : PUnit → State → Prop) :
    (setPhase p).wp s Q R ↔ Q ⟨⟩ (s.setPhase p) := Iff.rfl

@[simp] theorem wp_reply (st : Byte) (d : List Byte) (Q : PUnit → State → Prop) :
    (reply st d).wp s Q R ↔ Q ⟨⟩ (s.succeed st d) := Iff.rfl

@[simp] theorem wp_transportWrite (f : List Byte) (k : Resume) (Q : PUnit → State → Prop) :
    (transportWrite f k).wp s Q R ↔ Q ⟨⟩ { s with outstanding := some ⟨.write f s.cfg.tCall, k⟩ } := Iff.rfl

@[simp] theorem wp_transportRead (n : Nat) (k : Resume) (Q : PUnit → State → Prop) :
    (transportRead n k).wp s Q R ↔ Q ⟨⟩ { s with outstanding := some ⟨.read n s.cfg.tCall, k⟩ } := Iff.rfl

@[simp] theorem wp_clockNow (k : Resume) (Q : PUnit → State → Prop) :
    (clockNow k).wp s Q R ↔ Q ⟨⟩ { s with outstanding := some ⟨.clock, k⟩ } := Iff.rfl

@[simp] theorem wp_ite (p : Prop) [Decidable p] (x y : Rule α) (Q : α → State → Prop) :
    (if p then x else y).wp s Q R ↔ (p → x.wp s Q R) ∧ (¬p → y.wp s Q R) := by
  by_cases h : p <;> simp [h]

end Sys2Proof.Machine
end

