-- ==== Sys2Proof/Laws/Procedures.lean ====
section
/-! SUPPORT. For each procedure of the units, everything it can do, said once. -/

namespace Sys2Proof.Machine

variable {s : State} {R : Failure → State → Prop}

@[simp] theorem zextByte_eq (b : Byte) : zextByte b = b.toNat := rfl

@[simp] theorem zextMillis_eq (t : Millis) : zextMillis t = t.toNat := rfl

/-- What a rule does with a verdict. -/
def afterVerdict {α : Type} (v : Except Failure α) (s : State) (Q : α → Prop) (R : Failure → State → Prop) : Prop :=
  match v with
  | .ok a => Q a
  | .error e => R e s

@[simp] theorem afterVerdict_ok {α : Type} (a : α) (Q : α → Prop) : afterVerdict (.ok a) s Q R ↔ Q a := Iff.rfl

@[simp] theorem afterVerdict_error {α : Type} (e : Failure) (Q : α → Prop) :
    afterVerdict (.error e) s Q R ↔ R e s := Iff.rfl

@[simp] theorem afterVerdict_ite {α : Type} (p : Prop) [Decidable p] (v w : Except Failure α) (Q : α → Prop) :
    afterVerdict (if p then v else w) s Q R ↔ (p → afterVerdict v s Q R) ∧ (¬p → afterVerdict w s Q R) := by
  by_cases h : p <;> simp [h]

/-- A list of a known length is the list of its entries. -/
theorem eq_of_length_five {h : List Byte} (hl : h.length = 5) :
    h = [h.getD 0 0, h.getD 1 0, h.getD 2 0, h.getD 3 0, h.getD 4 0] := by
  match h, hl with
  | [a, b, c, d, e], _ => rfl

/-! ### The validator -/

/-- ValidateHeader answers with the verdict on its five bytes. -/
theorem wp_validateHeader {h : List Byte} (hl : h.length = 5) (Q : Byte → State → Prop) :
    (validateHeader h).wp s Q R ↔ afterVerdict (Verdicts.header s.cfg.rxBodyCap h) s (fun len => Q len s) R := by
  match h, hl with
  | [a, b, c, len, lcs], _ =>
    simp only [validateHeader, Verdicts.header, wp_bind, wp_check, wp_get, wp_pure, afterVerdict_ite,
      afterVerdict_ok, afterVerdict_error]
    simp only [byte_add_eq_zero, zextByte, startSeq]
    simp
    tauto

/-- The body bytes in RXBUF: a read of part of them. -/
theorem wp_readBody {m : Memory} {b : List Byte} {i n : Nat} (hb : s.rxbuf = writeBytes m 0 b)
    (hc : b.length ≤ s.cfg.rxBodyCap) (hn : i + n ≤ b.length) (Q : List Byte → State → Prop) :
    (memRead .rx i n).wp s Q R ↔ Q ((b.drop i).take n) s := by
  have hb' : s.buffer .rx = writeBytes m 0 b := hb
  have hc' : i + n ≤ s.capacity .rx := le_trans hn hc
  simp [hb', hc', readBytes_writeBytes m b i n hn]

/-- The body bytes in RXBUF: a read of one. -/
theorem wp_readBodyByte {m : Memory} {b : List Byte} {i : Nat} (hb : s.rxbuf = writeBytes m 0 b)
    (hc : b.length ≤ s.cfg.rxBodyCap) (hn : i < b.length) (Q : Byte → State → Prop) :
    (memReadByte .rx i).wp s Q R ↔ Q (b.getD i 0) s := by
  have h1 : ((b.drop i).take 1)[0]? = some (b.getD i 0) := by simp [hn]
  simp only [memReadByte, wp_bind, wp_readBody hb hc (show i + 1 ≤ b.length from hn), wp_byteAt, h1]
  simp

/-- ValidateBody answers with the verdict on the body that stands in RXBUF, and sets PLEN. -/
theorem wp_validateBody {m : Memory} {b : List Byte} {len tfi : Byte} (hb : s.rxbuf = writeBytes m 0 b)
    (hl : b.length = len.toNat + 2) (hc : b.length ≤ s.cfg.rxBodyCap) (Q : Unit → State → Prop) :
    (validateBody len tfi).wp s Q R ↔
      afterVerdict (Verdicts.body tfi len b) s (fun _ => Q () { s with plen := some len }) R := by
  have hz : zextByte len = len.toNat := rfl
  simp only [validateBody, Verdicts.body, wp_bind, wp_check, wp_modify, afterVerdict_ite, afterVerdict_ok,
    afterVerdict_error, wp_readBodyByte hb hc (show zextByte len + 1 < b.length by omega),
    wp_readBodyByte hb hc (show 0 < b.length by omega), wp_readBodyByte hb hc (show zextByte len < b.length by omega),
    wp_readBody hb hc (show 0 + zextByte len ≤ b.length by omega)]
  simp only [hz, postamble, sum8_add_eq_zero, List.drop_zero, ne_eq, not_not, ← Nat.not_le]
  tauto

/-- A body whose checks all pass: the payload is its first LEN bytes, at least two. -/
theorem Verdicts.body_ok {tfi len : Byte} {b v : List Byte} (h : Verdicts.body tfi len b = .ok v) :
    v = b.take len.toNat ∧ 2 ≤ len.toNat := by
  simp only [Verdicts.body] at h
  split_ifs at h
  cases h
  exact ⟨rfl, by omega⟩

/-- A header that passes names a body that fits RXBUF. -/
theorem Verdicts.header_ok {cap : Nat} {h : List Byte} {len : Byte} (hv : Verdicts.header cap h = .ok len) :
    len = h.getD 3 0 ∧ len.toNat + 2 ≤ cap := by
  simp only [Verdicts.header] at hv
  split_ifs at hv
  cases hv
  exact ⟨rfl, by omega⟩

/-- The state with a body stored in RXBUF. -/
def State.withBody (s : State) (len : Byte) (b : List Byte) : State :=
  { s with rxbuf := writeBytes s.rxbuf 0 b, rxlen := some (len.toNat + 2) }

/-- The state with a body stored in RXBUF and its payload validated. -/
def State.withPayload (s : State) (len : Byte) (b : List Byte) : State :=
  { s with rxbuf := writeBytes s.rxbuf 0 b, rxlen := some (len.toNat + 2), plen := some len }

theorem wp_storeBody {len : Byte} {b : List Byte} (hc : b.length ≤ s.cfg.rxBodyCap) (Q : Unit → State → Prop) :
    (storeBody len b).wp s Q R ↔ Q () (s.withBody len b) := by
  have hc' : b.length ≤ s.capacity .rx := hc
  simp [storeBody, hc', State.withBody, State.setBuffer, State.buffer]

/-- The validated payload is the first PLEN bytes of the stored body. -/
theorem wp_validatedPayload {m : Memory} {b : List Byte} {len : Byte} (hb : s.rxbuf = writeBytes m 0 b)
    (hp : s.plen = some len) (hc : b.length ≤ s.cfg.rxBodyCap) (hl : len.toNat ≤ b.length)
    (Q : List Byte → State → Prop) : validatedPayload.wp s Q R ↔ Q (b.take len.toNat) s := by
  simp only [validatedPayload, wp_bind, wp_get, wp_valueOf, hp, Option.some.injEq, exists_eq_left',
    wp_readBody hb hc (show 0 + zextByte len ≤ b.length by simpa using hl)]
  rfl

/-- ReadResponse after its body read: the verdict on the body. -/
theorem wp_bodyArrived {len : Byte} {b : List Byte} (hl : b.length = len.toNat + 2)
    (hc : b.length ≤ s.cfg.rxBodyCap) (Q : Unit → State → Prop) :
    (bodyArrived len (.bytes b)).wp s Q R ↔
      afterVerdict (Verdicts.body tfiCtrl len b) (s.withBody len b)
        (fun _ => Q () (s.withPayload len b)) R := by
  simp only [bodyArrived, wp_bind, wp_storeBody hc]
  exact wp_validateBody (s := s.withBody len b) (m := s.rxbuf) rfl hl hc Q

/-- ReadAck after its read of seven bytes. -/
theorem wp_ackArrived {t : List Byte} (hl : t.length = 7) (Q : Unit → State → Prop) :
    (ackArrived (.bytes t)).wp s Q R ↔
      (t.drop 1 = ackSeq → Q () { s with ackbuf := writeBytes s.ackbuf 0 t }) ∧
      (t.drop 1 ≠ ackSeq → R (.ackMismatch (t.drop 1)) { s with ackbuf := writeBytes s.ackbuf 0 t }) := by
  have h1 : 0 + t.length ≤ s.capacity .ack := by simp [State.capacity, hl]
  have h2 : (t.drop 1).take 6 = t.drop 1 := List.take_of_length_le (by simp [hl])
  have h3 := readBytes_writeBytes s.ackbuf t 1 6 (by omega)
  rw [h2] at h3
  have h4 : 1 + 6 ≤ s.capacity .ack := by simp [State.capacity]
  simp only [ackArrived, wp_bind, wp_memWrite, wp_memRead, wp_check, State.capacity_setBuffer,
    State.buffer_setBuffer_self]
  simp only [State.buffer, State.setBuffer, h1, h3, h4, true_and, Option.some.injEq, exists_eq_left', ne_eq]

/-- ReadResponse after its header read of six bytes: the verdict on the five after the status byte. -/
theorem wp_headerArrived {t : List Byte} (hl : t.length = 6) (Q : Unit → State → Prop) :
    (headerArrived (.bytes t)).wp s Q R ↔
      afterVerdict (Verdicts.header s.cfg.rxBodyCap (t.drop 1)) { s with hdrbuf := writeBytes s.hdrbuf 0 t }
        (fun len => Q () { s with
          hdrbuf := writeBytes s.hdrbuf 0 t
          outstanding := some ⟨.read (len.toNat + 2) s.cfg.tCall, .bodyArrived len⟩ }) R := by
  have h1 : 0 + t.length ≤ s.capacity .hdr := by simp [State.capacity, hl]
  have h2 : (t.drop 1).take 5 = t.drop 1 := List.take_of_length_le (by simp [hl])
  have h3 := readBytes_writeBytes s.hdrbuf t 1 5 (by omega)
  rw [h2] at h3
  have h4 : 1 + 5 ≤ s.capacity .hdr := by simp [State.capacity]
  simp only [headerArrived, wp_bind, wp_memWrite, wp_memRead, State.capacity_setBuffer,
    State.buffer_setBuffer_self]
  simp only [State.buffer, State.setBuffer, h1, h3, h4, true_and, Option.some.injEq, exists_eq_left']
  rw [wp_validateHeader (by simp [hl])]
  rfl

/-- DECODE_FRAME's validation: the verdict on the frame. -/
theorem wp_decodeOperand {tfi : Byte} {f : List Byte} {Q : Unit → State → Prop}
    (hok : ∀ len v, Verdicts.frame s.cfg.rxBodyCap tfi f = .ok v → v = (f.drop 5).take len.toNat →
      f.length = len.toNat + 7 → len.toNat + 2 ≤ s.cfg.rxBodyCap →
      Q () (s.withPayload len (f.drop 5)))
    (herr : ∀ e t, Verdicts.frame s.cfg.rxBodyCap tfi f = .error e →
      (t = s ∧ ∀ len, Verdicts.header s.cfg.rxBodyCap f = .ok len → f.length ≠ len.toNat + 7) ∨
        (∃ len, Verdicts.header s.cfg.rxBodyCap f = .ok len ∧ f.length = len.toNat + 7 ∧
          t = s.withBody len (f.drop 5)) → R e t) :
    (decodeOperand tfi f).wp s Q R := by
  have htake : ∀ c, Verdicts.header c (f.take 5) = Verdicts.header c f := by
    intro c
    simp only [Verdicts.header, List.take_take]
    match f with
    | [] => rfl
    | [_] => rfl
    | [_, _] => rfl
    | [_, _, _] => rfl
    | [_, _, _, _] => rfl
    | _ :: _ :: _ :: _ :: _ :: _ => rfl
  simp only [decodeOperand, wp_bind, wp_check]
  refine ⟨fun h5 => ?_, fun h5 => ?_⟩
  · rw [wp_validateHeader (by simp; omega), htake]
    rcases hh : Verdicts.header s.cfg.rxBodyCap f with e | len
    · exact herr e s (by simp [Verdicts.frame, hh]; omega) (.inl ⟨rfl, fun len h => by simp [hh] at h⟩)
    · obtain ⟨-, hcap⟩ := Verdicts.header_ok hh
      rw [afterVerdict_ok]
      refine ⟨fun hl => ?_, fun hl => ?_⟩
      · have hl : f.length = len.toNat + 7 := hl
        have hb : (f.drop 5).length = len.toNat + 2 := by simp; omega
        have hc : (f.drop 5).length ≤ s.cfg.rxBodyCap := by omega
        rw [wp_storeBody hc, wp_validateBody (s := s.withBody len (f.drop 5)) (m := s.rxbuf) rfl hb hc]
        have hf : Verdicts.frame s.cfg.rxBodyCap tfi f = Verdicts.body tfi len (f.drop 5) := by
          simp [Verdicts.frame, hh, hl]
        rcases hv : Verdicts.body tfi len (f.drop 5) with e | v
        · exact herr e _ (by rw [hf, hv]) (.inr ⟨len, hh, hl, rfl⟩)
        · exact hok len v (by rw [hf, hv]) (Verdicts.body_ok hv).1 hl hcap
      · have hl : ¬f.length = len.toNat + 7 := hl
        refine herr _ s (by simp [Verdicts.frame, hh, hl]) (.inl ⟨rfl, fun n h => ?_⟩)
        rw [hh] at h; cases h; exact hl
  · exact herr _ s (by simp [Verdicts.frame]; omega) (.inl ⟨rfl, fun len _ => by omega⟩)

/-! ### The parser -/

/-- ParseTarget answers with the verdict on the payload; only a found target writes UIDBUF and UIDLEN. -/
theorem wp_parseTarget {p : List Byte} {cap : Nat} {Q : Bool → State → Prop} (hcap : cap = s.capacity .uid)
    (hok : Verdicts.target p cap = .ok none → Q false s)
    (hfound : ∀ u : Byte, Verdicts.target p cap = .ok (some ((p.drop 8).take u.toNat)) →
      8 + u.toNat ≤ p.length → u.toNat ≤ cap →
      Q true { s with uidbuf := writeBytes s.uidbuf 0 ((p.drop 8).take u.toNat), uidlen := some u })
    (herr : ∀ e, Verdicts.target p cap = .error e → R e s) :
    (parseTarget p cap).wp s Q R := by
  simp only [parseTarget, wp_bind, wp_check, wp_byteAt, wp_ite, wp_pure, wp_memWrite, wp_modify]
  refine ⟨fun h3 => ⟨p.getD 2 0, ?_, fun h0 => ?_, fun h0 => ⟨fun h1 => ⟨fun h8 => ⟨p.getD 7 0, ?_, ?_⟩, ?_⟩, ?_⟩⟩, ?_⟩
  · simp [show 2 < p.length by omega]
  · exact hok (by simp only [Verdicts.target]; rw [if_neg (by omega), if_pos h0])
  · simp [show 7 < p.length by omega]
  · have hz : ∀ b : Byte, b = 0x00 ↔ b.toNat = 0 := fun b => by rw [← BitVec.toNat_inj]; simp
    refine ⟨fun hu => ⟨fun hend => ⟨fun hc => ⟨?_, ?_⟩, fun hc => ?_⟩, fun hend => ?_⟩, fun hu => ?_⟩ <;>
      try simp only [zextByte_eq] at hend
    all_goals try simp only [zextByte_eq] at hc
    · simp only [← hcap, List.length_take, List.length_drop, zextByte_eq]
      omega
    · refine hfound _ ?_ hend hc
      simp only [Verdicts.target]
      rw [if_neg (by omega), if_neg h0, if_neg (by simpa using h1), if_neg (by omega), if_neg (mt (hz _).mpr hu),
        if_neg (by omega), if_neg (by omega)]
    · refine herr _ ?_
      simp only [Verdicts.target]
      rw [if_neg (by omega), if_neg h0, if_neg (by simpa using h1), if_neg (by omega), if_neg (mt (hz _).mpr hu),
        if_neg (by omega), if_pos (by omega)]
    · refine herr _ ?_
      simp only [Verdicts.target]
      rw [if_neg (by omega), if_neg h0, if_neg (by simpa using h1), if_neg (by omega), if_neg (mt (hz _).mpr hu),
        if_pos (by omega)]
    · refine herr _ ?_
      simp only [Verdicts.target]
      rw [if_neg (by omega), if_neg h0, if_neg (by simpa using h1), if_neg (by omega),
        if_pos ((hz _).mp (not_not.mp hu))]
  · intro h8
    refine herr _ ?_
    simp only [Verdicts.target]
    rw [if_neg (by omega), if_neg h0, if_neg (by simpa using h1), if_pos (by omega)]
  · intro h1
    refine herr _ ?_
    simp only [Verdicts.target]
    rw [if_neg (by omega), if_neg h0, if_pos h1]
  · intro h3
    refine herr _ ?_
    simp only [Verdicts.target]
    rw [if_pos (by omega)]

/-- The reply to a found target is the UID that stands in UIDBUF. -/
theorem wp_replyTarget_true {m : Memory} {u : List Byte} {n : Byte} (hb : s.uidbuf = writeBytes m 0 u)
    (hl : u.length = n.toNat) (hn : s.uidlen = some n) (hc : n.toNat ≤ s.capacity .uid) (Q : Unit → State → Prop) :
    (replyTarget true).wp s Q R ↔ Q () (s.succeed statusOk u) := by
  have h1 : 0 + zextByte n ≤ s.capacity .uid := by simpa using hc
  have h2 : readBytes (s.buffer .uid) 0 (zextByte n) = some u := by
    have := readBytes_writeBytes_all m u
    rw [hl] at this
    simpa [State.buffer, hb] using this
  simp only [replyTarget, if_true, wp_bind, wp_get, wp_valueOf, hn, Option.some.injEq, exists_eq_left', wp_memRead,
    h1, h2, true_and, wp_reply]

theorem wp_replyTarget_false (Q : Unit → State → Prop) :
    (replyTarget false).wp s Q R ↔ Q () (s.succeed statusNoTarget []) := by
  simp [replyTarget]

/-! ### The encoder and Exchange -/

@[simp] theorem commandFrame_length (cmd : Byte) (p : List Byte) : (commandFrame cmd p).length = p.length + 9 := by
  simp [commandFrame]

/-- Encode rejects a long payload with nothing written, and stores the frame of any other. -/
theorem wp_encodeInto (cmd : Byte) (p : List Byte) (Q : Unit → State → Prop) :
    (encodeInto cmd p).wp s Q R ↔
      (p.length ≤ s.cfg.maxPayload →
        Q () { s with txbuf := writeBytes s.txbuf 0 (commandFrame cmd p), txlen := some (p.length + 9) }) ∧
      (¬p.length ≤ s.cfg.maxPayload → R .payloadTooLong s) := by
  simp only [encodeInto, wp_bind, wp_get, wp_check, wp_memWrite, wp_modify, State.capacity]
  constructor
  · rintro ⟨h1, h2⟩
    exact ⟨fun h => (h1 h).2, h2⟩
  · rintro ⟨h1, h2⟩
    exact ⟨fun h => ⟨by simp; omega, h1 h⟩, h2⟩

/-- What stands in TXBUF after an encoding. -/
theorem wp_encodedFrame {m : Memory} {f : List Byte} (hb : s.txbuf = writeBytes m 0 f) (hl : s.txlen = some f.length)
    (hc : f.length ≤ s.cfg.maxPayload + 9) (Q : List Byte → State → Prop) : encodedFrame.wp s Q R ↔ Q f s := by
  have h1 : 0 + f.length ≤ s.capacity .tx := by simpa [State.capacity] using hc
  have h2 : readBytes (s.buffer .tx) 0 f.length = some f := by simp [State.buffer, hb]
  simp only [encodedFrame, wp_bind, wp_get, wp_valueOf, hl, Option.some.injEq, exists_eq_left', wp_memRead, h1, h2,
    true_and]

/-- The state in which Exchange waits for its write. -/
def State.sending (s : State) (cmd : Byte) (p : List Byte) : State :=
  { (({ s with
        cmd := some cmd
        txbuf := writeBytes s.txbuf 0 (commandFrame cmd p)
        txlen := some (p.length + 9) } : State).setPhase .encoded) with
    outstanding := some ⟨.write (commandFrame cmd p) s.cfg.tCall, .frameWritten⟩ }

/-- Exchange up to its write, for a payload that fits. -/
theorem wp_exchange {cmd : Byte} {p : List Byte} (hp : p.length ≤ s.cfg.maxPayload) (Q : Unit → State → Prop) :
    (exchange cmd p).wp s Q R ↔ Q () (s.sending cmd p) := by
  simp only [exchange, wp_bind, wp_modify, wp_encodeInto, hp, true_imp_iff, not_true, false_imp_iff, and_true,
    wp_setPhase]
  rw [wp_encodedFrame (m := s.txbuf) (f := commandFrame cmd p) rfl (by simp) (by simp; omega)]
  exact Iff.rfl

end Sys2Proof.Machine
end

