-- ==== Sys2Proof/Laws/Turn.lean ====
section
/-! SUPPORT. Everything one event can do to a waiting operation: it waits again at a point of its rule, or it has ended with
one RES message. -/

namespace Sys2Proof.Machine

/-! ### Events -/

theorem Track.follow_append (k : Track) (es fs : List Event) :
    k.follow (es ++ fs) = (k.follow es).bind fun j => j.follow fs := by
  induction es generalizing k with
  | nil => rfl
  | cons e es ih => cases h : k.after e <;> simp [Track.follow, h, ih]

/-- A transition of the table is allowed anywhere inside an operation. -/
theorem Track.after_phase {opc : Option Byte} {p q : Phase} (h : phaseStep p q = true) :
    Track.after ⟨opc, p, false⟩ (.phase q) = some ⟨opc, q, false⟩ := by
  simp [Track.after, Track.mayMove, h]

@[simp] theorem acceptances_append (es fs : List Event) : acceptances (es ++ fs) = acceptances es + acceptances fs := by
  induction es with
  | nil => simp [acceptances]
  | cons e es ih => cases e <;> simp only [List.cons_append, acceptances, ih]; omega

@[simp] theorem results_append (es fs : List Event) : results (es ++ fs) = results es + results fs := by
  induction es with
  | nil => simp [results]
  | cons e es ih => cases e <;> simp only [List.cons_append, results, ih]; omega

/-- What the channels and the configuration hold, which no rule changes by itself. -/
structure State.SameOutside (s t : State) : Prop where
  cfg : t.cfg = s.cfg
  offered : t.offered = s.offered
  writeAnswers : t.writeAnswers = s.writeAnswers
  rx : t.rx = s.rx
  clock : t.clock = s.clock
  owed : t.owed = s.owed
  resetLine : t.resetLine = s.resetLine
  resetOnAccept : t.resetOnAccept = s.resetOnAccept
  lateAnswer : t.lateAnswer = s.lateAnswer

/-- `u` is reached from `s` inside the rule of `i`: the operation is still in flight, and it has moved PHASE only along
its transitions. -/
structure Midway (i : Instr) (s u : State) : Prop where
  outside : s.SameOutside u
  busy : u.busy = true
  operands : u.operands = some i
  curOp : u.curOp = s.curOp
  buffers : u.BuffersWf
  uid : u.uidbuf = [] ∧ u.uidlen = none
  events : ∃ new, u.events = s.events ++ new ∧
    Track.follow ⟨i.opcode, s.phase, false⟩ new = some ⟨i.opcode, u.phase, false⟩ ∧ acceptances new = 0 ∧
    results new = 0 ∧ ∀ m, Event.result m ∉ new

/-- `t` is where one event of the rule of `i` leaves `s`. -/
structure Turned (i : Instr) (s t : State) : Prop where
  outside : s.SameOutside t
  events : ∃ new, t.events = s.events ++ new ∧
      Track.follow ⟨i.opcode, s.phase, false⟩ new = some ⟨if t.busy then i.opcode else none, t.phase, false⟩ ∧
      acceptances new = 0 ∧
    results new = (if t.busy then 0 else 1) ∧ ∀ m, Event.result m ∈ new → mayAnswer i m
  waits : t.busy = true → t.operands = some i ∧ t.curOp = s.curOp ∧ t.BuffersWf ∧
    (t.uidbuf = [] ∧ t.uidlen = none) ∧ ∃ c k, t.outstanding = some ⟨c, k⟩ ∧ t.AtPoint i c k
  ended : t.busy = false → t.cleared = t

variable {i : Instr} {s u : State}

theorem Midway.phase (h : Midway i s u) {p : Phase} (hp : phaseStep u.phase p = true) :
    Midway i s (u.setPhase p) := by
  obtain ⟨new, h1, h2, h3, h4, h5⟩ := h.events
  refine ⟨⟨h.outside.1, h.outside.2, h.outside.3, h.outside.4, h.outside.5, h.outside.6,
    h.outside.7, h.outside.8, h.outside.9⟩, h.busy, h.operands, h.curOp,
    h.buffers, h.uid, new ++ [.phase p], by simp [h1], ?_, by simp [h3, acceptances], by simp [h4, results], ?_⟩
  · simp [Track.follow_append, h2, Track.follow, Track.after_phase hp]
  · simpa using h5

theorem Midway.waits (h : Midway i s u) {c : Call} {k : Resume} (hp : u.AtPoint i c k) :
    Turned i s { u with outstanding := some ⟨c, k⟩ } := by
  obtain ⟨new, h1, h2, h3, h4, h5⟩ := h.events
  have hout := h.outside
  refine ⟨⟨hout.1, hout.2, hout.3, hout.4, hout.5, hout.6, hout.7, hout.8, hout.9⟩,
    ⟨new, h1, by simp [h.busy, h2], h3, by simp [h.busy, h4], fun m hm => absurd hm (h5 m)⟩,
    fun _ => ⟨h.operands, h.curOp, h.buffers, h.uid, c, k, rfl, ?_⟩, fun hb => ?_⟩
  · cases k <;> exact hp
  · exact absurd h.busy (by simpa using hb)

theorem Midway.succeed (h : Midway i s u) {st : Byte} {d : List Byte}
    (hp : Track.mayMove ⟨i.opcode, u.phase, true⟩ .idle = true) (hm : mayAnswer i (successMsg st d)) : Turned i s (u.succeed st d) := by
  obtain ⟨new, h1, h2, h3, h4, h5⟩ := h.events
  have hout := h.outside
  rw [State.succeed_eq]
  refine ⟨⟨hout.1, hout.2, hout.3, hout.4, hout.5, hout.6, hout.7, hout.8, hout.9⟩,
    ⟨new ++ [.result (successMsg st d), .phase .idle], by simp [h1], ?_, by simp [h3, acceptances],
      by simp [h4, results], ?_⟩, fun hb => ?_, fun _ => rfl⟩
  · simp [Track.follow_append, h2, Track.follow, Track.after, hp]
  · intro m hm'
    simp only [List.mem_append, List.mem_cons, reduceCtorEq, or_false, List.not_mem_nil, Event.result.injEq] at hm'
    rcases hm' with hm' | rfl
    · exact absurd hm' (h5 m)
    · exact hm
  · simp at hb

theorem Midway.fail (h : Midway i s u) {e : Failure} (hp : phaseStep u.phase .failed = true)
    (he : mayRaise i e = true) (hf : mayFailIn i u.phase = true) : Turned i s (u.fail e) := by
  obtain ⟨new, h1, h2, h3, h4, h5⟩ := h.events
  have hout := h.outside
  rw [State.fail_eq]
  refine ⟨⟨hout.1, hout.2, hout.3, hout.4, hout.5, hout.6, hout.7, hout.8, hout.9⟩,
    ⟨new ++ [.phase .failed, .result (failureMsg e u.phase), .phase .idle], by simp [h1], ?_, by simp [h3, acceptances],
      by simp [h4, results], ?_⟩, fun hb => ?_, fun _ => rfl⟩
  · simp only [Track.follow_append, h2, Option.bind_some, Track.follow, Track.after_phase hp]; rfl
  · intro m hm'
    simp only [List.mem_append, List.mem_cons, reduceCtorEq, or_false, false_or, List.not_mem_nil,
      Event.result.injEq] at hm'
    rcases hm' with hm' | rfl
    · exact absurd hm' (h5 m)
    · exact .inr (.inr ⟨e, u.phase, he, hf, rfl⟩)
  · simp at hb

/-- A write of anything but a buffer, PHASE, the events and the frame of the operation keeps Midway. -/
theorem Midway.of_eq {v : State} (h : Midway i s u) (hout : u.SameOutside v) (hb : v.busy = u.busy)
    (ho : v.operands = u.operands) (hc : v.curOp = u.curOp) (hbuf : v.BuffersWf)
    (hu : v.uidbuf = u.uidbuf ∧ v.uidlen = u.uidlen) (hp : v.phase = u.phase) (he : v.events = u.events) :
    Midway i s v := by
  refine ⟨⟨hout.1.trans h.outside.1, hout.2.trans h.outside.2, hout.3.trans h.outside.3, hout.4.trans h.outside.4,
    hout.5.trans h.outside.5, hout.6.trans h.outside.6, hout.7.trans h.outside.7, hout.8.trans h.outside.8,
    hout.9.trans h.outside.9⟩, hb.trans h.busy, ho.trans h.operands, hc.trans h.curOp, hbuf,
    ⟨hu.1.trans h.uid.1, hu.2.trans h.uid.2⟩, ?_⟩
  obtain ⟨new, h1, h2, h3⟩ := h.events
  exact ⟨new, he.trans h1, by rw [hp]; exact h2, h3⟩

/-- An operation of the dispatcher that has a command in flight. -/
theorem mayCommand_cases {c : Byte} (h : mayCommand i c = true) :
    (i = .beginOp ∧ (c = cmdGfv ∨ c = cmdSam)) ∨ (i = .getFirmwareVersion ∧ c = cmdGfv) ∨
      (i = .configureSam ∧ c = cmdSam) ∨ (∃ t, i = .readPassiveTargetA t ∧ c = cmdInlpt) := by
  cases i <;> simp_all [mayCommand]

/-- A dispatcher operation has a response bound. -/
theorem responseBound_of_mayCommand {c : Byte} (h : mayCommand i c = true) :
    ∃ t, responseBound (some i) = some t := by
  rcases mayCommand_cases h with ⟨rfl, -⟩ | ⟨rfl, -⟩ | ⟨rfl, -⟩ | ⟨t, rfl, -⟩ <;> exact ⟨_, rfl⟩

theorem mayRaise_exchange {c : Byte} (h : mayCommand i c = true) {e : Failure} (he : exchangeFailure e = true) :
    mayRaise i e = true := by
  rcases mayCommand_cases h with ⟨rfl, -⟩ | ⟨rfl, -⟩ | ⟨rfl, -⟩ | ⟨t, rfl, -⟩ <;> simp [mayRaise, he]

theorem mayFailIn_dispatcher {c : Byte} (h : mayCommand i c = true) {p : Phase}
    (hp : p = .encoded ∨ p = .ackPending ∨ p = .responsePending) : mayFailIn i p = true := by
  obtain ⟨t, ht⟩ := responseBound_of_mayCommand h
  rcases hp with rfl | rfl | rfl <;> simp [mayFailIn, ht]

theorem responseFailure_exchange {e : Failure} (h : responseFailure e = true) : exchangeFailure e = true := by
  simp [exchangeFailure, h]

theorem Verdicts.header_error {cap : Nat} {h : List Byte} {e : Failure} (hv : Verdicts.header cap h = .error e) :
    responseFailure e = true := by
  simp only [Verdicts.header] at hv
  split_ifs at hv <;> cases hv <;> rfl

theorem Verdicts.body_error {tfi len : Byte} {b : List Byte} {e : Failure} (hv : Verdicts.body tfi len b = .error e) :
    responseFailure e = true := by
  simp only [Verdicts.body] at hv
  split_ifs at hv <;> cases hv <;> rfl

theorem Verdicts.target_error {p : List Byte} {cap : Nat} {e : Failure} (hv : Verdicts.target p cap = .error e) :
    parseFailure e = true := by
  simp only [Verdicts.target] at hv
  split_ifs at hv <;> cases hv <;> rfl

theorem Verdicts.frame_error {cap : Nat} {tfi : Byte} {f : List Byte} {e : Failure}
    (hv : Verdicts.frame cap tfi f = .error e) : e = .badFrameLength ∨ responseFailure e = true := by
  simp only [Verdicts.frame] at hv
  split at hv
  · cases hv; exact .inl rfl
  · split at hv
    · rename_i hh; cases hv; exact .inr (Verdicts.header_error hh)
    · split at hv
      · cases hv; exact .inl rfl
      · exact .inr (Verdicts.body_error hv)

/-! ### The pieces of the rules -/

variable {s₀ : State}

/-- The two ways a rule piece of `i` can leave `s₀`. -/
abbrev Turns (i : Instr) (s₀ : State) (r : Rule Unit) (s : State) : Prop :=
  r.wp s (fun _ t => Turned i s₀ t) (fun e t => Turned i s₀ (t.fail e))

/-- PollReady begins. -/
theorem turns_pollStart {tmo : Millis} (h : Midway i s₀ s)
    (hp : ({ s with pollTmo := some tmo } : State).InPoll i) : Turns i s₀ (pollStart tmo) s := by
  simp only [Turns, pollStart, wp_bind, wp_modify, wp_clockNow]
  exact Midway.waits (k := .pollStarted) (u := { s with pollTmo := some tmo })
    (h.of_eq ⟨rfl, rfl, rfl, rfl, rfl, rfl, rfl, rfl, rfl⟩ rfl rfl rfl h.buffers ⟨rfl, rfl⟩ rfl rfl) ⟨rfl, hp⟩

theorem turns_pollSample (h : Midway i s₀ s) (hp : s.InPoll i) (h0 : ∃ t0, s.pollT0 = some t0) :
    Turns i s₀ pollSample s := by
  simp only [Turns, pollSample, wp_transportRead]
  exact h.waits (k := .sampled) ⟨rfl, hp, h0⟩

/-- An operation that polls can fail where it does. -/
theorem fail_of_inPoll (h : Midway i s₀ s) (hp : s.InPoll i) {e : Failure}
    (he : e = .readFailed ∨ ∃ b, e = .timeout b) : Turned i s₀ (s.fail e) := by
  simp only [State.InPoll] at hp
  split at hp
  · rename_i hph
    obtain ⟨t, rfl, -⟩ := hp
    refine h.fail (by rw [hph]; rfl) ?_ (by rw [hph]; rfl)
    rcases he with rfl | ⟨b, rfl⟩ <;> rfl
  · rename_i hph
    obtain ⟨⟨c, -, hc⟩, -⟩ := hp
    refine h.fail (by rw [hph]; rfl) (mayRaise_exchange hc ?_) (mayFailIn_dispatcher hc (.inr (.inl hph)))
    rcases he with rfl | ⟨b, rfl⟩ <;> rfl
  · rename_i hph
    obtain ⟨⟨c, -, hc⟩, -⟩ := hp
    refine h.fail (by rw [hph]; rfl) (mayRaise_exchange hc ?_) (mayFailIn_dispatcher hc (.inr (.inr hph)))
    rcases he with rfl | ⟨b, rfl⟩ <;> rfl
  · exact hp.elim

theorem turns_pollTimed {t : Nat} (h : Midway i s₀ s) (hp : s.InPoll i) (h0 : ∃ t0, s.pollT0 = some t0)
    (hl : ∃ b, s.pollLast = some b) : Turns i s₀ (pollTimed t) s := by
  obtain ⟨t0, h0⟩ := h0
  obtain ⟨b, hl⟩ := hl
  obtain ⟨m, hm⟩ : ∃ m, s.pollTmo = some m := by
    have hp' := hp
    simp only [State.InPoll] at hp'
    split at hp'
    · obtain ⟨t, -, ht⟩ := hp'; exact ⟨t, ht⟩
    · exact ⟨_, hp'.2⟩
    · obtain ⟨⟨c, -, hc⟩, ht⟩ := hp'
      obtain ⟨t, ht'⟩ := responseBound_of_mayCommand hc
      exact ⟨t, ht.trans ht'⟩
    · exact hp'.elim
  simp only [Turns, pollTimed, wp_bind, wp_get, wp_valueOf, h0, hm, hl, Option.some.injEq, exists_eq_left', wp_check]
  exact ⟨fun _ => turns_pollSample h hp ⟨t0, h0⟩, fun _ => fail_of_inPoll h hp (.inr ⟨b, rfl⟩)⟩

/-- Where a poll goes on when it is Ready. -/
def pollNext : Phase → Rule Unit
  | .idle => reply statusOk []
  | .ackPending => readAckStart
  | .responsePending => readResponseStart
  | _ => bug .noSuchPoint

theorem wp_afterPoll {R : Failure → State → Prop} (Q : Unit → State → Prop) :
    afterPoll.wp s Q R ↔ (pollNext s.phase).wp s Q R := by
  simp only [afterPoll, wp_bind, wp_get]
  cases s.phase <;> exact Iff.rfl

theorem turns_afterPoll (h : Midway i s₀ s) (hp : s.InPoll i) : Turns i s₀ afterPoll s := by
  have hp' := hp
  simp only [State.InPoll] at hp'
  rw [Turns, wp_afterPoll]
  split at hp'
  · rename_i hph
    rw [hph]
    exact h.succeed (by obtain ⟨_, rfl, -⟩ := hp'; rw [hph]; rfl) (.inl ⟨_, rfl⟩)
  · rename_i hph
    rw [hph]
    exact h.waits (k := .ackArrived) ⟨rfl, by simp only [State.InAck, hph]; exact hp'.1⟩
  · rename_i hph
    rw [hph]
    exact h.waits (k := .headerArrived) ⟨rfl, by simp only [State.InResponse, hph]; exact hp'.1⟩
  · exact hp'.elim

theorem turns_pollSampled {t : List Byte} (h : Midway i s₀ s) (hp : s.InPoll i) (h0 : ∃ t0, s.pollT0 = some t0)
    (ht : t.length = 1) : Turns i s₀ (pollSampled afterPoll (.bytes t)) s := by
  have h1 : t[0]? = some t[0] := by simp [ht]
  simp only [Turns, pollSampled, wp_bind, wp_byteAt, h1, Option.some.injEq, exists_eq_left', wp_modify, wp_ite]
  have hm : Midway i s₀ { s with pollLast := some t[0] } :=
    h.of_eq ⟨rfl, rfl, rfl, rfl, rfl, rfl, rfl, rfl, rfl⟩ rfl rfl rfl h.buffers ⟨rfl, rfl⟩ rfl rfl
  refine ⟨fun _ => turns_afterPoll hm hp, fun _ => ?_⟩
  rw [wp_clockNow]
  exact hm.waits ⟨rfl, hp, h0, _, rfl⟩

theorem turns_ackAccepted (h : Midway i s₀ s) (hph : s.phase = .ackPending) (hx : s.InExchange i) :
    Turns i s₀ ackAccepted s := by
  obtain ⟨c, hc, hi⟩ := hx
  obtain ⟨t, ht⟩ := responseBound_of_mayCommand hi
  have ho := h.operands
  have h1 : Midway i s₀ ((s.setPhase .ackOk).setPhase .responsePending) :=
    (h.phase (by rw [hph]; rfl)).phase rfl
  simp only [Turns, ackAccepted, wp_bind, wp_setPhase, wp_get, State.setPhase_operands, ho, ht, wp_pure]
  exact turns_pollStart h1 ⟨⟨c, hc, hi⟩, ht.symm⟩

/-- Where ReadAck goes on. -/
def ackNext : Phase → Rule Unit
  | .idle => reply statusOk []
  | .ackPending => ackAccepted
  | _ => bug .noSuchPoint

theorem wp_afterAck {R : Failure → State → Prop} (Q : Unit → State → Prop) :
    afterAck.wp s Q R ↔ (ackNext s.phase).wp s Q R := by
  simp only [afterAck, wp_bind, wp_get]
  cases s.phase <;> exact Iff.rfl

theorem turns_ackArrived {t : List Byte} (h : Midway i s₀ s) (hp : s.InAck i) (ht : t.length = 7) :
    Turns i s₀ (do ackArrived (.bytes t); afterAck) s := by
  simp only [Turns, wp_bind, wp_ackArrived ht]
  have hm : Midway i s₀ { s with ackbuf := writeBytes s.ackbuf 0 t } :=
    h.of_eq ⟨rfl, rfl, rfl, rfl, rfl, rfl, rfl, rfl, rfl⟩ rfl rfl rfl
      ⟨h.buffers.1, writeBytes_wf h.buffers.2.1 0 t, h.buffers.2.2⟩ ⟨rfl, rfl⟩ rfl rfl
  simp only [State.InAck] at hp
  refine ⟨fun _ => ?_, fun _ => ?_⟩
  · rw [wp_afterAck]
    split at hp
    · rename_i hph
      rw [show ackNext _ = ackNext .idle from congrArg ackNext hph]
      exact hm.succeed (by subst hp; simp only [hph]; rfl) (.inl ⟨_, rfl⟩)
    · rename_i hph
      rw [show ackNext _ = ackNext .ackPending from congrArg ackNext hph]
      exact turns_ackAccepted hm hph hp
    · exact hp.elim
  · split at hp
    · rename_i hph
      subst hp
      exact hm.fail (by simp only [hph]; rfl) rfl (by simp only [hph]; rfl)
    · rename_i hph
      obtain ⟨c, -, hc⟩ := hp
      exact hm.fail (by simp only [hph]; rfl) (mayRaise_exchange hc rfl) (mayFailIn_dispatcher hc (.inr (.inl hph)))
    · exact hp.elim

/-- A failed response check ends the operation that reads the response. -/
theorem fail_of_inResponse (h : Midway i s₀ s) (hp : s.InResponse i) {e : Failure}
    (he : e = .readFailed ∨ responseFailure e = true) : Turned i s₀ (s.fail e) := by
  simp only [State.InResponse] at hp
  split at hp
  · rename_i hph
    subst hp
    refine h.fail (by rw [hph]; rfl) ?_ (by rw [hph]; rfl)
    rcases he with rfl | he
    · rfl
    · simp [mayRaise, he]
  · rename_i hph
    obtain ⟨c, -, hc⟩ := hp
    refine h.fail (by rw [hph]; rfl) (mayRaise_exchange hc ?_) (mayFailIn_dispatcher hc (.inr (.inr hph)))
    rcases he with rfl | he
    · rfl
    · exact responseFailure_exchange he
  · exact hp.elim

theorem turns_headerArrived {t : List Byte} (h : Midway i s₀ s) (hp : s.InResponse i) (ht : t.length = 6) :
    Turns i s₀ (headerArrived (.bytes t)) s := by
  simp only [Turns]
  rw [wp_headerArrived ht]
  have hm : Midway i s₀ { s with hdrbuf := writeBytes s.hdrbuf 0 t } :=
    h.of_eq ⟨rfl, rfl, rfl, rfl, rfl, rfl, rfl, rfl, rfl⟩ rfl rfl rfl
      ⟨h.buffers.1, h.buffers.2.1, writeBytes_wf h.buffers.2.2.1 0 t, h.buffers.2.2.2⟩ ⟨rfl, rfl⟩ rfl rfl
  rcases hv : Verdicts.header s.cfg.rxBodyCap (t.drop 1) with e | len
  · exact fail_of_inResponse hm hp (.inr (Verdicts.header_error hv))
  · exact hm.waits ⟨rfl, (Verdicts.header_ok hv).2, hp⟩

theorem Midway.withBody (h : Midway i s₀ s) (len : Byte) (b : List Byte) : Midway i s₀ (s.withBody len b) :=
  h.of_eq ⟨rfl, rfl, rfl, rfl, rfl, rfl, rfl, rfl, rfl⟩ rfl rfl rfl
    ⟨h.buffers.1, h.buffers.2.1, h.buffers.2.2.1, writeBytes_wf h.buffers.2.2.2.1 0 b, h.buffers.2.2.2.2⟩
    ⟨rfl, rfl⟩ rfl rfl

theorem Midway.withPayload (h : Midway i s₀ s) (len : Byte) (b : List Byte) : Midway i s₀ (s.withPayload len b) :=
  h.of_eq ⟨rfl, rfl, rfl, rfl, rfl, rfl, rfl, rfl, rfl⟩ rfl rfl rfl
    ⟨h.buffers.1, h.buffers.2.1, h.buffers.2.2.1, writeBytes_wf h.buffers.2.2.2.1 0 b, h.buffers.2.2.2.2⟩
    ⟨rfl, rfl⟩ rfl rfl

/-- Exchange begins, with a payload that fits, where PHASE is Idle. -/
theorem turns_exchange {cmd : Byte} (h : Midway i s₀ s) (hph : s.phase = .idle) (hi : mayCommand i cmd = true)
    (hp : (commandPayload s.cfg cmd).length ≤ s.cfg.maxPayload) :
    Turns i s₀ (exchange cmd (commandPayload s.cfg cmd)) s := by
  rw [Turns, wp_exchange hp]
  have h1 : Midway i s₀ ({ s with
      cmd := some cmd
      txbuf := writeBytes s.txbuf 0 (commandFrame cmd (commandPayload s.cfg cmd))
      txlen := some ((commandPayload s.cfg cmd).length + 9) } : State) :=
    h.of_eq ⟨rfl, rfl, rfl, rfl, rfl, rfl, rfl, rfl, rfl⟩ rfl rfl rfl ⟨writeBytes_wf h.buffers.1 0 _, h.buffers.2⟩ ⟨rfl, rfl⟩ rfl rfl
  exact (h1.phase (p := .encoded) (by simp only [hph]; rfl)).waits ⟨rfl, cmd, rfl, hi, rfl⟩

theorem turns_samExchange (h : Midway i s₀ s) (hcfg : s.cfg.InRange) (hph : s.phase = .idle)
    (hi : mayCommand i cmdSam = true) : Turns i s₀ samExchange s := by
  simp only [Turns, samExchange, wp_bind, wp_get]
  exact turns_exchange h hph hi hcfg.1

/-! ### The ends of the dispatcher commands -/

theorem mayRaise_target {t : Millis} {e : Failure} (h : parseFailure e = true) :
    mayRaise (.readPassiveTargetA t) e = true := by
  simp [mayRaise, h]

theorem turns_samFinish (h : Midway i s₀ s) (hph : s.phase = .responsePending) : Turns i s₀ samFinish s := by
  simp only [Turns, samFinish, wp_bind, wp_setPhase, wp_reply]
  exact (h.phase (by rw [hph]; rfl)).succeed rfl (.inl ⟨_, rfl⟩)

/-- GetFirmwareVersion's success criterion: PHASE goes to Done, or the command fails. -/
theorem wp_gfvCriterion {R : Failure → State → Prop} {n : Byte} (hn : s.plen = some n) (Q : Unit → State → Prop) :
    gfvCriterion.wp s Q R ↔ (n = 6 → Q () (s.setPhase .done)) ∧ (n ≠ 6 → R (.badPayloadShape n) s) := by
  simp only [gfvCriterion, wp_bind, wp_get, wp_valueOf, hn, Option.some.injEq, exists_eq_left', wp_check,
    wp_setPhase, ne_eq]

theorem turns_gfvFinish {m : Memory} {b : List Byte} {n : Byte} (h : Midway .getFirmwareVersion s₀ s)
    (hph : s.phase = .responsePending) (hn : s.plen = some n) (hb : s.rxbuf = writeBytes m 0 b)
    (hl : b.length = n.toNat + 2) (hc : b.length ≤ s.cfg.rxBodyCap) :
    Turns .getFirmwareVersion s₀ gfvFinish s := by
  simp only [Turns, gfvFinish, wp_bind, wp_gfvCriterion hn]
  refine ⟨fun h6 => ?_, fun _ => h.fail (by rw [hph]; rfl) rfl (by rw [hph]; rfl)⟩
  rw [wp_readBody (s := s.setPhase .done) (m := m) (b := b) hb hc (by subst h6; simp [hl]), wp_reply]
  exact (h.phase (by rw [hph]; rfl)).succeed rfl (.inl ⟨_, rfl⟩)

theorem turns_targetFinish {t : Millis} {m : Memory} {b : List Byte} {n : Byte}
    (h : Midway (.readPassiveTargetA t) s₀ s) (hph : s.phase = .responsePending) (hn : s.plen = some n)
    (hb : s.rxbuf = writeBytes m 0 b) (hl : b.length = n.toNat + 2) (hc : b.length ≤ s.cfg.rxBodyCap) :
    Turns (.readPassiveTargetA t) s₀ targetFinish s := by
  have hu : s.cfg.uidCap = s.capacity .uid := by simp [State.capacity, h.operands, uidCapacity]
  simp only [Turns, targetFinish, wp_bind, wp_get]
  rw [wp_validatedPayload hb hn hc (by omega)]
  refine wp_parseTarget hu (fun _ => ?_) (fun u hv hu8 huc => ?_) (fun e he => ?_)
  · rw [wp_setPhase, wp_replyTarget_false]
    exact (h.phase (by rw [hph]; rfl)).succeed rfl (.inr (.inl ⟨rfl, rfl⟩))
  · rw [wp_setPhase, wp_replyTarget_true (m := s.uidbuf) (n := u) rfl (by simp at hu8 ⊢; omega) rfl (hu ▸ huc)]
    -- the UID is in UIDBUF only until the reply that ends the operation
    have h0 := (h.phase (p := .done) (by rw [hph]; rfl)).succeed (st := statusOk)
      (d := ((b.take n.toNat).drop 8).take u.toNat) rfl (.inl ⟨_, rfl⟩)
    rw [State.succeed_eq] at h0 ⊢
    exact h0
  · exact h.fail (by rw [hph]; rfl) (mayRaise_target (Verdicts.target_error he)) (by rw [hph]; rfl)

theorem turns_beginFinish {c n : Byte} (h : Midway .beginOp s₀ s) (hcfg : s.cfg.InRange)
    (hph : s.phase = .responsePending) (hn : s.plen = some n) :
    Turns .beginOp s₀ (beginFinish c) s := by
  simp only [Turns, beginFinish, wp_ite, wp_bind, wp_gfvCriterion hn, wp_setPhase, wp_modify]
  refine ⟨fun _ => ⟨fun _ => ?_, fun _ => h.fail (by rw [hph]; rfl) rfl (by rw [hph]; rfl)⟩,
    fun _ => turns_samFinish h hph⟩
  have h1 : Midway .beginOp s₀ ((s.setPhase .done).setPhase .idle) := (h.phase (by rw [hph]; rfl)).phase rfl
  refine turns_samExchange (h1.of_eq ⟨rfl, rfl, rfl, rfl, rfl, rfl, rfl, rfl, rfl⟩ rfl rfl rfl ?_ ⟨rfl, rfl⟩ rfl rfl) hcfg rfl rfl
  exact ⟨List.Pairwise.nil, List.Pairwise.nil, List.Pairwise.nil, List.Pairwise.nil, h.buffers.2.2.2.2⟩

/-- Where ReadResponse goes on. -/
def responseNext : Phase → Rule Unit
  | .idle => do reply statusOk (← validatedPayload)
  | .responsePending => responseAccepted
  | _ => bug .noSuchPoint

theorem wp_afterResponse {R : Failure → State → Prop} (Q : Unit → State → Prop) :
    afterResponse.wp s Q R ↔ (responseNext s.phase).wp s Q R := by
  simp only [afterResponse, wp_bind, wp_get]
  cases s.phase <;> exact Iff.rfl

theorem turns_responseAccepted {m : Memory} {b : List Byte} {n : Byte} (h : Midway i s₀ s) (hcfg : s.cfg.InRange)
    (hph : s.phase = .responsePending) (hx : s.InExchange i) (hn : s.plen = some n) (hb : s.rxbuf = writeBytes m 0 b)
    (hl : b.length = n.toNat + 2) (hc : b.length ≤ s.cfg.rxBodyCap) : Turns i s₀ responseAccepted s := by
  obtain ⟨c, hcmd, hi⟩ := hx
  simp only [Turns, responseAccepted, wp_bind, wp_get, wp_valueOf, hcmd, Option.some.injEq, exists_eq_left', wp_check,
    wp_readBodyByte hb hc (show 1 < b.length by omega)]
  refine ⟨fun _ => ?_, fun _ => h.fail (by rw [hph]; rfl) (mayRaise_exchange hi ?_)
    (mayFailIn_dispatcher hi (.inr (.inr hph)))⟩
  · rw [h.operands]
    rcases mayCommand_cases hi with ⟨rfl, -⟩ | ⟨rfl, -⟩ | ⟨rfl, -⟩ | ⟨t, rfl, -⟩
    · exact turns_beginFinish h hcfg hph hn
    · exact turns_gfvFinish h hph hn hb hl hc
    · exact turns_samFinish h hph
    · exact turns_targetFinish h hph hn hb hl hc
  · simp [exchangeFailure, mismatchFailure]

theorem turns_bodyArrived {len : Byte} {b : List Byte} (h : Midway i s₀ s) (hcfg : s.cfg.InRange)
    (hp : s.InResponse i) (hl : b.length = len.toNat + 2) (hc : b.length ≤ s.cfg.rxBodyCap) :
    Turns i s₀ (do bodyArrived len (.bytes b); afterResponse) s := by
  rw [Turns, wp_bind, wp_bodyArrived hl hc]
  rcases hv : Verdicts.body tfiCtrl len b with e | v
  · exact fail_of_inResponse (h.withBody len b) hp (.inr (Verdicts.body_error hv))
  · have hm := h.withPayload len b
    rw [afterVerdict_ok, wp_afterResponse]
    simp only [State.InResponse] at hp
    split at hp
    · rename_i hph
      rw [show responseNext (s.withPayload len b).phase = responseNext .idle from congrArg responseNext hph]
      simp only [responseNext, wp_bind, wp_reply]
      rw [wp_validatedPayload (s := s.withPayload len b) (m := s.rxbuf) (b := b) (len := len) rfl rfl hc (by omega)]
      exact hm.succeed (by subst hp; rw [show (s.withPayload len b).phase = .idle from hph]; rfl) (.inl ⟨_, rfl⟩)
    · rename_i hph
      rw [show responseNext (s.withPayload len b).phase = responseNext .responsePending from congrArg responseNext hph]
      exact turns_responseAccepted hm hcfg hph hp rfl (m := s.rxbuf) rfl hl hc
    · exact hp.elim

/-! ### One event -/

/-- An answer that an agent can give to a call. -/
def Answer.Fits : Call → Answer → Prop
  | .write _ _, .written _ => True
  | .read n _, .bytes t => t.length = n
  | .read _ _, .readFailed => True
  | .clock, .time _ => True
  | _, _ => False

/-- An operation that waits at a point of its rule goes on from any answer its call can have. -/
theorem turns_resume {c : Call} {k : Resume} {a : Answer} (h : Midway i s₀ s) (hcfg : s.cfg.InRange)
    (hp : s.AtPoint i c k) (ha : a.Fits c) : Turns i s₀ (resume k a) s := by
  cases k with
  | frameWritten =>
    obtain ⟨hph, cmd, hcmd, hi, rfl⟩ := hp
    match a, ha with
    | .written false, _ =>
      exact h.fail (by rw [hph]; rfl) (mayRaise_exchange hi rfl) (mayFailIn_dispatcher hi (.inl hph))
    | .written true, _ =>
      simp only [Turns, resume, frameWritten, wp_bind, wp_setPhase]
      exact turns_pollStart ((h.phase (p := .transmitted) (by rw [hph]; rfl)).phase (p := .ackPending) rfl)
        ⟨⟨cmd, hcmd, hi⟩, rfl⟩
  | pollStarted =>
    obtain ⟨rfl, hp⟩ := hp
    match a, ha with
    | .time t, _ =>
      simp only [Turns, resume, pollStarted, wp_bind, wp_modify]
      exact turns_pollSample (h.of_eq ⟨rfl, rfl, rfl, rfl, rfl, rfl, rfl, rfl, rfl⟩ rfl rfl rfl h.buffers ⟨rfl, rfl⟩ rfl rfl) hp
        ⟨t, rfl⟩
  | sampled =>
    obtain ⟨rfl, hp, h0⟩ := hp
    match a, ha with
    | .bytes t, ht => exact turns_pollSampled h hp h0 ht
    | .readFailed, _ => exact fail_of_inPoll h hp (.inl rfl)
  | timed =>
    obtain ⟨rfl, hp, h0, hl⟩ := hp
    match a, ha with
    | .time t, _ => exact turns_pollTimed h hp h0 hl
  | ackArrived =>
    obtain ⟨rfl, hp⟩ := hp
    match a, ha with
    | .bytes t, ht => exact turns_ackArrived h hp ht
    | .readFailed, _ =>
      simp only [State.InAck] at hp
      show Turned i s₀ (s.fail .readFailed)
      split at hp
      · rename_i hph
        subst hp
        exact h.fail (by rw [hph]; rfl) rfl (by rw [hph]; rfl)
      · rename_i hph
        obtain ⟨c, -, hi⟩ := hp
        exact h.fail (by rw [hph]; rfl) (mayRaise_exchange hi rfl) (mayFailIn_dispatcher hi (.inr (.inl hph)))
      · exact hp.elim
  | headerArrived =>
    obtain ⟨rfl, hp⟩ := hp
    match a, ha with
    | .bytes t, ht => exact turns_headerArrived h hp ht
    | .readFailed, _ => exact fail_of_inResponse h hp (.inl rfl)
  | bodyArrived len =>
    obtain ⟨rfl, hc, hp⟩ := hp
    match a, ha with
    | .bytes t, ht =>
      have ht : t.length = len.toNat + 2 := ht
      exact turns_bodyArrived h hcfg hp ht (by simpa [ht] using hc)
    | .readFailed, _ => exact fail_of_inResponse h hp (.inl rfl)

end Sys2Proof.Machine
end

