-- ==== Sys2Proof/Laws/Engine.lean ====
section
/-! SUPPORT. How events chain: what an answer takes from its channel, what one turn does, and when a run stops. -/

namespace Sys2Proof.Machine

variable {s t : State}

/-! ### Answers -/

theorem takeRead_bytes {n : Nat} {ts rest : List RxToken} {b : List Byte}
    (h : takeRead n ts = some (.bytes b, rest)) : b.length = n ∧ ts = b.map .byte ++ rest := by
  induction n generalizing ts b with
  | zero => simp [takeRead] at h; simp [h]
  | succ n ih =>
    match ts with
    | [] => simp [takeRead] at h
    | .fail :: ts => simp [takeRead] at h
    | .byte c :: ts =>
      simp only [takeRead] at h
      split at h
      · rename_i v r hr
        cases h
        obtain ⟨h1, h2⟩ := ih hr
        simp [h1, h2]
      · rename_i a r hne hr
        cases h
        exact absurd rfl (hne b)
      · cases h

/-- A read of exactly the bytes that come next. -/
@[simp] theorem takeRead_append (b : List Byte) (rest : List RxToken) :
    takeRead b.length (b.map .byte ++ rest) = some (.bytes b, rest) := by
  induction b with
  | nil => rfl
  | cons c b ih => simp [takeRead, ih]

theorem takeRead_of_length {n : Nat} {b : List Byte} (h : b.length = n) (rest : List RxToken) :
    takeRead n (b.map .byte ++ rest) = some (.bytes b, rest) := by
  subst h; exact takeRead_append b rest

/-- A read's answer is bytes or a failure, and it leaves fewer tokens unless it asks for none. -/
theorem takeRead_some {n : Nat} {ts rest : List RxToken} {a : Answer} (h : takeRead n ts = some (a, rest)) :
    ((∃ b, a = .bytes b ∧ b.length = n) ∨ a = .readFailed) ∧ rest.length + min n 1 ≤ ts.length := by
  induction n generalizing ts a with
  | zero => simp [takeRead] at h; obtain ⟨rfl, rfl⟩ := h; simp
  | succ n ih =>
    match ts with
    | [] => simp [takeRead] at h
    | .fail :: ts => simp [takeRead] at h; obtain ⟨rfl, rfl⟩ := h; simp
    | .byte c :: ts =>
      simp only [takeRead] at h
      split at h
      · rename_i v r hr
        cases h
        obtain ⟨h1, h2⟩ := ih hr
        refine ⟨.inl ⟨_, rfl, ?_⟩, by simp; omega⟩
        rcases h1 with ⟨b, hb, hl⟩ | h1
        · cases hb; simp [hl]
        · cases h1
      · rename_i a' r hne hr
        cases h
        obtain ⟨h1, h2⟩ := ih hr
        refine ⟨.inr ?_, by simp; omega⟩
        rcases h1 with ⟨b, hb, -⟩ | h1
        · exact absurd hb (hne b)
        · exact h1
      · cases h

/-- An answer fits its call, and comes off the front of its channel; nothing else changes. -/
theorem answerOf_some {c : Call} {a : Answer} (h : answerOf c s = some (a, t)) :
    a.Fits c ∧ (∃ w r k, t = { s with writeAnswers := w, rx := r, clock := k }) ∧
      t.budget ≤ s.budget ∧ ((∀ x, c ≠ .read 0 x) → t.budget < s.budget) := by
  cases c with
  | write f x =>
    simp only [answerOf] at h
    split at h
    · rename_i ok rest hw
      cases h
      refine ⟨trivial, ⟨rest, s.rx, s.clock, rfl⟩, ?_⟩
      simp [State.budget, hw]
    · cases h
  | read n x =>
    simp only [answerOf] at h
    split at h
    · rename_i a' rest hr
      cases h
      obtain ⟨h1, h2⟩ := takeRead_some hr
      refine ⟨?_, ⟨s.writeAnswers, rest, s.clock, rfl⟩, ?_, fun hne => ?_⟩
      · rcases h1 with ⟨b, rfl, hl⟩ | rfl
        · exact hl
        · trivial
      · simp only [State.budget]; omega
      · have : n ≠ 0 := fun h0 => hne x (by rw [h0])
        simp only [State.budget]; omega
    · cases h
  | clock =>
    simp only [answerOf] at h
    split at h
    · rename_i k rest hk
      cases h
      refine ⟨trivial, ⟨s.writeAnswers, s.rx, rest, rfl⟩, ?_⟩
      simp [State.budget, hk]
    · cases h

/-! ### Chains of events -/

/-- `k` events in a row. -/
def turns : Nat → State → Option State
  | 0, s => some s
  | k + 1, s =>
    match turn s with
    | some (.next t) => turns k t
    | _ => none

theorem turns_add {k l : Nat} {u : State} (h1 : turns k s = some t) (h2 : turns l t = some u) :
    turns (k + l) s = some u := by
  induction k generalizing s with
  | zero => simp [turns] at h1; subst h1; simpa using h2
  | succ k ih =>
    rw [show k + 1 + l = (k + l) + 1 by omega]
    simp only [turns] at h1 ⊢
    split at h1
    · exact ih h1
    · cases h1

theorem turns_one (h : turn s = some (.next t)) : turns 1 s = some t := by simp [turns, h]

theorem settle_of_waiting (h : turn s = none) (n : Nat) : settle n s = .next s := by
  cases n <;> simp [settle, h]

/-- A run ends where it waits, if the channels hold enough answers for its events. -/
theorem settle_of_turns {k n : Nat} (h : turns k s = some t) (ht : turn t = none) (hk : k ≤ n) :
    settle n s = .next t := by
  induction k generalizing s n with
  | zero => simp [turns] at h; subst h; exact settle_of_waiting ht n
  | succ k ih =>
    obtain ⟨n, rfl⟩ : ∃ m, n = m + 1 := ⟨n - 1, by omega⟩
    simp only [turns] at h
    split at h
    · rename_i u hu
      simp only [settle, hu]
      exact ih h (by omega)
    · cases h

theorem advance_of_turns {k : Nat} (h : turns k s = some t) (ht : turn t = none) (hk : k ≤ s.budget) :
    advance s = .next t :=
  settle_of_turns h ht hk

/-- With no call outstanding there is no event. -/
theorem turn_of_not_outstanding (h : s.outstanding = none) : turn s = none := by simp [turn, h]

theorem advance_of_not_outstanding (h : s.outstanding = none) : advance s = .next s :=
  settle_of_waiting (turn_of_not_outstanding h) _

/-- A rule that meets its weakest precondition runs without a fault. -/
theorem runRule_of_wp {r : Rule Unit} {P : State → Prop} (h : r.wp s (fun _ t => P t) (fun e t => P (t.fail e))) :
    ∃ t, runRule r s = .next t ∧ P t := by
  simp only [Rule.wp] at h
  unfold runRule
  split at h
  · rename_i heq; exact ⟨_, by rw [heq], h⟩
  · rename_i heq; exact ⟨_, by rw [heq], h⟩
  · exact h.elim

end Sys2Proof.Machine
end

