-- ==== Sys2Proof/Laws/Runs.lean ====
section
/-! SUPPORT. Runs along a scenario: what a poll, an acknowledgement and a reply of the controller take the block to. A state
in flight is followed by what `cleared` leaves of it: its configuration, channels and events. -/

namespace Sys2Proof.Machine

open Host (Outcome)

variable {s t u : State}

/-- A rule that meets its weakest precondition with one end only. -/
theorem runRule_eq {r : Rule Unit} {t : State} (h : r.wp s (fun _ u => u = t) (fun e u => u.fail e = t)) :
    runRule r s = .next t := by
  obtain ⟨u, hu, rfl⟩ := runRule_of_wp (P := fun u => u = t) h
  exact hu

/-- Some events in a row, each paid for by an answer. -/
def Runs (s t : State) : Prop := ∃ k, turns k s = some t ∧ k + t.budget ≤ s.budget

theorem Runs.refl (s : State) : Runs s s := ⟨0, rfl, by omega⟩

theorem Runs.trans (h : Runs s t) (h' : Runs t u) : Runs s u := by
  obtain ⟨k, h1, h2⟩ := h
  obtain ⟨l, h3, h4⟩ := h'
  exact ⟨k + l, turns_add h1 h3, by omega⟩

theorem Runs.one {c : Call} {k : Resume} {a : Answer} (ho : s.outstanding = some ⟨c, k⟩)
    (ha : answerOf c s = some (a, u))
    (hr : runRule (resume k a) ({ u with outstanding := none }.log (.call c a)) = .next t)
    (hb : t.budget < s.budget) : Runs s t := by
  refine ⟨1, turns_one ?_, by omega⟩
  simp only [turn, ho, ha, hr]

/-- A run that reaches a waiting or ended state stops there. -/
theorem Runs.advance (h : Runs s t) (ht : turn t = none) : advance s = .next t := by
  obtain ⟨k, h1, h2⟩ := h
  exact advance_of_turns h1 ht (by omega)

theorem Runs.advance_rest (h : Runs s t) (ht : t.outstanding = none) : Machine.advance s = .next t :=
  h.advance (turn_of_not_outstanding ht)

/-! ### What `cleared` shows of a state in flight -/

theorem cfg_of_cleared (h : t.cleared = u) : t.cfg = u.cfg := by subst h; rfl

theorem events_of_cleared (h : t.cleared = u) : t.events = u.events := by subst h; rfl

theorem rx_of_cleared (h : t.cleared = u) : t.rx = u.rx := by subst h; rfl

theorem clock_of_cleared (h : t.cleared = u) : t.clock = u.clock := by subst h; rfl

theorem writeAnswers_of_cleared (h : t.cleared = u) : t.writeAnswers = u.writeAnswers := by subst h; rfl

theorem budget_of_cleared (h : t.cleared = u) : t.budget = u.budget := by subst h; rfl

theorem succeed_of_cleared (h : t.cleared = u) (st : Byte) (d : List Byte) :
    t.succeed st d = { u with events := u.events ++ [.result (successMsg st d), .phase .idle] } := by
  subst h; exact State.succeed_eq t st d

theorem fail_of_cleared (h : t.cleared = u) (e : Failure) :
    t.fail e = { u with events := u.events ++ [.phase .failed, .result (failureMsg e t.phase), .phase .idle] } := by
  subst h; exact State.fail_eq t e

/-- What an operation in flight leaves alone until it ends or finds a target: BUSY, CUR_OP, UIDBUF and UIDLEN. -/
def State.kept (s : State) : Bool × Option Byte × Memory × Option Byte := (s.busy, s.curOp, s.uidbuf, s.uidlen)

/-- A state is what `cleared` shows of it with every element that `cleared` hides. -/
theorem eq_of_cleared (hc : t.cleared = u.cleared) (hk : t.kept = u.kept) (hd : t.discardCommand = t)
    (hu : u.discardCommand = u) (hp : t.phase = u.phase) (ho : t.operands = u.operands)
    (hq : t.outstanding = u.outstanding) : t = u := by
  rw [← hd, ← hu]
  cases t
  cases u
  simp_all [State.cleared, State.discardCommand, State.kept]

/-- `t` follows `s` in one operation: the same but for what the channels gave and the rules keep for themselves. -/
structure Along (s : State) (w : List Bool) (r : List RxToken) (c : List Nat) (es : List Event) (t : State) : Prop where
  runs : Runs s t
  cleared : t.cleared = { s.cleared with writeAnswers := w, rx := r, clock := c, events := s.events ++ es }
  operands : t.operands = s.operands
  cmd : t.cmd = s.cmd
  kept : t.kept = s.kept

theorem Along.refl (s : State) : Along s s.writeAnswers s.rx s.clock [] s :=
  ⟨.refl s, by simp [State.cleared, State.discardCommand], rfl, rfl, rfl⟩

theorem Along.trans {w w' : List Bool} {r r' : List RxToken} {c c' : List Nat} {es es' : List Event}
    (h : Along s w r c es t) (h' : Along t w' r' c' es' u) : Along s w' r' c' (es ++ es') u := by
  refine ⟨h.runs.trans h'.runs, ?_, h'.operands.trans h.operands, h'.cmd.trans h.cmd, h'.kept.trans h.kept⟩
  rw [h'.cleared, h.cleared, events_of_cleared h.cleared]
  simp

theorem Along.busy {w : List Bool} {r : List RxToken} {c : List Nat} {es : List Event} (h : Along s w r c es t) :
    t.busy = s.busy := congrArg Prod.fst h.kept

theorem Along.cfg {w : List Bool} {r : List RxToken} {c : List Nat} {es : List Event} (h : Along s w r c es t) :
    t.cfg = s.cfg := by
  have := cfg_of_cleared h.cleared
  exact this

theorem Along.rx {w : List Bool} {r : List RxToken} {c : List Nat} {es : List Event} (h : Along s w r c es t) :
    t.rx = r := rx_of_cleared h.cleared

theorem Along.clock {w : List Bool} {r : List RxToken} {c : List Nat} {es : List Event} (h : Along s w r c es t) :
    t.clock = c := clock_of_cleared h.cleared

theorem Along.writeAnswers {w : List Bool} {r : List RxToken} {c : List Nat} {es : List Event}
    (h : Along s w r c es t) : t.writeAnswers = w := writeAnswers_of_cleared h.cleared

/-- One event, its rule run by its weakest precondition. -/
theorem Along.one {c : Call} {k : Resume} {a : Answer} {w : List Bool} {r : List RxToken} {cl : List Nat}
    (ho : s.outstanding = some ⟨c, k⟩)
    (ha : answerOf c s = some (a, { s with writeAnswers := w, rx := r, clock := cl }))
    (hlt : w.length + r.length + cl.length < s.budget)
    (hr : runRule (resume k a)
      ({ s with writeAnswers := w, rx := r, clock := cl, outstanding := none }.log (.call c a)) = .next t)
    {es : List Event}
    (hc : t.cleared = { s.cleared with writeAnswers := w, rx := r, clock := cl, events := s.events ++ es })
    (hop : t.operands = s.operands) (hcmd : t.cmd = s.cmd) (hkept : t.kept = s.kept) : Along s w r cl es t := by
  refine ⟨.one ho ha hr ?_, hc, hop, hcmd, hkept⟩
  rw [budget_of_cleared hc]
  exact hlt

/-! ### Answers of the channels -/

theorem answerOf_write {f : List Byte} {tc : Nat} {ok : Bool} {w : List Bool} (h : s.writeAnswers = ok :: w) :
    answerOf (.write f tc) s =
      some (.written ok, { s with writeAnswers := w, rx := s.rx, clock := s.clock }) := by
  simp [answerOf, h]

theorem answerOf_read {n tc : Nat} {b : List Byte} {r : List RxToken} (h : s.rx = stream b ++ r)
    (hb : b.length = n) :
    answerOf (.read n tc) s =
      some (.bytes b, { s with writeAnswers := s.writeAnswers, rx := r, clock := s.clock }) := by
  simp [answerOf, h, takeRead_of_length hb]

theorem takeRead_fail {n : Nat} {b : List Byte} (h : b.length < n) (r : List RxToken) :
    takeRead n (stream b ++ .fail :: r) = some (.readFailed, r) := by
  induction b generalizing n with
  | nil => obtain ⟨m, rfl⟩ : ∃ m, n = m + 1 := ⟨n - 1, by simp at h; omega⟩; rfl
  | cons c b ih =>
    obtain ⟨m, rfl⟩ : ∃ m, n = m + 1 := ⟨n - 1, by simp at h; omega⟩
    have := ih (n := m) (by simpa using h)
    simp [takeRead, this]

theorem answerOf_read_fail {n tc : Nat} {b : List Byte} {r : List RxToken} (h : s.rx = stream b ++ .fail :: r)
    (hb : b.length < n) :
    answerOf (.read n tc) s =
      some (.readFailed, { s with writeAnswers := s.writeAnswers, rx := r, clock := s.clock }) := by
  simp only [answerOf, h, takeRead_fail hb]

theorem answerOf_clock {x : Nat} {c : List Nat} (h : s.clock = x :: c) :
    answerOf .clock s = some (.time x, { s with writeAnswers := s.writeAnswers, rx := s.rx, clock := c }) := by
  simp [answerOf, h]

/-! ### A poll -/

/-- The block waits for a status sample of a poll with bound `b`. -/
structure Sampling (t : State) (b : Millis) (t0 : Nat) : Prop where
  outstanding : t.outstanding = some ⟨.read 1 t.cfg.tCall, .sampled⟩
  tmo : t.pollTmo = some b
  start : t.pollT0 = some t0

/-- A sample that is not ready, and a time within the bound, lead to the next sample. -/
theorem Sampling.again {b : Millis} {t0 x : Nat} {y : Byte} {r : List RxToken} {c : List Nat} (h : Sampling s b t0)
    (hr : s.rx = .byte y :: r) (hc : s.clock = x :: c) (hy : y ≠ ready) (hx : x - t0 < b.toNat) :
    ∃ t, Along s s.writeAnswers r c [sampleCall s.cfg.tCall y, clockCall x] t ∧ t.phase = s.phase ∧ Sampling t b t0 := by
  have h1 : Along s s.writeAnswers r s.clock [sampleCall s.cfg.tCall y]
      { s with
        rx := r
        outstanding := some ⟨.clock, .timed⟩
        events := s.events ++ [sampleCall s.cfg.tCall y]
        pollLast := some y } := by
    refine .one h.outstanding (answerOf_read (b := [y]) (by simpa using hr) rfl) (by simp [State.budget, hr])
      (runRule_eq ?_) rfl rfl rfl rfl
    simp [resume, pollSampled, hy, State.log, sampleCall]
  have h2 : Along { s with
        rx := r
        outstanding := some ⟨.clock, .timed⟩
        events := s.events ++ [sampleCall s.cfg.tCall y]
        pollLast := some y } s.writeAnswers r c [clockCall x]
      { s with
        rx := r
        clock := c
        outstanding := some ⟨.read 1 s.cfg.tCall, .sampled⟩
        events := s.events ++ [sampleCall s.cfg.tCall y] ++ [clockCall x]
        pollLast := some y } := by
    refine .one rfl (answerOf_clock (x := x) (c := c) (by exact hc)) (by simp [State.budget, hc]) (runRule_eq ?_) rfl rfl rfl rfl
    simp [resume, pollTimed, pollSample, State.log, clockCall, h.tmo, h.start, hx]
  exact ⟨_, h1.trans h2, rfl, rfl, h.tmo, h.start⟩

/-- A poll that has begun goes through the samples and times of a wait to the sample after them. -/
theorem Sampling.wait {b : Millis} {t0 : Nat} {l : List (Byte × Nat)} {r : List RxToken} {c : List Nat}
    (h : Sampling s b t0) (hr : s.rx = stream (l.map Prod.fst) ++ r) (hc : s.clock = l.map Prod.snd ++ c)
    (hl : ∀ x ∈ l, x.1 ≠ ready ∧ t0 ≤ x.2 ∧ x.2 < t0 + b.toNat) :
    ∃ t, Along s s.writeAnswers r c (l.flatMap fun x => [sampleCall s.cfg.tCall x.1, clockCall x.2]) t ∧
      t.phase = s.phase ∧ Sampling t b t0 := by
  induction l generalizing s with
  | nil => exact ⟨s, by simpa [hr, hc] using Along.refl s, rfl, h⟩
  | cons x l ih =>
    obtain ⟨hx1, hx2, hx3⟩ := hl x (by simp)
    obtain ⟨t, h1, h2, h3⟩ := h.again (r := stream (l.map Prod.fst) ++ r) (c := l.map Prod.snd ++ c)
      (by simpa using hr) (by simpa using hc) hx1 (by omega)
    obtain ⟨u, h4, h5, h6⟩ := ih h3 h1.rx h1.clock (fun y hy => hl y (by simp [hy]))
    rw [h1.cfg, h1.writeAnswers] at h4
    exact ⟨u, by simpa using h1.trans h4, h5.trans h2, h6⟩

/-- A poll from its first clock query through a wait to the sample after it (41_poller.md R160). -/
theorem Along.wait {b : Millis} {w : Wait} {r : List RxToken} {c : List Nat}
    (ho : s.outstanding = some ⟨.clock, .pollStarted⟩) (hb : s.pollTmo = some b)
    (hr : s.rx = stream w.samples ++ r) (hc : s.clock = w.times ++ c) (hw : w.Within b) :
    ∃ t, Along s s.writeAnswers r c (w.calls s.cfg.tCall) t ∧ t.phase = s.phase ∧ Sampling t b w.t0 := by
  have hc' : s.clock = w.t0 :: (w.notYet.map Prod.snd ++ c) := by simpa [Wait.times] using hc
  have h1 : Along s s.writeAnswers s.rx (w.notYet.map Prod.snd ++ c) [clockCall w.t0]
      { s with
        clock := w.notYet.map Prod.snd ++ c
        outstanding := some ⟨.read 1 s.cfg.tCall, .sampled⟩
        events := s.events ++ [clockCall w.t0]
        pollT0 := some w.t0 } := by
    refine .one ho (answerOf_clock hc') (by simp [State.budget, hc']) (runRule_eq ?_) rfl rfl rfl rfl
    simp [resume, pollStarted, pollSample, State.log, clockCall]
  obtain ⟨t, h2, h3, h4⟩ := Sampling.wait (s := { s with
        clock := w.notYet.map Prod.snd ++ c
        outstanding := some ⟨.read 1 s.cfg.tCall, .sampled⟩
        events := s.events ++ [clockCall w.t0]
        pollT0 := some w.t0 }) (b := b) (t0 := w.t0) ⟨rfl, hb, rfl⟩ hr rfl hw
  exact ⟨t, by simpa [Wait.calls] using h1.trans h2, h3, h4⟩

/-- A ready sample makes the poll return to its caller at once (41_poller.md R162). -/
theorem Sampling.ready {b : Millis} {t0 : Nat} {r : List RxToken} (h : Sampling s b t0)
    (hr : s.rx = .byte Machine.ready :: r)
    (ht : runRule afterPoll { s with
        rx := r
        outstanding := none
        events := s.events ++ [sampleCall s.cfg.tCall Machine.ready]
        pollLast := some Machine.ready } = .next t)
    {es : List Event}
    (hcl : t.cleared = { s.cleared with rx := r, events := s.events ++ es }) (hop : t.operands = s.operands)
    (hcmd : t.cmd = s.cmd) (hkept : t.kept = s.kept) : Along s s.writeAnswers r s.clock es t := by
  refine .one h.outstanding (answerOf_read (b := [Machine.ready]) (by simpa using hr) rfl)
    (by simp [State.budget, hr]) ?_ hcl hop hcmd hkept
  rw [← ht]
  simp only [runRule, resume, pollSampled, State.log, sampleCall]
  rfl

end Sys2Proof.Machine
end

