-- ==== Sys2Proof/Laws/Exchange.lean ====
section
/-! SUPPORT. Exchange along a scenario: from its write to the success criterion of its command, or to the failure that ends
it. -/

namespace Sys2Proof.Machine

open Host (Outcome)

variable {s t u : State}

/-! ### What a well-formed response passes -/

theorem ofNat_toNat_of_le {n : Nat} (h : n ≤ 253) : (BitVec.ofNat 8 (n + 2)).toNat = n + 2 := by
  simp; omega

@[simp] theorem responseHead_length (n : Nat) : (responseHead n).length = 5 := rfl

@[simp] theorem responseBody_length (rsp : Byte) (d : List Byte) : (responseBody rsp d).length = d.length + 4 := by
  simp [responseBody]

/-- The header of a response that fits passes its checks. -/
theorem header_responseHead {cap n : Nat} (hn : n ≤ 253) (hc : n + 4 ≤ cap) :
    Verdicts.header cap (responseHead n) = .ok (BitVec.ofNat 8 (n + 2)) := by
  have h1 := (byte_add_eq_zero (BitVec.ofNat 8 (n + 2)) (checksum [BitVec.ofNat 8 (n + 2)])).mp (by
    have := sum8_add_checksum [BitVec.ofNat 8 (n + 2)]
    simpa using this)
  have h2 := ofNat_toNat_of_le hn
  have e0 : (responseHead n).take 3 = [0x00, 0x00, 0xFF] := rfl
  have e3 : (responseHead n).getD 3 0 = BitVec.ofNat 8 (n + 2) := rfl
  have e4 : (responseHead n).getD 4 0 = checksum [BitVec.ofNat 8 (n + 2)] := rfl
  rw [h2] at h1
  simp only [Verdicts.header, e0, e3, e4, h2, h1]
  simp
  omega

/-- The body of a response passes its checks. -/
theorem body_responseBody {rsp : Byte} {d : List Byte} (hn : d.length ≤ 253) :
    Verdicts.body tfiCtrl (BitVec.ofNat 8 (d.length + 2)) (responseBody rsp d) = .ok (tfiCtrl :: rsp :: d) := by
  have hl := ofNat_toNat_of_le hn
  have h1 := (sum8_add_eq_zero _ _).mp (sum8_add_checksum ([tfiCtrl, rsp] ++ d))
  have htake : (responseBody rsp d).take (d.length + 2) = tfiCtrl :: rsp :: d := by
    rw [responseBody, List.take_left' (by simp)]; rfl
  have hd0 : (responseBody rsp d).getD 0 0 = tfiCtrl := rfl
  have hdc : (responseBody rsp d).getD (d.length + 2) 0 = checksum ([tfiCtrl, rsp] ++ d) := by
    rw [List.getD_eq_getElem?_getD, responseBody, List.getElem?_append_right (by simp)]; simp
  have hdp : (responseBody rsp d).getD (d.length + 2 + 1) 0 = postamble := by
    rw [List.getD_eq_getElem?_getD, responseBody, List.getElem?_append_right (by simp)]; simp
  simp only [Verdicts.body, hl, htake, hd0, hdc, hdp]
  rw [if_neg (by decide), if_neg (by omega), if_neg (by simp), if_neg (by simpa using h1)]

/-! ### The pieces of Exchange -/

/-- A poll with bound `b` is about to begin in phase `p`. -/
structure Polling (t : State) (b : Millis) (p : Phase) : Prop where
  outstanding : t.outstanding = some ⟨.clock, .pollStarted⟩
  tmo : t.pollTmo = some b
  phase : t.phase = p

/-- The write is answered `OK`. -/
theorem Along.frameWritten {f : List Byte} {w : List Bool} (ho : s.outstanding = some ⟨.write f s.cfg.tCall, .frameWritten⟩)
    (hw : s.writeAnswers = true :: w) :
    ∃ t, Along s w s.rx s.clock
        [.call (.write f s.cfg.tCall) (.written true), .phase .transmitted, .phase .ackPending] t ∧
      Polling t tAckMs .ackPending := by
  refine ⟨{ s with
    writeAnswers := w
    outstanding := some ⟨.clock, .pollStarted⟩
    phase := .ackPending
    pollTmo := some tAckMs
    events := s.events ++
      [.call (.write f s.cfg.tCall) (.written true), .phase .transmitted, .phase .ackPending] },
    .one ho (answerOf_write hw) (by simp [State.budget, hw]) (runRule_eq ?_) rfl rfl rfl rfl, rfl, rfl, rfl⟩
  simp [resume, Machine.frameWritten, pollStart, State.log, State.setPhase]

/-- The poll sees a ready sample, and its caller reads an acknowledgement or a response. -/
theorem Along.pollReady {b : Millis} {p : Phase} {w : Wait} {r : List RxToken} {c : List Nat} (h : Polling s b p)
    {n : Nat} {k : Resume} (hnext : pollNext p = transportRead n k)
    (hr : s.rx = stream w.samples ++ .byte ready :: r) (hc : s.clock = w.times ++ c) (hw : w.Within b) :
    ∃ t, Along s s.writeAnswers r c (w.readyCalls s.cfg.tCall) t ∧ t.phase = p ∧
      t.outstanding = some ⟨.read n s.cfg.tCall, k⟩ := by
  obtain ⟨t, h1, h2, h3⟩ := Along.wait h.outstanding h.tmo hr hc hw
  have hph : t.phase = p := h2.trans h.phase
  have hcfg := h1.cfg
  have h4 : Along t t.writeAnswers r t.clock [sampleCall t.cfg.tCall ready]
      { t with
        rx := r
        outstanding := some ⟨.read n t.cfg.tCall, k⟩
        events := t.events ++ [sampleCall t.cfg.tCall ready]
        pollLast := some ready } := by
    refine h3.ready h1.rx (runRule_eq ?_) rfl rfl rfl rfl
    rw [wp_afterPoll]
    simp only [hph, hnext, wp_transportRead]
  rw [hcfg, h1.clock, h1.writeAnswers] at h4
  exact ⟨_, h1.trans h4, hph, by rw [← hcfg]⟩

/-- An acknowledgement takes Exchange from its ack poll to its response poll. -/
theorem Along.acked {a : Acked} {b : Millis} {r : List RxToken} {c : List Nat} (h : Polling s tAckMs .ackPending)
    (hr : s.rx = stream a.bytes ++ r) (hc : s.clock = a.wait.times ++ c) (hw : a.wait.Within tAckMs)
    (hb : responseBound s.operands = some b) :
    ∃ t, Along s s.writeAnswers r c (a.wait.readyCalls s.cfg.tCall ++
        [.call (.read 7 s.cfg.tCall) (.bytes (ackRead a.status)), .phase .ackOk, .phase .responsePending]) t ∧
      Polling t b .responsePending := by
  obtain ⟨t, h1, h2, h3⟩ := Along.pollReady (r := stream (ackRead a.status) ++ r) h rfl
    (by simpa [Acked.bytes] using hr) hc hw
  have hcfg := h1.cfg
  have h4 : Along t t.writeAnswers r t.clock
      [.call (.read 7 s.cfg.tCall) (.bytes (ackRead a.status)), .phase .ackOk, .phase .responsePending]
      { t with
        rx := r
        outstanding := some ⟨.clock, .pollStarted⟩
        ackbuf := writeBytes t.ackbuf 0 (ackRead a.status)
        pollTmo := some b
        phase := .responsePending
        events := t.events ++
          [.call (.read 7 s.cfg.tCall) (.bytes (ackRead a.status)), .phase .ackOk, .phase .responsePending] } := by
    refine .one h3 (answerOf_read (b := ackRead a.status) h1.rx rfl) (by simp [State.budget, h1.rx, ackRead])
      (runRule_eq ?_) rfl rfl rfl rfl
    simp only [resume, wp_bind]
    rw [wp_ackArrived rfl]
    refine ⟨fun _ => ?_, fun hne => absurd rfl hne⟩
    rw [wp_afterAck]
    simp [ackNext, h2, ackAccepted, h1.operands, hb, pollStart, State.log, State.setPhase]
  rw [h1.clock, h1.writeAnswers] at h4
  exact ⟨_, h1.trans h4, rfl, rfl, rfl⟩

theorem wp_afterResponse_pending {R : Failure → State → Prop} (h : s.phase = .responsePending)
    {Q : Unit → State → Prop} : afterResponse.wp s Q R ↔ responseAccepted.wp s Q R := by
  rw [wp_afterResponse, h]; rfl

/-- The state in which a validated response of code `rsp` and data `d` stands in RXBUF, its code not yet looked at. -/
structure Answered (u : State) (rsp : Byte) (d : List Byte) : Prop where
  phase : u.phase = .responsePending
  body : ∃ m, u.rxbuf = writeBytes m 0 (responseBody rsp d)
  plen : u.plen = some (BitVec.ofNat 8 (d.length + 2))
  capacity : d.length + 4 ≤ u.cfg.rxBodyCap
  frame : d.length ≤ 253

/-- A response takes Exchange from its response poll to the response-code check, whose end is the end of the run. -/
theorem Along.responded {w : Wait} {st rsp : Byte} {d : List Byte} {b : Millis} {r : List RxToken} {c : List Nat}
    (h : Polling s b .responsePending)
    (hr : s.rx = stream (w.samples ++ [ready] ++ responseRead st rsp d) ++ r) (hc : s.clock = w.times ++ c)
    (hw : w.Within b) (hd : d.length ≤ 253) (hcap : d.length + 4 ≤ s.cfg.rxBodyCap) :
    ∃ u, u.cleared = { s.cleared with
          rx := r, clock := c,
          events := s.events ++ (w.readyCalls s.cfg.tCall ++
            [.call (.read 6 s.cfg.tCall) (.bytes (st :: responseHead d.length)),
              .call (.read (d.length + 4) s.cfg.tCall) (.bytes (responseBody rsp d))]) } ∧
      u.operands = s.operands ∧ u.cmd = s.cmd ∧ u.outstanding = none ∧ Answered u rsp d ∧ u.kept = s.kept ∧
      ∀ t, responseAccepted.wp u (fun _ y => y = t) (fun e y => y.fail e = t) → t.budget = u.budget → Runs s t := by
  obtain ⟨t, h1, h2, h3⟩ := Along.pollReady (r := stream (responseRead st rsp d) ++ r) h rfl
    (by simpa using hr) hc hw
  have hcfg := h1.cfg
  set len : Byte := BitVec.ofNat 8 (d.length + 2) with hlen
  have hl : len.toNat = d.length + 2 := ofNat_toNat_of_le hd
  have hrx : t.rx = stream (st :: responseHead d.length) ++ (stream (responseBody rsp d) ++ r) := by
    rw [h1.rx]; simp [responseRead]
  have h4 : Along t t.writeAnswers (stream (responseBody rsp d) ++ r) t.clock
      [.call (.read 6 s.cfg.tCall) (.bytes (st :: responseHead d.length))]
      { t with
        rx := stream (responseBody rsp d) ++ r
        outstanding := some ⟨.read (len.toNat + 2) t.cfg.tCall, .bodyArrived len⟩
        hdrbuf := writeBytes t.hdrbuf 0 (st :: responseHead d.length)
        events := t.events ++ [.call (.read 6 s.cfg.tCall) (.bytes (st :: responseHead d.length))] } := by
    refine .one h3 (answerOf_read (b := st :: responseHead d.length) hrx rfl)
      (by simp [State.budget, hrx]) (runRule_eq ?_) rfl rfl rfl rfl
    simp only [resume]
    rw [wp_headerArrived rfl]
    have := header_responseHead (cap := t.cfg.rxBodyCap) hd (by rw [hcfg]; exact hcap)
    simp [this, hlen, State.log]
  set x : State := { t with
        rx := stream (responseBody rsp d) ++ r
        outstanding := some ⟨.read (len.toNat + 2) t.cfg.tCall, .bodyArrived len⟩
        hdrbuf := writeBytes t.hdrbuf 0 (st :: responseHead d.length)
        events := t.events ++ [.call (.read 6 s.cfg.tCall) (.bytes (st :: responseHead d.length))] } with hx
  have h5 := h1.trans h4
  refine ⟨({ x with rx := r, outstanding := none }.log
      (.call (.read (len.toNat + 2) t.cfg.tCall) (.bytes (responseBody rsp d)))).withPayload len (responseBody rsp d),
    ?_, h5.operands, h5.cmd, rfl, ⟨h2, ⟨_, rfl⟩, rfl, ?_, hd⟩, h5.kept, ?_⟩
  · have := congrArg (fun y : State => { y with
      rx := r, events := y.events ++ [Event.call (.read (d.length + 4) s.cfg.tCall) (.bytes (responseBody rsp d))] })
      h5.cleared
    rw [h1.clock, h1.writeAnswers] at this
    simp only [List.append_assoc, List.cons_append, List.nil_append] at this
    rw [← hcfg] at this ⊢
    rw [hl]
    exact this
  · show d.length + 4 ≤ x.cfg.rxBodyCap
    rw [show x.cfg = s.cfg from hcfg]; exact hcap
  · intro y hy hbud
    refine h5.runs.trans ?_
    refine .one (u := { x with rx := r }) rfl (answerOf_read (b := responseBody rsp d) rfl (by simp [hl])) ?_ ?_
    · refine runRule_eq ?_
      simp only [resume, wp_bind]
      rw [wp_bodyArrived (by simp [hl]) (by
        show _ ≤ t.cfg.rxBodyCap
        rw [hcfg]; simpa using hcap), body_responseBody hd, afterVerdict_ok]
      exact (wp_afterResponse_pending (by exact h2)).mpr hy
    · rw [hbud]; simp [State.budget, State.withPayload, hx]

/-! ### A whole Exchange -/

theorem sending_cleared (s : State) (cmd : Byte) (p : List Byte) :
    (s.sending cmd p).cleared = { s.cleared with events := s.events ++ [.phase .encoded] } := rfl

/-- A reply takes Exchange from its write to the response-code check, whose end is the end of the run. -/
theorem Along.replied {r : Reply} {b : Millis} {cmd : Byte} {w : List Bool} {rest : List RxToken} {c : List Nat}
    (hw : s.writeAnswers = true :: w) (hr : s.rx = stream r.bytes ++ rest) (hc : s.clock = r.times ++ c)
    (hf : r.Fits s.cfg b) (hb : responseBound s.operands = some b) :
    ∃ u, u.cleared = { s.cleared with
          writeAnswers := w, rx := rest, clock := c, events := s.events ++ r.events s.cfg cmd } ∧
      u.operands = s.operands ∧ u.cmd = some cmd ∧ u.outstanding = none ∧ Answered u r.rsp r.data ∧ u.kept = s.kept ∧
      ∀ t, responseAccepted.wp u (fun _ y => y = t) (fun e y => y.fail e = t) → t.budget = u.budget →
        Runs (s.sending cmd (commandPayload s.cfg cmd)) t := by
  obtain ⟨t1, h1, p1⟩ := Along.frameWritten (s := s.sending cmd (commandPayload s.cfg cmd)) (w := w)
    (f := sentFrame s.cfg cmd) rfl hw
  obtain ⟨t2, h2, p2⟩ := Along.acked (s := t1) (a := r.ack) (b := b)
    (r := stream (r.wait.samples ++ [ready] ++ responseRead r.status r.rsp r.data) ++ rest)
    (c := r.wait.times ++ c) p1 (by rw [h1.rx]; simpa [State.sending, Reply.bytes] using hr)
    (by rw [h1.clock]; simpa [State.sending, Reply.times] using hc) hf.ack (by rw [h1.operands]; exact hb)
  have h12 := h1.trans h2
  have hcfg2 : t2.cfg = s.cfg := h12.cfg
  have hcfg1 : t1.cfg = s.cfg := h1.cfg
  obtain ⟨u, h3, h4, h5, h6, h7, h9, h8⟩ := Along.responded (s := t2) (r := rest) (c := c) p2 h2.rx h2.clock
    hf.response hf.frame (by rw [hcfg2]; exact hf.buffer)
  refine ⟨u, ?_, h4.trans h12.operands, h5.trans h12.cmd, h6, h7, h9.trans h12.kept,
    fun t ht hbud => h12.runs.trans (h8 t ht hbud)⟩
  rw [h3, h12.cleared, events_of_cleared h12.cleared, hcfg2, hcfg1, h1.writeAnswers]
  simp [State.sending, State.setPhase, State.log, State.cleared, State.discardCommand, Reply.events, Acked.events,
    written, writing, Reply.reads]

/-- The response-code check, and the criterion of the command after it. -/
theorem wp_responseAccepted {R : Failure → State → Prop} {rsp cmd : Byte} {d : List Byte} (h : Answered s rsp d)
    (hc : s.cmd = some cmd) {Q : Unit → State → Prop} :
    responseAccepted.wp s Q R ↔
      (rsp = cmd + 1 → (criterion cmd s.operands).wp s Q R) ∧ (rsp ≠ cmd + 1 → R (.protocolMismatch rsp) s) := by
  obtain ⟨m, hm⟩ := h.body
  have h1 : (responseBody rsp d).getD 1 0 = rsp := rfl
  simp only [responseAccepted, wp_bind, wp_get, wp_check, wp_valueOf]
  rw [wp_readBodyByte hm (by simpa using h.capacity) (by simp), h1]
  simp [hc]

/-- The validated payload of a response. -/
theorem wp_validatedPayload_answered {R : Failure → State → Prop} {rsp : Byte} {d : List Byte} (h : Answered s rsp d)
    {Q : List Byte → State → Prop} : validatedPayload.wp s Q R ↔ Q (tfiCtrl :: rsp :: d) s := by
  obtain ⟨m, hm⟩ := h.body
  have hl := ofNat_toNat_of_le h.frame
  rw [wp_validatedPayload hm h.plen (by simpa using h.capacity) (by simp only [hl, responseBody_length]; omega), hl]
  rw [show (responseBody rsp d).take (d.length + 2) = tfiCtrl :: rsp :: d by
    rw [responseBody, List.take_left' (by simp)]; rfl]

/-! ### Requests -/

/-- A block at rest accepts a request and runs its rule. -/
theorem request_of_rest {i : Instr} {opc : Byte} {r : Rule Unit} (hs : s.AtRest) (h : runRule r (s.accept i opc) = .next t) :
    request i opc r s = advance t := by
  have : s.busy = false := by rw [← show s.cleared = s from hs]; rfl
  simp [request, this, runOn, h]

theorem accept_cleared (hs : s.AtRest) (i : Instr) (opc : Byte) :
    (s.accept i opc).cleared = { s with events := s.events ++ [.accepted opc] } := by
  rw [← show s.cleared = s from hs]; rfl

theorem commandPayload_length (c : Config) (hc : c.InRange) (cmd : Byte) :
    (commandPayload c cmd).length ≤ c.maxPayload := by
  have := hc.1
  simp only [commandPayload]
  split
  · simpa using this
  · split <;> simp [inlptPayload]; omega

/-- A dispatcher operation begins by sending its first command. -/
theorem exec_dispatcher {i : Instr} {opc cmd : Byte} (hs : s.AtRest) (hr : s.cfg.InRange) (ho : i.opcode = some opc)
    (hc : firstCommand i = some cmd) :
    exec i s = advance ((s.accept i opc).sending cmd (commandPayload s.cfg cmd)) := by
  have hp := fun cmd => commandPayload_length s.cfg hr cmd
  have key : ∀ cmd i opc, runRule (exchange cmd (commandPayload s.cfg cmd)) (s.accept i opc) =
      .next ((s.accept i opc).sending cmd (commandPayload s.cfg cmd)) := by
    intro cmd i opc
    exact runRule_eq ((wp_exchange (s := s.accept i opc) (hp cmd) _).mpr rfl)
  cases i <;> simp only [firstCommand, Option.some.injEq, reduceCtorEq] at hc <;> subst hc <;>
    simp only [Instr.opcode, Option.some.injEq] at ho <;> subst ho
  · exact request_of_rest hs (key cmdGfv _ _)
  · exact request_of_rest hs (key cmdGfv _ _)
  · refine request_of_rest hs ?_
    rw [← key cmdSam]
    simp only [runRule, samExchange]
    rfl
  · exact request_of_rest hs (key cmdInlpt _ _)

/-! ### The end of a dispatcher operation -/

/-- A success at the end of a run whose state is followed by `cleared`. -/
theorem succeed_at {w : List Bool} {r : List RxToken} {c : List Nat} {es es' : List Event}
    (hu : u.cleared = { s with writeAnswers := w, rx := r, clock := c, events := es }) (st : Byte) (d : List Byte)
    (he : es' = es ++ [.result (successMsg st d), .phase .idle]) :
    u.succeed st d = { s with writeAnswers := w, rx := r, clock := c, events := es' } := by
  rw [succeed_of_cleared hu, he]

/-- A success after one more phase move. -/
theorem setPhase_succeed_at {w : List Bool} {r : List RxToken} {c : List Nat} {es es' : List Event}
    (hu : u.cleared = { s with writeAnswers := w, rx := r, clock := c, events := es }) (st : Byte) (d : List Byte)
    (p : Phase) (he : es' = es ++ [.phase p, .result (successMsg st d), .phase .idle]) :
    (u.setPhase p).succeed st d = { s with writeAnswers := w, rx := r, clock := c, events := es' } := by
  have : (u.setPhase p).cleared =
      { s with writeAnswers := w, rx := r, clock := c, events := es ++ [.phase p] } :=
    congrArg (fun y : State => { y with events := y.events ++ [Event.phase p] }) hu
  rw [succeed_of_cleared this, he]
  simp

/-- A failure at the end of a run. -/
theorem fail_at {w : List Bool} {r : List RxToken} {c : List Nat} {es es' : List Event}
    (hu : u.cleared = { s with writeAnswers := w, rx := r, clock := c, events := es }) (e : Failure) (p : Phase)
    (hp : u.phase = p) (he : es' = es ++ [.phase .failed, .result (failureMsg e p), .phase .idle]) :
    u.fail e = { s with writeAnswers := w, rx := r, clock := c, events := es' } := by
  rw [fail_of_cleared hu, he, hp]

theorem outstanding_of_rest (hs : s.AtRest) : s.outstanding = none := by
  rw [← show s.cleared = s from hs]; rfl

/-- A block at rest has no event. -/
theorem turn_of_rest (hs : s.AtRest) (w : List Bool) (r : List RxToken) (c : List Nat) (es : List Event) :
    turn { s with writeAnswers := w, rx := r, clock := c, events := es } = none :=
  have := outstanding_of_rest hs
  turn_of_not_outstanding this

/-- A dispatcher operation whose first command gets a reply runs to the response-code check; what that check and the
criterion lead to, the run leads to. -/
theorem exec_replied {i : Instr} {opc cmd : Byte} {b : Millis} {r : Reply} {w : List Bool} {rest : List RxToken}
    {c : List Nat} (hs : s.AtRest) (hcfg : s.cfg.InRange) (ho : i.opcode = some opc) (hc : firstCommand i = some cmd)
    (hb : responseBound (some i) = some b) (hf : r.Fits s.cfg b) (hw : s.writeAnswers = true :: w)
    (hr : s.rx = stream r.bytes ++ rest) (hcl : s.clock = r.times ++ c) :
    ∃ u, u.cleared = { s with
          writeAnswers := w, rx := rest, clock := c
          events := s.events ++ .accepted opc :: r.events s.cfg cmd } ∧
      u.operands = some i ∧ u.cmd = some cmd ∧ u.outstanding = none ∧ Answered u r.rsp r.data ∧
      u.kept = (s.accept i opc).kept ∧
      ∀ t v, responseAccepted.wp u (fun _ y => y = t) (fun e y => y.fail e = t) → t.budget = u.budget → Runs t v →
        turn v = none → exec i s = .next v := by
  obtain ⟨u, h1, h2, h3, h4, h5, h7, h6⟩ := Along.replied (s := s.accept i opc) (cmd := cmd) (b := b) hw hr hcl hf hb
  refine ⟨u, ?_, h2, h3, h4, h5, h7, fun t v ht hbud hrun hv => ?_⟩
  · rw [h1, accept_cleared hs]; simp
  · rw [exec_dispatcher hs hcfg ho hc]
    exact ((h6 t ht hbud).trans hrun).advance hv

/-- A dispatcher operation comes to send each of its commands as `Leads` says, from a state that holds nothing of a command
before it (44_dispatcher.md R248). -/
theorem exec_led_eq {i : Instr} {opc cmd : Byte} {l : Lead} {w : List Bool} {rest : List RxToken} {c : List Nat}
    (hs : s.AtRest) (hcfg : s.cfg.InRange) (ho : i.opcode = some opc) (hl : Leads s.cfg i cmd l)
    (hw : s.writeAnswers = l.writes ++ w) (hr : s.rx = stream l.bytes ++ rest) (hc : s.clock = l.times ++ c) {v : State}
    (hv : Runs (({ s with
        busy := true, curOp := some opc, operands := some i, writeAnswers := w, rx := rest, clock := c
        events := s.events ++ .accepted opc :: l.events } : State).sending cmd (commandPayload s.cfg cmd)) v)
    (ht : turn v = none) : exec i s = .next v := by
  cases hl with
  | first hfc =>
    simp only [List.nil_append, List.map_nil] at hw hr hc
    subst hw hr hc
    rw [exec_dispatcher hs hcfg ho hfc]
    exact hv.advance ht
  | @afterWake r hf hrsp hd =>
    cases ho
    obtain ⟨u, h1, h2, h3, h4, h5, h7, h6⟩ := exec_replied (i := .beginOp) hs hcfg rfl rfl rfl hf hw hr hc
    have hu := cfg_of_cleared h1
    have hx : ((u.setPhase .done).setPhase .idle).discardCommand = { s with
        busy := true, curOp := some 0x10, operands := some .beginOp, writeAnswers := w, rx := rest, clock := c
        events := s.events ++ .accepted 0x10 :: (r.events s.cfg cmdGfv ++ [.phase .done, .phase .idle]) } := by
      have hs' : s.cleared = s := hs
      refine eq_of_cleared ?_ (h7.trans rfl) rfl ?_ ?_ h2 (h4.trans (outstanding_of_rest hs).symm)
      · have e : (((u.setPhase .done).setPhase .idle).discardCommand).cleared =
            { u.cleared with events := u.events ++ [.phase .done] ++ [.phase .idle] } := rfl
        have e' : ∀ es : List Event, ({ s with
            busy := true, curOp := some 0x10, operands := some .beginOp, writeAnswers := w, rx := rest, clock := c
            events := es } : State).cleared =
            { s.cleared with writeAnswers := w, rx := rest, clock := c, events := es } := fun _ => rfl
        rw [e, h1, events_of_cleared h1, e', hs']
        simp
      · rw [← hs']; rfl
      · rw [← hs']; rfl
    refine h6 _ _ ?_ ?_ hv ht
    · rw [wp_responseAccepted h5 h3]
      refine ⟨fun _ => ?_, fun hne => absurd hrsp hne⟩
      rw [h2]
      simp only [criterion, beginFinish, wp_bind, wp_ite]
      refine ⟨fun _ => ?_, fun h => absurd trivial h⟩
      rw [wp_gfvCriterion h5.plen]
      refine ⟨fun _ => ?_, fun hne => absurd (by simp [hd]) hne⟩
      simp only [wp_setPhase, wp_modify, samExchange, wp_bind, wp_get, hx]
      exact (wp_exchange (by exact hcfg.1) _).mpr rfl
    · rw [budget_of_cleared h1]; rfl

/-- The same, for what `cleared` shows of the state in which the command is sent. -/
theorem exec_led {i : Instr} {opc cmd : Byte} {l : Lead} {w : List Bool} {rest : List RxToken} {c : List Nat}
    (hs : s.AtRest) (hcfg : s.cfg.InRange) (ho : i.opcode = some opc) (hl : Leads s.cfg i cmd l)
    (hw : s.writeAnswers = l.writes ++ w) (hr : s.rx = stream l.bytes ++ rest) (hc : s.clock = l.times ++ c) :
    ∃ x : State, x.cleared = { s with
          writeAnswers := w, rx := rest, clock := c, events := s.events ++ .accepted opc :: l.events } ∧
      x.operands = some i ∧
      ∀ v, Runs (x.sending cmd (commandPayload s.cfg cmd)) v → turn v = none → exec i s = .next v := by
  refine ⟨_, ?_, ?_, fun v => exec_led_eq hs hcfg ho hl hw hr hc⟩
  · exact congrArg (fun x : State => ({ x with
      writeAnswers := w, rx := rest, clock := c, events := s.events ++ .accepted opc :: l.events } : State)) hs
  · rfl

/-- A dispatcher operation that ends with its first command. -/
theorem exec_replied_end {i : Instr} {opc cmd : Byte} {b : Millis} {r : Reply} {w : List Bool} {rest : List RxToken}
    {c : List Nat} {es : List Event} (hs : s.AtRest) (hcfg : s.cfg.InRange) (ho : i.opcode = some opc)
    (hc : firstCommand i = some cmd) (hb : responseBound (some i) = some b) (hf : r.Fits s.cfg b)
    (hw : s.writeAnswers = true :: w) (hr : s.rx = stream r.bytes ++ rest) (hcl : s.clock = r.times ++ c)
    (H : ∀ u, u.cleared = { s with
          writeAnswers := w, rx := rest, clock := c
          events := s.events ++ .accepted opc :: r.events s.cfg cmd } →
      u.operands = some i → u.cmd = some cmd → Answered u r.rsp r.data →
      responseAccepted.wp u
        (fun _ y => y = { s with writeAnswers := w, rx := rest, clock := c, events := s.events ++ es })
        (fun e y => y.fail e = { s with writeAnswers := w, rx := rest, clock := c, events := s.events ++ es })) :
    exec i s = .next { s with writeAnswers := w, rx := rest, clock := c, events := s.events ++ es } := by
  obtain ⟨u, h1, h2, h3, h4, h5, _, h6⟩ := exec_replied hs hcfg ho hc hb hf hw hr hcl
  exact h6 _ _ (H u h1 h2 h3 h5) (by rw [budget_of_cleared h1]; rfl) (.refl _) (turn_of_rest hs _ _ _ _)

end Sys2Proof.Machine
end

