-- ==== Sys2Proof/Laws/Endings.lean ====
section
/-! SUPPORT. How the calls of a poll, an ack read and a response read can end an operation, in any phase. A state in flight
is followed by what `cleared` leaves of it. -/

namespace Sys2Proof.Machine

open Host (Outcome)

variable {s t v : State} {w : List Bool} {r rest : List RxToken} {c : List Nat} {es : List Event} {p : Phase}

/-- A rule that goes on from a failed read raises READ_FAILED at once. -/
def StopsOnFailure (k : Resume) : Prop :=
  ∀ (u : State) (Q : Unit → State → Prop) (R : Failure → State → Prop),
    (resume k .readFailed).wp u Q R ↔ R .readFailed u

theorem stopsOnFailure_sampled : StopsOnFailure .sampled := fun _ _ _ => Iff.rfl

theorem stopsOnFailure_ackArrived : StopsOnFailure .ackArrived := fun _ _ _ => Iff.rfl

theorem stopsOnFailure_headerArrived : StopsOnFailure .headerArrived := fun _ _ _ => Iff.rfl

theorem stopsOnFailure_bodyArrived (len : Byte) : StopsOnFailure (.bodyArrived len) := fun _ _ _ => Iff.rfl

/-- A read that fails ends the operation. -/
theorem runs_readFailed {n : Nat} {k : Resume} {bs : List Byte} (ho : t.outstanding = some ⟨.read n t.cfg.tCall, k⟩)
    (hk : StopsOnFailure k) (hb : bs.length < n) (hp : t.phase = p)
    (ht : t.cleared = { s with writeAnswers := w, rx := stream bs ++ .fail :: rest, clock := c, events := es })
    (hv : v = { s with
      writeAnswers := w, rx := rest, clock := c
      events := es ++ [.call (.read n s.cfg.tCall) .readFailed, .phase .failed, .result (failureMsg .readFailed p),
        .phase .idle] }) : Runs t v := by
  subst hv
  have hcfg : t.cfg = s.cfg := by rw [cfg_of_cleared ht]
  refine .one ho (answerOf_read_fail (rx_of_cleared ht) hb) (runRule_eq ?_) ?_
  · rw [hk]
    refine fail_at (es := es ++ [.call (.read n s.cfg.tCall) .readFailed]) ?_ _ p hp (by simp)
    have e : ∀ z : Event, (({ t with
        writeAnswers := t.writeAnswers, rx := rest, clock := t.clock, outstanding := none } : State).log z).cleared =
        { t.cleared with rx := rest, events := t.events ++ [z] } := fun _ => rfl
    rw [e, ht, events_of_cleared ht, hcfg]
  · rw [budget_of_cleared ht]; simp [State.budget]; omega

/-- A sample that is not ready, and a time at or past the bound, end the operation with Timeout. -/
theorem runs_timeout {m : Millis} {t0 x : Nat} {b : Byte} (h : Sampling t m t0) (hb : b ≠ ready)
    (hx : t0 + m.toNat ≤ x) (hp : t.phase = p)
    (ht : t.cleared = { s with writeAnswers := w, rx := .byte b :: rest, clock := x :: c, events := es })
    (hv : v = { s with
      writeAnswers := w, rx := rest, clock := c
      events := es ++ [sampleCall s.cfg.tCall b, clockCall x, .phase .failed, .result (failureMsg (.timeout b) p),
        .phase .idle] }) : Runs t v := by
  subst hv
  have hcfg : t.cfg = s.cfg := by rw [cfg_of_cleared ht]
  have hr : t.rx = .byte b :: rest := rx_of_cleared ht
  have hc : t.clock = x :: c := clock_of_cleared ht
  have h1 : Along t t.writeAnswers rest t.clock [sampleCall s.cfg.tCall b]
      { t with
        rx := rest
        outstanding := some ⟨.clock, .timed⟩
        events := t.events ++ [sampleCall s.cfg.tCall b]
        pollLast := some b } := by
    refine .one h.outstanding (answerOf_read (b := [b]) (by simpa using hr) rfl) (by simp [State.budget, hr])
      (runRule_eq ?_) rfl rfl rfl rfl
    simp [resume, pollSampled, hb, State.log, sampleCall, hcfg]
  refine h1.runs.trans ?_
  refine .one (c := .clock) (k := .timed) rfl (answerOf_clock (x := x) (c := c) (by exact hc)) (runRule_eq ?_) ?_
  · simp only [resume, pollTimed, wp_bind, wp_get, wp_valueOf, wp_check]
    refine ⟨t0, h.start, m, h.tmo, b, rfl, fun hlt => absurd hlt ?_, fun _ => ?_⟩
    · simp only [zextMillis_eq]; omega
    · refine fail_at (es := es ++ [sampleCall s.cfg.tCall b, clockCall x]) ?_ _ p hp (by simp)
      have e : ∀ z y : Event, (({ t with
          rx := rest, clock := c, outstanding := none, pollLast := some b
          events := t.events ++ [z] } : State).log y).cleared =
          { t.cleared with rx := rest, clock := c, events := t.events ++ [z] ++ [y] } := fun _ _ => rfl
      exact (e _ _).trans (by rw [ht, events_of_cleared ht]; simp [clockCall])
  · have hw : t.writeAnswers = w := writeAnswers_of_cleared ht
    simp [State.budget, hc, hw]

/-- The sentinel does not come: the operation ends with ACK_MISMATCH. -/
theorem runs_ackMismatch {st : Byte} {a : List Byte} (ho : t.outstanding = some ⟨.read 7 t.cfg.tCall, .ackArrived⟩)
    (hl : a.length = 6) (ha : a ≠ ackSeq) (hp : t.phase = p)
    (ht : t.cleared = { s with writeAnswers := w, rx := stream (st :: a) ++ rest, clock := c, events := es })
    (hv : v = { s with
      writeAnswers := w, rx := rest, clock := c
      events := es ++ [.call (.read 7 s.cfg.tCall) (.bytes (st :: a)), .phase .failed,
        .result (failureMsg (.ackMismatch a) p), .phase .idle] }) : Runs t v := by
  subst hv
  have hcfg : t.cfg = s.cfg := by rw [cfg_of_cleared ht]
  refine .one ho (answerOf_read (b := st :: a) (rx_of_cleared ht) (by simp [hl])) (runRule_eq ?_) ?_
  · simp only [resume, wp_bind]
    rw [wp_ackArrived (by simp [hl])]
    refine ⟨fun h => absurd h ha, fun _ => ?_⟩
    refine fail_at (es := es ++ [.call (.read 7 s.cfg.tCall) (.bytes (st :: a))]) ?_ _ p hp (by simp)
    have e : ∀ (z : Event) (m : Memory), ({ ({ t with
        writeAnswers := t.writeAnswers, rx := rest, clock := t.clock, outstanding := none } : State).log z with
        ackbuf := m } : State).cleared = { t.cleared with rx := rest, events := t.events ++ [z] } := fun _ _ => rfl
    exact (e _ _).trans (by rw [ht, events_of_cleared ht, hcfg])
  · rw [budget_of_cleared ht]; simp [State.budget]

/-- A header that fails a check ends the operation, with no body read. -/
theorem runs_badHeader {st : Byte} {h : List Byte} {e : Failure}
    (ho : t.outstanding = some ⟨.read 6 t.cfg.tCall, .headerArrived⟩) (hl : h.length = 5)
    (he : Verdicts.header s.cfg.rxBodyCap h = .error e) (hp : t.phase = p)
    (ht : t.cleared = { s with writeAnswers := w, rx := stream (st :: h) ++ rest, clock := c, events := es })
    (hv : v = { s with
      writeAnswers := w, rx := rest, clock := c
      events := es ++ [.call (.read 6 s.cfg.tCall) (.bytes (st :: h)), .phase .failed, .result (failureMsg e p),
        .phase .idle] }) : Runs t v := by
  subst hv
  have hcfg : t.cfg = s.cfg := by rw [cfg_of_cleared ht]
  refine .one ho (answerOf_read (b := st :: h) (rx_of_cleared ht) (by simp [hl])) (runRule_eq ?_) ?_
  · simp only [resume]
    rw [wp_headerArrived (by simp [hl])]
    rw [show Verdicts.header _ ((st :: h).drop 1) = .error e by
      show Verdicts.header t.cfg.rxBodyCap h = .error e
      rw [hcfg, he]]
    refine fail_at (es := es ++ [.call (.read 6 s.cfg.tCall) (.bytes (st :: h))]) ?_ _ p hp (by simp)
    have e : ∀ (z : Event) (m : Memory), ({ ({ t with
        writeAnswers := t.writeAnswers, rx := rest, clock := t.clock, outstanding := none } : State).log z with
        hdrbuf := m } : State).cleared = { t.cleared with rx := rest, events := t.events ++ [z] } := fun _ _ => rfl
    exact (e _ _).trans (by rw [ht, events_of_cleared ht, hcfg])
  · rw [budget_of_cleared ht]; simp [State.budget]

/-- A header that passes leads to the body read. -/
theorem runs_goodHeader {st : Byte} {h : List Byte} {len : Byte}
    (ho : t.outstanding = some ⟨.read 6 t.cfg.tCall, .headerArrived⟩) (hl : h.length = 5)
    (he : Verdicts.header s.cfg.rxBodyCap h = .ok len) (hp : t.phase = p)
    (ht : t.cleared = { s with writeAnswers := w, rx := stream (st :: h) ++ rest, clock := c, events := es }) :
    ∃ u, Runs t u ∧ u.phase = p ∧ u.operands = t.operands ∧ u.cmd = t.cmd ∧
      u.outstanding = some ⟨.read (len.toNat + 2) u.cfg.tCall, .bodyArrived len⟩ ∧
      u.cleared = { s with
        writeAnswers := w, rx := rest, clock := c
        events := es ++ [.call (.read 6 s.cfg.tCall) (.bytes (st :: h))] } := by
  have hcfg : t.cfg = s.cfg := by rw [cfg_of_cleared ht]
  refine ⟨{ t with
    rx := rest
    outstanding := some ⟨.read (len.toNat + 2) t.cfg.tCall, .bodyArrived len⟩
    hdrbuf := writeBytes t.hdrbuf 0 (st :: h)
    events := t.events ++ [.call (.read 6 t.cfg.tCall) (.bytes (st :: h))] }, ?_, hp, rfl, rfl, rfl, ?_⟩
  · refine .one ho (answerOf_read (b := st :: h) (rx_of_cleared ht) (by simp [hl])) (runRule_eq ?_) ?_
    · simp only [resume]
      rw [wp_headerArrived (by simp [hl])]
      rw [show Verdicts.header _ ((st :: h).drop 1) = .ok len by
        show Verdicts.header t.cfg.rxBodyCap h = .ok len
        rw [hcfg, he]]
      rfl
    · have h1 : t.rx = stream (st :: h) ++ rest := rx_of_cleared ht
      simp [State.budget, h1]
  · have e : ∀ (z : Event) (m : Memory) (o : Option Outstanding), ({ t with
        rx := rest, hdrbuf := m, outstanding := o, events := t.events ++ [z] } : State).cleared =
        { t.cleared with rx := rest, events := t.events ++ [z] } := fun _ _ _ => rfl
    exact (e _ _ _).trans (by rw [ht, events_of_cleared ht, hcfg])

/-- A body that fails a check ends the operation. -/
theorem runs_badBody {len : Byte} {b : List Byte} {e : Failure}
    (ho : t.outstanding = some ⟨.read (len.toNat + 2) t.cfg.tCall, .bodyArrived len⟩) (hl : b.length = len.toNat + 2)
    (hc : len.toNat + 2 ≤ s.cfg.rxBodyCap) (he : Verdicts.body tfiCtrl len b = .error e) (hp : t.phase = p)
    (ht : t.cleared = { s with writeAnswers := w, rx := stream b ++ rest, clock := c, events := es })
    (hv : v = { s with
      writeAnswers := w, rx := rest, clock := c
      events := es ++ [.call (.read (len.toNat + 2) s.cfg.tCall) (.bytes b), .phase .failed,
        .result (failureMsg e p), .phase .idle] }) : Runs t v := by
  subst hv
  have hcfg : t.cfg = s.cfg := by rw [cfg_of_cleared ht]
  refine .one ho (answerOf_read (rx_of_cleared ht) hl) (runRule_eq ?_) ?_
  · simp only [resume, wp_bind]
    rw [wp_bodyArrived hl (by
      show b.length ≤ t.cfg.rxBodyCap
      rw [hcfg, hl]; exact hc), he, afterVerdict_error]
    refine fail_at (es := es ++ [.call (.read (len.toNat + 2) s.cfg.tCall) (.bytes b)]) ?_ _ p hp (by simp)
    have e : ∀ z : Event, ((({ t with
        writeAnswers := t.writeAnswers, rx := rest, clock := t.clock, outstanding := none } : State).log z).withBody
        len b).cleared = { t.cleared with rx := rest, events := t.events ++ [z] } := fun _ => rfl
    rw [e, ht, events_of_cleared ht, hcfg]
  · rw [budget_of_cleared ht]; simp [State.budget]; omega

/-! ### Successes of the standalone operations, PHASE `Idle` -/

theorem wp_afterPoll_idle {R : Failure → State → Prop} {Q : Unit → State → Prop} (h : s.phase = .idle) :
    afterPoll.wp s Q R ↔ Q () (s.succeed statusOk []) := by
  rw [wp_afterPoll, h]; exact Iff.rfl

theorem wp_afterAck_idle {R : Failure → State → Prop} {Q : Unit → State → Prop} (h : s.phase = .idle) :
    afterAck.wp s Q R ↔ Q () (s.succeed statusOk []) := by
  rw [wp_afterAck, h]; exact Iff.rfl

theorem wp_afterResponse_idle {R : Failure → State → Prop} {Q : Unit → State → Prop} (h : s.phase = .idle) :
    afterResponse.wp s Q R ↔ validatedPayload.wp s (fun d u => Q () (u.succeed statusOk d)) R := by
  rw [wp_afterResponse, h]
  simp only [responseNext, wp_bind, wp_reply]

/-- A ready sample ends POLL_READY. -/
theorem runs_ready {m : Millis} {t0 : Nat} (h : Sampling t m t0) (hp : t.phase = .idle)
    (ht : t.cleared = { s with writeAnswers := w, rx := .byte ready :: rest, clock := c, events := es })
    (hv : v = { s with
      writeAnswers := w, rx := rest, clock := c
      events := es ++ [sampleCall s.cfg.tCall ready, .result (successMsg statusOk []), .phase .idle] }) : Runs t v := by
  subst hv
  have hcfg : t.cfg = s.cfg := by rw [cfg_of_cleared ht]
  refine .one h.outstanding (answerOf_read (b := [ready]) (rx_of_cleared ht) rfl) (runRule_eq ?_) ?_
  · simp only [resume, pollSampled, wp_bind, wp_byteAt]
    refine ⟨ready, rfl, ?_⟩
    simp only [wp_modify, if_true]
    refine (wp_afterPoll_idle (by exact hp)).mpr ?_
    have e : ∀ (z : Event) (l : Option Byte), ({ ({ t with
        writeAnswers := t.writeAnswers, rx := rest, clock := t.clock, outstanding := none } : State).log z with
        pollLast := l } : State).cleared = { t.cleared with rx := rest, events := t.events ++ [z] } := fun _ _ => rfl
    exact succeed_at ((e _ _).trans (by rw [ht, events_of_cleared ht, hcfg]; rfl)) _ _
      (es := es ++ [sampleCall s.cfg.tCall ready]) (by simp)
  · rw [budget_of_cleared ht]; simp [State.budget]

/-- The sentinel ends READ_ACK. -/
theorem runs_ack {st : Byte} (ho : t.outstanding = some ⟨.read 7 t.cfg.tCall, .ackArrived⟩) (hp : t.phase = .idle)
    (ht : t.cleared = { s with writeAnswers := w, rx := stream (st :: ackSeq) ++ rest, clock := c, events := es })
    (hv : v = { s with
      writeAnswers := w, rx := rest, clock := c
      events := es ++ [.call (.read 7 s.cfg.tCall) (.bytes (st :: ackSeq)), .result (successMsg statusOk []),
        .phase .idle] }) : Runs t v := by
  subst hv
  have hcfg : t.cfg = s.cfg := by rw [cfg_of_cleared ht]
  refine .one ho (answerOf_read (b := st :: ackSeq) (rx_of_cleared ht) rfl) (runRule_eq ?_) ?_
  · simp only [resume, wp_bind]
    rw [wp_ackArrived rfl]
    refine ⟨fun _ => ?_, fun h => absurd rfl h⟩
    refine (wp_afterAck_idle (by exact hp)).mpr ?_
    have e : ∀ (z : Event) (m : Memory), ({ ({ t with
        writeAnswers := t.writeAnswers, rx := rest, clock := t.clock, outstanding := none } : State).log z with
        ackbuf := m } : State).cleared = { t.cleared with rx := rest, events := t.events ++ [z] } := fun _ _ => rfl
    exact succeed_at ((e _ _).trans (by rw [ht, events_of_cleared ht, hcfg])) _ _
      (es := es ++ [.call (.read 7 s.cfg.tCall) (.bytes (st :: ackSeq))]) (by simp)
  · rw [budget_of_cleared ht]; simp [State.budget, ackSeq]; omega

/-- A valid body ends READ_RESPONSE. -/
theorem runs_body {len : Byte} {b d : List Byte}
    (ho : t.outstanding = some ⟨.read (len.toNat + 2) t.cfg.tCall, .bodyArrived len⟩) (hl : b.length = len.toNat + 2)
    (hc : len.toNat + 2 ≤ s.cfg.rxBodyCap) (he : Verdicts.body tfiCtrl len b = .ok d) (hp : t.phase = .idle)
    (ht : t.cleared = { s with writeAnswers := w, rx := stream b ++ rest, clock := c, events := es })
    (hv : v = { s with
      writeAnswers := w, rx := rest, clock := c
      events := es ++ [.call (.read (len.toNat + 2) s.cfg.tCall) (.bytes b), .result (successMsg statusOk d),
        .phase .idle] }) : Runs t v := by
  subst hv
  have hcfg : t.cfg = s.cfg := by rw [cfg_of_cleared ht]
  have hb : b.length ≤ t.cfg.rxBodyCap := by rw [hcfg, hl]; exact hc
  refine .one ho (answerOf_read (rx_of_cleared ht) hl) (runRule_eq ?_) ?_
  · simp only [resume, wp_bind]
    rw [wp_bodyArrived hl (by exact hb), he, afterVerdict_ok]
    refine (wp_afterResponse_idle (by exact hp)).mpr ?_
    refine (wp_validatedPayload (m := t.rxbuf) (b := b) (len := len) (by rfl) (by rfl) (by exact hb) (by omega) _).mpr ?_
    rw [← (Verdicts.body_ok he).1]
    have e : ∀ z : Event, ((({ t with
        writeAnswers := t.writeAnswers, rx := rest, clock := t.clock, outstanding := none } : State).log z).withPayload
        len b).cleared = { t.cleared with rx := rest, events := t.events ++ [z] } := fun _ => rfl
    exact succeed_at ((e _).trans (by rw [ht, events_of_cleared ht, hcfg])) _ _
      (es := es ++ [.call (.read (len.toNat + 2) s.cfg.tCall) (.bytes b)]) (by simp)
  · rw [budget_of_cleared ht]; simp [State.budget]; omega

/-! ### To the polls and reads of a dispatcher operation -/

/-- A dispatcher operation that sends a command whose write is answered `OK`. -/
theorem exec_written {i : Instr} {opc cmd : Byte} {l : Lead} (hs : s.AtRest) (hcfg : s.cfg.InRange)
    (ho : i.opcode = some opc) (hl : Leads s.cfg i cmd l) (hw : s.writeAnswers = l.writes ++ true :: w)
    (hr : s.rx = stream l.bytes ++ r) (hc : s.clock = l.times ++ c) :
    ∃ x, x.cleared = { s with
          writeAnswers := w, rx := r, clock := c
          events := s.events ++ .accepted opc :: (l.events ++ written s.cfg cmd) } ∧
      x.operands = some i ∧ Polling x tAckMs .ackPending ∧
      ∀ v, Runs x v → turn v = none → exec i s = .next v := by
  obtain ⟨y, y1, y2, y3⟩ := exec_led hs hcfg ho hl hw hr hc
  have ycfg : y.cfg = s.cfg := by rw [cfg_of_cleared y1]
  obtain ⟨x, x1, x2⟩ := Along.frameWritten (s := y.sending cmd (commandPayload s.cfg cmd))
    (f := sentFrame s.cfg cmd) (w := w) rfl (writeAnswers_of_cleared y1)
  refine ⟨x, ?_, x1.operands.trans y2, x2, fun v hv ht => y3 v (x1.runs.trans hv) ht⟩
  rw [x1.cleared, sending_cleared, y1]
  simp [State.sending, State.setPhase, State.log, written, writing, ycfg, rx_of_cleared y1, clock_of_cleared y1,
    events_of_cleared y1]

/-- A dispatcher operation that sends a command which is acknowledged. -/
theorem exec_acked {i : Instr} {opc cmd : Byte} {l : Lead} {m : Millis} {a : Acked} (hs : s.AtRest)
    (hcfg : s.cfg.InRange) (ho : i.opcode = some opc) (hl : Leads s.cfg i cmd l) (hm : responseBound (some i) = some m)
    (hw : s.writeAnswers = l.writes ++ true :: w) (ha : a.wait.Within tAckMs)
    (hr : s.rx = stream (l.bytes ++ a.bytes) ++ r) (hc : s.clock = l.times ++ (a.wait.times ++ c)) :
    ∃ x, x.cleared = { s with
          writeAnswers := w, rx := r, clock := c
          events := s.events ++ .accepted opc :: (l.events ++ a.events s.cfg cmd) } ∧
      x.operands = some i ∧ Polling x m .responsePending ∧
      ∀ v, Runs x v → turn v = none → exec i s = .next v := by
  obtain ⟨x, x1, x2, x3, x4⟩ := exec_written (r := stream a.bytes ++ r) hs hcfg ho hl hw (by simpa using hr) hc
  obtain ⟨y, y1, y2⟩ := Along.acked x3 (rx_of_cleared x1) (clock_of_cleared x1) ha (by rw [x2]; exact hm)
  refine ⟨y, ?_, y1.operands.trans x2, y2, fun v hv ht => x4 v (y1.runs.trans hv) ht⟩
  have xcfg : x.cfg = s.cfg := by rw [cfg_of_cleared x1]
  rw [y1.cleared, x1, events_of_cleared x1, writeAnswers_of_cleared x1, xcfg]
  simp [Acked.events]

end Sys2Proof.Machine
end

