-- ==== Sys2Proof/Laws/Components.lean ====
section
/-! SUPPORT. How a component operation begins and ends at a block at rest. -/

namespace Sys2Proof.Machine

open Host (Outcome)

variable {s v : State} {i : Instr} {opc : Byte} {r : Rule Unit}

theorem phase_of_rest (hs : s.AtRest) : s.phase = .idle := by
  rw [← show s.cleared = s from hs]; rfl

/-- An operation that makes no call is over at once. -/
theorem request_end (hs : s.AtRest) {es : List Event}
    (h : runRule r (s.accept i opc) = .next { s with events := s.events ++ es }) :
    request i opc r s = .next { s with events := s.events ++ es } := by
  rw [request_of_rest hs h]
  have := outstanding_of_rest hs
  exact advance_of_not_outstanding this

/-- It may succeed ... -/
theorem accept_succeed (hs : s.AtRest) (i : Instr) (opc st : Byte) (d : List Byte) :
    (s.accept i opc).succeed st d = { s with events := s.events ++ succeeded opc [] st d } := by
  rw [succeed_of_cleared (accept_cleared hs i opc)]
  simp [succeeded]

/-- ... or fail. -/
theorem accept_fail (hs : s.AtRest) (i : Instr) (opc : Byte) (e : Failure) :
    (s.accept i opc).fail e = { s with events := s.events ++ failedWith opc [] e .idle } := by
  rw [fail_of_cleared (accept_cleared hs i opc)]
  simp [failedWith, phase_of_rest hs]

/-- An operation that begins with a call. -/
theorem request_call (hs : s.AtRest) {c : Call} {k : Resume}
    (hr : runRule r (s.accept i opc) = .next { s.accept i opc with outstanding := some ⟨c, k⟩ })
    (h : Runs { s.accept i opc with outstanding := some ⟨c, k⟩ } v) (hv : turn v = none) :
    request i opc r s = .next v := by
  rw [request_of_rest hs hr]
  exact h.advance hv

theorem accept_call_cleared (hs : s.AtRest) (i : Instr) (opc : Byte) (o : Option Outstanding) :
    ({ s.accept i opc with outstanding := o } : State).cleared =
      { s with
        writeAnswers := s.writeAnswers, rx := s.rx, clock := s.clock, events := s.events ++ [.accepted opc] } :=
  accept_cleared hs i opc

/-- POLL_READY through a wait to the sample after it. -/
theorem exec_pollReady_wait (hs : s.AtRest) {m : Millis} {w : Wait} {rest : List RxToken} {c : List Nat}
    (hw : w.Within m) (hc : s.clock = w.times ++ c) (hr : s.rx = stream w.samples ++ rest) :
    ∃ y, y.cleared = { s with
          writeAnswers := s.writeAnswers, rx := rest, clock := c
          events := s.events ++ .accepted 0x05 :: w.calls s.cfg.tCall } ∧
      Sampling y m w.t0 ∧ y.phase = .idle ∧ y.busy = true ∧
      ∀ v, Runs y v → turn v = none → exec (.pollReady m) s = .next v := by
  obtain ⟨y, y1, y2, y3⟩ := Along.wait (s := { s.accept (.pollReady m) 0x05 with
    outstanding := some ⟨.clock, .pollStarted⟩, pollTmo := some m }) (b := m) rfl rfl hr hc hw
  refine ⟨y, ?_, y3, y2.trans (show s.phase = .idle from phase_of_rest hs), y1.busy, fun v hv ht => ?_⟩
  · rw [y1.cleared]
    have e : ({ s.accept (.pollReady m) 0x05 with
        outstanding := some ⟨.clock, .pollStarted⟩, pollTmo := some m } : State).cleared =
        (s.accept (.pollReady m) 0x05).cleared := rfl
    rw [e, accept_cleared hs]
    simp
  · show request _ _ _ s = _
    rw [request_of_rest (t := { s.accept (.pollReady m) 0x05 with
      outstanding := some ⟨.clock, .pollStarted⟩, pollTmo := some m }) hs (runRule_eq (by simp [pollStart]))]
    exact (y1.runs.trans hv).advance ht

end Sys2Proof.Machine
end

