-- ==== Sys2Proof/Laws/Reset.lean ====
section
/-! SUPPORT. What a reset leaves, and how the answers to abandoned calls go. -/

namespace Sys2Proof.Machine

variable {s : State}

/-! ### Abandoned reads -/

@[simp] theorem dropRead_zero (ts : List RxToken) : dropRead 0 ts = (0, ts) := by
  cases ts <;> rfl

/-- While something of an abandoned read is still to come, nothing of the stream is left. -/
theorem dropRead_pending {n m : Nat} {ts rest : List RxToken} (h : dropRead n ts = (m + 1, rest)) : rest = [] := by
  induction ts generalizing n with
  | nil => cases n <;> simp [dropRead] at h; exact h.2
  | cons t ts ih =>
    cases n with
    | zero => simp [dropRead] at h
    | succ n => cases t <;> simp only [dropRead, Prod.mk.injEq, reduceCtorEq, false_and] at h; exact ih h

theorem dropReads_pending {ns : List Nat} {ts : List RxToken} (h : (dropReads ns ts).1 ≠ []) :
    (dropReads ns ts).2 = [] := by
  induction ns generalizing ts with
  | nil => exact absurd rfl h
  | cons n ns ih =>
    rw [dropReads] at h ⊢
    split at h
    · exact ih h
    · rename_i m rest hd; exact dropRead_pending hd

/-- More of the stream goes on where the discarding had come to. -/
theorem dropRead_append (n : Nat) (ts more : List RxToken) :
    dropRead n (ts ++ more) = dropRead (dropRead n ts).1 ((dropRead n ts).2 ++ more) := by
  induction ts generalizing n with
  | nil => cases n <;> simp [dropRead]
  | cons t ts ih =>
    cases n with
    | zero => simp
    | succ n =>
      cases t with
      | fail => exact (dropRead_zero _).symm
      | byte b => exact ih n

theorem dropReads_append (ns : List Nat) (ts more : List RxToken) :
    dropReads ns (ts ++ more) = dropReads (dropReads ns ts).1 ((dropReads ns ts).2 ++ more) := by
  induction ns generalizing ts with
  | nil => rfl
  | cons n ns ih =>
    rcases h : dropRead n ts with ⟨_ | m, rest⟩
    · have h1 := dropRead_append n ts more
      simp only [h, dropRead] at h1
      simp [dropReads, h, h1, ih]
    · have h1 := dropRead_append n ts more
      simp only [h] at h1
      simp [dropReads, h, h1]

/-- The answer to a read that has come is what an abandoned read discards. -/
theorem dropRead_of_takeRead {n : Nat} {ts rest : List RxToken} {a : Answer} (h : takeRead n ts = some (a, rest)) :
    dropRead n ts = (0, rest) := by
  induction ts generalizing n a with
  | nil => cases n <;> simp [takeRead] at h; simp [dropRead, h]
  | cons t ts ih =>
    cases n with
    | zero => simp [takeRead] at h; simp [dropRead, h]
    | succ n =>
      cases t with
      | fail => simp [takeRead] at h; simp [dropRead, h]
      | byte b =>
        rcases hr : takeRead n ts with _ | ⟨a', r⟩
        · simp [takeRead, hr] at h
        · have : r = rest := by
            cases a' <;> simp [takeRead, hr] at h <;> exact h.2
          subst this
          exact ih hr

/-! ### `State.dropOwed` -/

/-- With no answer owed, nothing is discarded. -/
theorem State.dropOwed_of_nothing (h : s.owed = .nothing) : s.dropOwed = s := by
  cases s
  cases h
  simp [State.dropOwed, dropReads]

/-- What has been discarded is not discarded again. -/
@[simp] theorem State.dropOwed_dropOwed (s : State) : s.dropOwed.dropOwed = s.dropOwed := by
  have h := dropReads_append s.owed.reads s.rx []
  simp only [List.append_nil] at h
  simp only [State.dropOwed, ← h, List.drop_drop, List.length_drop, State.mk.injEq, Owed.mk.injEq, true_and, and_true]
  refine ⟨?_, ?_, ?_, ?_⟩
  · by_cases h : s.owed.writes ≤ s.writeAnswers.length
    · simp [Nat.sub_eq_zero_of_le h]
    · rw [List.drop_of_length_le (by omega), List.drop_of_length_le (by omega)]
  · by_cases h : s.owed.times ≤ s.clock.length
    · simp [Nat.sub_eq_zero_of_le h]
    · rw [List.drop_of_length_le (by omega), List.drop_of_length_le (by omega)]
  · omega
  · omega

/-! ### `State.applyReset` -/

/-- A reset leaves the cleared state, the channels without what the outstanding call was answered, and one event. -/
theorem State.applyReset_eq (s : State) :
    s.applyReset = { s.cleared with
      writeAnswers := s.dropAnswer.writeAnswers, rx := s.dropAnswer.rx, clock := s.dropAnswer.clock,
      owed := s.dropAnswer.owed, resetLine := false, events := s.events ++ [.reset] } := by
  simp [State.applyReset, State.log, State.cleared, State.discardCommand]

/-- With no call outstanding, a reset discards only what was owed before. -/
theorem State.dropAnswer_of_not_outstanding (h : s.outstanding = none) : s.dropAnswer = s.dropOwed := by
  have : s.dropOwed.abandonCall = s.dropOwed := by simp [State.abandonCall, h]
  simp only [State.dropAnswer, this, State.dropOwed_dropOwed, ite_self]

/-! ### A fetched item -/

/-- With no reset on acceptance, a fetched item is executed. -/
theorem runItem_of_no_reset (h : s.resetOnAccept = false) (i : Instr) : runItem i s = exec i s := by
  simp [runItem, h]

/-- A wire item accepts nothing. -/
theorem runItem_of_busy (h : s.busy = true) (i : Instr) : runItem i s = exec i s := by
  unfold runItem; split <;> simp [h]

/-- A request is abandoned by a reset on its acceptance. -/
theorem runItem_of_reset {i : Instr} {opc : Byte} (h : s.resetOnAccept = true) (hb : s.busy = false)
    (ho : i.opcode = some opc) : runItem i s = .next (s.abandonRequest i opc) := by
  simp [runItem, h, hb, ho]

end Sys2Proof.Machine
end

