-- ==== Sys2Proof/Tests/Slice0.lean ====
section
/-! SUPPORT. The model's own tests. Expected results are the spec's: the vectors of 95_test_vectors.md by their section, or
the encodings of 30_encoding.md written out. The second half shows, for every obligation with hypotheses, states and
operands that meet them. -/

namespace Sys2Proof.Tests

open Host (Outcome)
open Sys2Proof.Machine

/-! ### Helpers -/

/-- The default parameters with some value for the parameter that has no default. -/
def demo : Config := { Config.default with tCall := 5 }

/-- The block after reset with these parameters. -/
def rested : State := { State.reset with cfg := demo }

/-- A block at rest with answers on its channels. -/
def fed (w : List Bool) (bs : List Byte) (c : List Nat) : State :=
  { rested with writeAnswers := w, rx := stream bs, clock := c }

/-- The last RES message of an outcome. -/
def resOf : Outcome State Fault Refusal → Option ResMsg
  | .next t => t.events.reverse.findSome? fun e => match e with
    | .result m => some m
    | _ => none
  | .fault _ => none
  | .refused _ => none

/-- What an outcome refuses. -/
def refusedOf : Outcome State Fault Refusal → Option Refusal
  | .next _ => none
  | .fault _ => none
  | .refused r => some r

/-- PHASE and the outstanding call of an outcome. -/
def pointOf : Outcome State Fault Refusal → Option (Phase × Option Outstanding)
  | .next t => some (t.phase, t.outstanding)
  | .fault _ => none
  | .refused _ => none

/-- The ack read of 95_test_vectors.md. -/
def ack7 : List Byte := [0x01, 0x00, 0x00, 0xFF, 0x00, 0xFF, 0x00]

/-! ### WellFormed: a term one past each bound is refused, the term at the bound is not -/

theorem test_checksum_too_long (l : List Byte) (h : l.length = 65536) : (Instr.checksum l).WellFormed = false := by
  simp [Instr.WellFormed, h]

theorem test_checksum_longest (l : List Byte) (h : l.length = 65535) : (Instr.checksum l).WellFormed = true := by
  simp [Instr.WellFormed, h]

theorem test_verifyChecksum_too_long (l : List Byte) (h : l.length = 65536) :
    (Instr.verifyChecksum 0x00 l).WellFormed = false := by simp [Instr.WellFormed, h]

theorem test_encodeFrame_too_long (l : List Byte) (h : l.length = 65536) :
    (Instr.encodeFrame 0x02 l).WellFormed = false := by simp [Instr.WellFormed, h]

theorem test_decodeFrame_too_long (l : List Byte) (h : l.length = 65536) :
    (Instr.decodeFrame 0xD5 l).WellFormed = false := by simp [Instr.WellFormed, h]

theorem test_parseTarget_too_long (l : List Byte) (h : l.length = 65536) :
    (Instr.parseTarget 0x0A l).WellFormed = false := by simp [Instr.WellFormed, h]

theorem test_samResponse_too_long (l : List Byte) (h : l.length = 254) :
    (Instr.wireRspSamConfiguration 0x01 l).WellFormed = false := by simp [Instr.WellFormed, h]

theorem test_samResponse_longest (l : List Byte) (h : l.length = 253) :
    (Instr.wireRspSamConfiguration 0x01 l).WellFormed = true := by simp [Instr.WellFormed, h]

theorem test_targetResponse_too_long (l : List Byte) (h : l.length = 254) :
    (Instr.wireRspInListPassiveTarget 0x01 l).WellFormed = false := by simp [Instr.WellFormed, h]

/-- There is such a term: no hypothesis above is empty. -/
theorem test_length_65536 : (List.replicate 65536 (0x00 : Byte)).length = 65536 := List.length_replicate

/-! ### Decoding, every constructor (30_encoding.md R91 to R108, 95_test_vectors.md 1, 2) -/

theorem test_decode_checksum : decode .request [0x01, 0x00, 0x02, 0xD4, 0x02] = .ok (.checksum [0xD4, 0x02]) := by decide

theorem test_decode_verifyChecksum : decode .request [0x02, 0xFD, 0x00, 0x01, 0x03] = .ok (.verifyChecksum 0xFD [0x03]) := by
  decide

theorem test_decode_encodeFrame :
    decode .request [0x03, 0x14, 0x00, 0x03, 0x01, 0x14, 0x01] = .ok (.encodeFrame 0x14 [0x01, 0x14, 0x01]) := by decide

theorem test_decode_decodeFrame :
    decode .request [0x04, 0xD5, 0x00, 0x04, 0x00, 0x00, 0xFF, 0x03] = .ok (.decodeFrame 0xD5 [0x00, 0x00, 0xFF, 0x03]) := by
  decide

theorem test_decode_pollReady : decode .request [0x05, 0x00, 0x00, 0x00, 0x32] = .ok (.pollReady 50) := by decide

theorem test_decode_readAck : decode .request [0x06] = .ok .readAck := by decide

theorem test_decode_readResponse : decode .request [0x07] = .ok .readResponse := by decide

theorem test_decode_parseTarget :
    decode .request [0x08, 0x0A, 0x00, 0x03, 0xD5, 0x4B, 0x00] = .ok (.parseTarget 10 [0xD5, 0x4B, 0x00]) := by decide

theorem test_decode_begin : decode .request [0x10] = .ok .beginOp := by decide

theorem test_decode_getFirmwareVersion : decode .request [0x11] = .ok .getFirmwareVersion := by decide

theorem test_decode_configureSam : decode .request [0x12] = .ok .configureSam := by decide

theorem test_decode_readPassiveTargetA : decode .request [0x13, 0x00, 0x00, 0x03, 0xE8] = .ok (.readPassiveTargetA 1000) := by
  decide

theorem test_decode_timeout_byte_order :
    decode .request [0x05, 0x80, 0x00, 0x00, 0x01] = .ok (.pollReady 0x80000001) := by decide

theorem test_decode_wireCmdGetFirmwareVersion :
    decode .command [0x00, 0x00, 0xFF, 0x02, 0xFE, 0xD4, 0x02, 0x2A, 0x00] = .ok .wireCmdGetFirmwareVersion := by decide

theorem test_decode_wireCmdSamConfiguration :
    decode .command [0x00, 0x00, 0xFF, 0x05, 0xFB, 0xD4, 0x14, 0x01, 0x14, 0x01, 0x02, 0x00] =
      .ok (.wireCmdSamConfiguration 0x01 0x14 0x01) := by decide

theorem test_decode_wireCmdInListPassiveTarget :
    decode .command [0x00, 0x00, 0xFF, 0x04, 0xFC, 0xD4, 0x4A, 0x01, 0x00, 0xE1, 0x00] =
      .ok .wireCmdInListPassiveTarget := by decide

theorem test_decode_wireRspGetFirmwareVersion :
    decode .response [0x01, 0x00, 0x00, 0xFF, 0x06, 0xFA, 0xD5, 0x03, 0x32, 0x01, 0x06, 0x07, 0xE8, 0x00] =
      .ok (.wireRspGetFirmwareVersion 0x01 0x32 0x01 0x06 0x07) := by decide

theorem test_decode_wireRspSamConfiguration :
    decode .response [0x01, 0x00, 0x00, 0xFF, 0x02, 0xFE, 0xD5, 0x15, 0x16, 0x00] =
      .ok (.wireRspSamConfiguration 0x01 []) := by decide

theorem test_decode_wireRspInListPassiveTarget :
    decode .response [0x01, 0x00, 0x00, 0xFF, 0x03, 0xFD, 0xD5, 0x4B, 0x00, 0xE0, 0x00] =
      .ok (.wireRspInListPassiveTarget 0x01 [0x00]) := by decide

theorem test_decode_wireAck : decode .ack ack7 = .ok (.wireAck 0x01) := by decide

theorem test_decode_wireStatusReady : decode .sample [0x01] = .ok .wireStatusReady := by decide

theorem test_decode_sample_0x81 : decode .sample [0x81] = .error .notInTable := by decide

/-- 95_test_vectors.md 2.7. -/
theorem test_refused_descriptors :
    (List.map (fun d => refusedOf (step { rested with offered := [d] }))
      [[0x00], [0x09], [0x0F], [0x14], [0xFF], [0x01, 0x00, 0x02, 0xD4], [0x06, 0x00], [0x13, 0x00, 0x00, 0x03]]).all
      Option.isSome = true := by decide

/-- Every word of spec/opcode_table.json but WIRE_STATUS_READY's, which is CHECKSUM's too (log entry 12). -/
theorem test_table_words :
    ([(8, 0x01), (8, 0x02), (8, 0x03), (8, 0x04), (8, 0x05), (8, 0x06), (8, 0x07), (8, 0x08), (8, 0x10), (8, 0x11), (8, 0x12),
      (8, 0x13)].map fun x => decodeTableWord x.1 x.2) =
      [some (.checksum []), some (.verifyChecksum 0 []), some (.encodeFrame 0 []), some (.decodeFrame 0 []),
        some (.pollReady 0), some .readAck, some .readResponse, some (.parseTarget 0 []), some .beginOp,
        some .getFirmwareVersion, some .configureSam, some (.readPassiveTargetA 0)] := by decide

/-! ### One step per operation (95_test_vectors.md 2.1 to 2.6, 1) -/

theorem test_checksum : resOf (exec (.checksum [0xD5, 0x03, 0x32, 0x01, 0x06, 0x07]) rested) =
    some ⟨0x00, 0x00, .idle, [0xE8]⟩ := by decide

theorem test_checksum_wraps : resOf (exec (.checksum [0x80, 0x80]) rested) = some ⟨0x00, 0x00, .idle, [0x00]⟩ := by decide

theorem test_verifyChecksum_mismatch :
    resOf (exec (.verifyChecksum 0xE9 [0xD5, 0x03, 0x32, 0x01, 0x06, 0x07]) rested) =
      some ⟨0x00, 0x00, .idle, [0x00]⟩ := by decide

theorem test_verifyChecksum_empty : resOf (exec (.verifyChecksum 0x00 []) rested) = some ⟨0x00, 0x00, .idle, [0x01]⟩ := by
  decide

theorem test_encodeFrame_zero_dcs : resOf (exec (.encodeFrame 0x2C []) rested) =
    some ⟨0x00, 0x00, .idle, [0x00, 0x00, 0xFF, 0x02, 0xFE, 0xD4, 0x2C, 0x00, 0x00]⟩ := by decide

theorem test_encodeFrame_too_big : resOf (exec (.encodeFrame 0x4A (List.replicate 61 0xAA)) rested) =
    some ⟨0x84, 0x01, .idle, []⟩ := by decide

theorem test_decodeFrame_flipped_dcs :
    resOf (exec (.decodeFrame 0xD5 [0x00, 0x00, 0xFF, 0x03, 0xFD, 0xD5, 0x4B, 0x00, 0x60, 0x00]) rested) =
      some ⟨0x82, 0x07, .idle, [0x60]⟩ := by decide

theorem test_decodeFrame_overflow_before_length :
    resOf (exec (.decodeFrame 0xD5 [0x00, 0x00, 0xFF, 0x3F, 0xC1]) rested) = some ⟨0x84, 0x02, .idle, [0x3F]⟩ := by decide

theorem test_pollReady_third_sample : resOf (exec (.pollReady 50) (fed [] [0x00, 0x00, 0x01] [0, 5, 10])) =
    some ⟨0x00, 0x00, .idle, []⟩ := by decide

theorem test_pollReady_bound : resOf (exec (.pollReady 50) (fed [] [0x00, 0x00] [0, 49, 50])) =
    some ⟨0x81, 0x00, .idle, [0x00]⟩ := by decide

theorem test_readAck_any_status : resOf (exec .readAck (fed [] [0x00, 0x00, 0x00, 0xFF, 0x00, 0xFF, 0x00] [])) =
    some ⟨0x00, 0x00, .idle, []⟩ := by decide

theorem test_readAck_one_bit : resOf (exec .readAck (fed [] [0x01, 0x00, 0x00, 0xFF, 0x00, 0xFF, 0x01] [])) =
    some ⟨0x82, 0x01, .idle, [0x00, 0x00, 0xFF, 0x00, 0xFF, 0x01]⟩ := by decide

theorem test_readResponse :
    resOf (exec .readResponse (fed []
      [0x01, 0x00, 0x00, 0xFF, 0x06, 0xFA, 0xD5, 0x03, 0x32, 0x01, 0x06, 0x07, 0xE8, 0x00] [])) =
      some ⟨0x00, 0x00, .idle, [0xD5, 0x03, 0x32, 0x01, 0x06, 0x07]⟩ := by decide

theorem test_readResponse_len_zero : resOf (exec .readResponse (fed [] [0x01, 0x00, 0x00, 0xFF, 0x00, 0x00, 0x00, 0x00] [])) =
    some ⟨0x82, 0x05, .idle, [0x00]⟩ := by decide

theorem test_parseTarget_last_byte :
    resOf (exec (.parseTarget 4 [0xD5, 0x4B, 0x01, 0x01, 0x00, 0x04, 0x08, 0x04, 0x01, 0x02, 0x03, 0x04]) rested) =
      some ⟨0x00, 0x00, .idle, [0x01, 0x02, 0x03, 0x04]⟩ := by decide

theorem test_parseTarget_past_end_first :
    resOf (exec (.parseTarget 3 [0xD5, 0x4B, 0x01, 0x01, 0x00, 0x04, 0x08, 0x05, 0x01, 0x02, 0x03, 0x04]) rested) =
      some ⟨0x82, 0x0C, .idle, [0x05]⟩ := by decide

/-- What the controller sends in the scenario S3 from the first status sample on. -/
def versionReply : List Byte :=
  [0x01] ++ ack7 ++ [0x01, 0x01, 0x00, 0x00, 0xFF, 0x06, 0xFA, 0xD5, 0x03, 0x32, 0x01, 0x06, 0x07, 0xE8, 0x00]

theorem test_begin :
    resOf (exec .beginOp (fed [true, true]
      (versionReply ++ [0x01] ++ ack7 ++ [0x01, 0x01, 0x00, 0x00, 0xFF, 0x02, 0xFE, 0xD5, 0x15, 0x16, 0x00]) [0, 2, 10, 12])) =
      some ⟨0x00, 0x00, .idle, []⟩ := by decide

theorem test_begin_writes_both_frames :
    (match exec .beginOp (fed [true, true]
        (versionReply ++ [0x01] ++ ack7 ++ [0x01, 0x01, 0x00, 0x00, 0xFF, 0x02, 0xFE, 0xD5, 0x15, 0x16, 0x00])
        [0, 2, 10, 12]) with
      | .next t => t.events.filterMap fun e => match e with
        | .call (.write f _) _ => some f
        | _ => none
      | _ => []) =
      [[0x00, 0x00, 0xFF, 0x02, 0xFE, 0xD4, 0x02, 0x2A, 0x00],
        [0x00, 0x00, 0xFF, 0x05, 0xFB, 0xD4, 0x14, 0x01, 0x14, 0x01, 0x02, 0x00]] := by decide

theorem test_getFirmwareVersion : resOf (exec .getFirmwareVersion (fed [true] versionReply [0, 1])) =
    some ⟨0x00, 0x00, .idle, [0x32, 0x01, 0x06, 0x07]⟩ := by decide

theorem test_getFirmwareVersion_timeout :
    resOf (exec .getFirmwareVersion (fed [true] ([0x01] ++ ack7 ++ [0x00, 0x00, 0x00]) [0, 5, 60, 99, 105])) =
      some ⟨0x81, 0x00, .responsePending, [0x00]⟩ := by decide

theorem test_configureSam_ignores_data :
    resOf (exec .configureSam (fed [true]
      ([0x01] ++ ack7 ++ [0x01, 0x01, 0x00, 0x00, 0xFF, 0x03, 0xFD, 0xD5, 0x15, 0x00, 0x16, 0x00]) [0, 1])) =
      some ⟨0x00, 0x00, .idle, []⟩ := by decide

theorem test_configureSam_mismatch : resOf (exec .configureSam (fed [true] versionReply [0, 1])) =
    some ⟨0x83, 0x00, .responsePending, [0x03]⟩ := by decide

/-- Program P2. -/
theorem test_readPassiveTargetA :
    resOf (exec (.readPassiveTargetA 1000) (fed [true]
      ([0x00, 0x01] ++ ack7 ++ [0x00, 0x80, 0x01, 0x01, 0x00, 0x00, 0xFF, 0x0C, 0xF4] ++
        [0xD5, 0x4B, 0x01, 0x01, 0x00, 0x04, 0x08, 0x04, 0x01, 0x02, 0x03, 0x04, 0xC4, 0x00]) [100, 103, 106, 110, 400])) =
      some ⟨0x00, 0x00, .idle, [0x01, 0x02, 0x03, 0x04]⟩ := by decide

theorem test_readPassiveTargetA_none :
    resOf (exec (.readPassiveTargetA 100) (fed [true]
      ([0x01] ++ ack7 ++ [0x01, 0x01, 0x00, 0x00, 0xFF, 0x03, 0xFD, 0xD5, 0x4B, 0x00, 0xE0, 0x00]) [0, 1])) =
      some ⟨0x01, 0x00, .idle, []⟩ := by decide

/-! ### The wire layer: a step on an item placed where it is fetched -/

theorem test_step_wireCmdGetFirmwareVersion : pointOf (step (rested.withFetchWord 16 0xD402)) =
    some (.ackPending, some ⟨.clock, .pollStarted⟩) := by decide

theorem test_step_wireCmdSamConfiguration : pointOf (step (rested.withFetchWord 16 0xD414)) =
    some (.ackPending, some ⟨.clock, .pollStarted⟩) := by decide

theorem test_step_wireCmdInListPassiveTarget : pointOf (step (rested.withFetchWord 16 0xD44A)) =
    some (.ackPending, some ⟨.clock, .pollStarted⟩) := by decide

theorem test_step_wireRspGetFirmwareVersion : resOf (step (rested.withFetchWord 16 0xD503)) =
    some ⟨0x00, 0x00, .idle, [0xD5, 0x03, 0x00, 0x00, 0x00, 0x00]⟩ := by decide

theorem test_step_wireRspSamConfiguration : resOf (step (rested.withFetchWord 16 0xD515)) =
    some ⟨0x00, 0x00, .idle, [0xD5, 0x15]⟩ := by decide

theorem test_step_wireRspInListPassiveTarget : resOf (step (rested.withFetchWord 16 0xD54B)) =
    some ⟨0x00, 0x00, .idle, [0xD5, 0x4B, 0x00]⟩ := by decide

theorem test_step_wireAck : resOf (step (rested.withFetchWord 48 0x0000FF00FF00)) = some ⟨0x00, 0x00, .idle, []⟩ := by decide

theorem test_step_wireStatusReady : resOf (step (rested.place .sample [0x01])) = some ⟨0x00, 0x00, .idle, []⟩ := by decide

theorem test_wireCmd_elsewhere : refusedOf (exec .wireCmdGetFirmwareVersion rested) = some .frameNotSent := by decide

/-! ### Reset (70_reset_and_hazards.md R350) -/

/-- The last five bytes of an abandoned ack read come after the reset: the next READ_ACK takes the seven bytes after them. -/
theorem test_reset_discards_late_bytes :
    resOf (step { rested with
      owed := ⟨0, [5], 0⟩, rx := stream ([0xAA, 0xAA, 0xAA, 0xAA, 0xAA] ++ ack7), offered := [[0x06]] }) =
      some ⟨0x00, 0x00, .idle, []⟩ := by decide

/-- A reset between the acceptance of CHECKSUM and its RES message: there is no RES message. -/
theorem test_reset_on_accept :
    resOf (step { rested with resetOnAccept := true, offered := [[0x01, 0x00, 0x00]] }) = none := by decide

/-! ### Witnesses: states and operands that meet the hypotheses of the obligations, clause by clause -/

/-- The operation `i` in flight in phase `p`, waiting for the answer to `c`. -/
def inFlight (i : Instr) (p : Phase) (c : Call) (k : Resume) : State :=
  { rested with busy := true, curOp := i.opcode, phase := p, operands := some i, outstanding := some ⟨c, k⟩ }

/-- POLL_READY waiting for a sample, with samples to come. -/
def polling (bs : List Byte) (c : List Nat) : State :=
  { inFlight (.pollReady 50) .idle (.read 1 5) .sampled with
    pollTmo := some 50, pollT0 := some 0, rx := stream bs, clock := c }

/-- GET_FIRMWARE_VERSION waiting for its ack. -/
def awaitingAck (bs : List Byte) : State :=
  { inFlight .getFirmwareVersion .ackPending (.read 7 5) .ackArrived with cmd := some 0x02, rx := stream bs }

/-- A wait of one sample that is not ready, at the last time within 50 ms. -/
def nearWait : Wait := ⟨0, [(0x81, 49)]⟩

/-- A reply of code `rsp` and data `d` after waits up to their bounds. -/
def replyOf (rsp : Byte) (d : List Byte) : Reply := ⟨⟨nearWait, 0x01⟩, ⟨60, [(0x00, 159)]⟩, 0x00, rsp, d⟩

/-- A block at rest that is about to get `r` after a write answered `OK`. -/
def replied (r : Reply) : State := fed [true] r.bytes r.times

theorem rested_atRest : rested.AtRest := rfl

theorem fed_atRest (w : List Bool) (bs : List Byte) (c : List Nat) : (fed w bs c).AtRest := rfl

theorem demo_inRange : demo.InRange := by decide

theorem nearWait_within : nearWait.Within 50 := by
  intro x hx; simp [nearWait] at hx; subst hx; decide

theorem wait_none (t : Nat) (m : Millis) : (⟨t, []⟩ : Wait).Within m := by intro x hx; cases hx

theorem replyOf_fits (rsp : Byte) (d : List Byte) (h : d.length ≤ 60) : (replyOf rsp d).Fits demo 100 where
  ack := nearWait_within
  response := by
    intro x hx
    simp [replyOf] at hx
    subst hx
    exact show (0x00 : Byte) ≠ 0x01 ∧ 60 ≤ 159 ∧ 159 < 60 + 100 by decide
  frame := by show d.length ≤ 253; omega
  buffer := by show d.length + 4 ≤ 64; omega

theorem rested_inv : rested.Inv where
  cfg := demo_inRange
  buffers := ⟨.nil, .nil, .nil, .nil, .nil⟩
  idle := fun _ => rfl
  waiting := fun h => by cases h

theorem polling_inv (bs : List Byte) (c : List Nat) : (polling bs c).Inv where
  cfg := demo_inRange
  buffers := ⟨.nil, .nil, .nil, .nil, .nil⟩
  idle := fun h => by cases h
  waiting := fun _ =>
    ⟨⟨.pollReady 50, .read 1 5, .sampled, rfl, rfl, rfl, rfl, ⟨50, rfl, rfl⟩, 0, rfl⟩, rfl, rfl⟩

theorem awaitingAck_inv (bs : List Byte) : (awaitingAck bs).Inv where
  cfg := demo_inRange
  buffers := ⟨.nil, .nil, .nil, .nil, .nil⟩
  idle := fun h => by cases h
  waiting := fun _ =>
    ⟨⟨.getFirmwareVersion, .read 7 5, .ackArrived, rfl, rfl, rfl, rfl, 0x02, rfl, rfl⟩, rfl, rfl⟩

theorem witness_DecodeOfEncode (l : List Byte) (h : l.length = 253) :
    (Instr.wireRspInListPassiveTarget 0xFF l).WellFormed = true ∧ Instr.beginOp.WellFormed = true := by
  simp [Instr.WellFormed, h]

theorem witness_EncodeOfDecode : decode .request [0x06] = .ok .readAck ∧
    decode .ack [0xFF, 0x00, 0x00, 0xFF, 0x00, 0xFF, 0x00] = .ok (.wireAck 0xFF) := by decide

theorem witness_ReservedDescriptorsRefused_opcodes :
    ([0x00, 0x09, 0x0F, 0x14, 0xFF] : List Byte).all
      (fun opc => decide (opc = 0x00 ∨ (0x09 ≤ opc ∧ opc ≤ 0x0F) ∨ 0x14 ≤ opc)) = true ∧
    Instr.readAck.WellFormed = true ∧ Instr.readAck.channel = .request := by decide

theorem witness_ReservedDescriptorsRefused_length (s : State) (h : s = { rested with offered := [[0x06, 0x00]] }) :
    s.resetLine = false ∧ s.busy = false ∧ s.offered = [[0x06, 0x00]] ∧
      ∀ i : Instr, i.WellFormed = true → i.channel = .request → encode i ≠ [0x06, 0x00] := by
  subst h
  refine ⟨rfl, rfl, rfl, fun i _ hc => ?_⟩
  cases i <;> simp_all [encode, Instr.channel, be16, be32]

theorem witness_StepRunsRequest (s : State) (h : s = { rested with offered := [[0x07]] }) :
    Instr.readResponse.WellFormed = true ∧ Instr.readResponse.channel = .request ∧ s.resetLine = false ∧
      s.resetOnAccept = false ∧ s.owed = .nothing ∧
      s.busy = false ∧ s.offered = encode .readResponse :: [] := by subst h; decide

theorem witness_StepRunsWireItem_command (s : State)
    (h : s = { inFlight .getFirmwareVersion .encoded (.write (encode .wireCmdGetFirmwareVersion) 5) .frameWritten with
      writeAnswers := [true] }) :
    Instr.wireCmdGetFirmwareVersion.WellFormed = true ∧ s.resetLine = false ∧ s.busy = true ∧
      Instr.wireCmdGetFirmwareVersion.channel = .command ∧
      s.outstanding = some ⟨.write (encode .wireCmdGetFirmwareVersion) 5, .frameWritten⟩ ∧
      s.dropOwed.writeAnswers = true :: [] := by subst h; decide

/-- With the last byte of an abandoned read still owed. -/
theorem witness_StepRunsWireItem_sample (s : State) (h : s = { polling [0xAA, 0x01] [] with owed := ⟨0, [1], 0⟩ }) :
    Instr.wireStatusReady.WellFormed = true ∧ s.resetLine = false ∧ s.busy = true ∧
      s.dropOwed.rx = stream (encode .wireStatusReady) ++ [] ∧ Instr.wireStatusReady.channel = .sample ∧
      s.outstanding = some ⟨.read 1 5, .sampled⟩ := by subst h; decide

theorem witness_StepRunsWireItem_ack (s : State) (h : s = awaitingAck ack7) :
    (Instr.wireAck 0x01).WellFormed = true ∧ s.resetLine = false ∧ s.busy = true ∧
      s.dropOwed.rx = stream (encode (.wireAck 0x01)) ++ [] ∧ (Instr.wireAck 0x01).channel = .ack ∧
      s.outstanding = some ⟨.read 7 5, .ackArrived⟩ := by subst h; decide

theorem witness_StepRunsWireItem_response (s : State)
    (h : s = { inFlight .readResponse .idle (.read 6 5) .headerArrived with
      rx := stream [0x01, 0x00, 0x00, 0xFF, 0x02, 0xFE, 0xD5, 0x15, 0x16, 0x00] }) :
    (Instr.wireRspSamConfiguration 0x01 []).WellFormed = true ∧ s.resetLine = false ∧ s.busy = true ∧
      s.dropOwed.rx = stream (encode (.wireRspSamConfiguration 0x01 [])) ++ [] ∧
      (Instr.wireRspSamConfiguration 0x01 []).channel = .response ∧
      s.outstanding = some ⟨.read 6 5, .headerArrived⟩ := by subst h; decide

theorem witness_WireItemIsItsBytes : (polling [0x01, 0x02] []).busy = true ∧
    fetch (polling [0x01, 0x02] []) = .item .wireStatusReady (polling [0x02] []) := by decide

theorem witness_BusyKeepsRequestsOffered :
    Instr.beginOp.channel = .request ∧ (polling [0x01] []).busy = true ∧ (polling [0x01] []).resetLine = false ∧
      (polling [0x01] []).Inv ∧ ∃ t, step (polling [0x01] []) = .next t :=
  ⟨rfl, rfl, rfl, polling_inv _ _, _, rfl⟩

theorem witness_SingleBitFlipIsDetected : rested.AtRest ∧ (7 : Nat) < 8 ∧
    (Verdicts.total [0x01] + (0xFF : Byte).toNat) % 256 = 0 ∧ ([0x01] : List Byte)[0]? = some 0x01 :=
  ⟨rfl, by decide, by decide, rfl⟩

theorem witness_ChecksumMissesSwaps : rested.AtRest ∧ ([0x02, 0x01] : List Byte).Perm [0x01, 0x02] ∧ (0 : Nat) ≠ 1 ∧
    ([0x01, 0x02] : List Byte)[0]? = some 0x01 ∧ ([0x01, 0x02] : List Byte)[1]? = some 0x02 :=
  ⟨rfl, by decide, by decide, rfl, rfl⟩

/-- For CHECKSUM, VERIFY_CHECKSUM, ENCODE_FRAME, DECODE_FRAME, PARSE_TARGET and the reset values, whose hypothesis is a
block at rest. -/
theorem witness_at_rest : rested.AtRest ∧ rested.resetLine = false ∧ rested.offered = [] ∧ rested.owed = .nothing :=
  ⟨rfl, rfl, rfl, rfl⟩

theorem witness_EncodedFrameShape : rested.AtRest ∧ rested.cfg.InRange ∧
    (List.replicate 60 (0xAA : Byte)).length ≤ rested.cfg.maxPayload :=
  ⟨rfl, demo_inRange, by decide⟩

theorem witness_DecodeFrameOfEncodeFrame : rested.AtRest ∧ rested.cfg.InRange ∧
    (List.replicate 60 (0xAA : Byte)).length ≤ rested.cfg.maxPayload ∧
    (List.replicate 60 (0xAA : Byte)).length + 4 ≤ rested.cfg.rxBodyCap :=
  ⟨rfl, demo_inRange, by decide, by decide⟩

theorem witness_FlippedChecksumOfFrame : rested.AtRest ∧ (7 : Nat) < 8 ∧
    exec (.decodeFrame 0xD5 [0x00, 0x00, 0xFF, 0x03, 0xFD, 0xD5, 0x4B, 0x00, 0xE0, 0x00]) rested =
      .next { rested with events := rested.events ++ succeeded 0x04 [] 0x00 [0xD5, 0x4B, 0x00] } :=
  ⟨rfl, by decide, rfl⟩

theorem witness_FlippedChecksumOfResponse : rested.AtRest ∧ (7 : Nat) < 8 ∧
    ∃ es, exec .readResponse { rested with
        rx := stream (0x01 :: [0x00, 0x00, 0xFF, 0x03, 0xFD, 0xD5, 0x4B, 0x00, 0xE0, 0x00]) ++ [.byte 0xAA] } =
      .next { rested with
        rx := [.byte 0xAA], events := rested.events ++ succeeded 0x07 es 0x00 [0xD5, 0x4B, 0x00] } :=
  ⟨rfl, by decide,
    [.call (.read 6 5) (.bytes [0x01, 0x00, 0x00, 0xFF, 0x03, 0xFD]),
      .call (.read 5 5) (.bytes [0xD5, 0x4B, 0x00, 0xE0, 0x00])], rfl⟩

theorem witness_ReadAckOutcomes (s t : State) (hs : s = fed [] (ack7 ++ [0x55]) [])
    (ht : t = { rested with rx := stream [0x01, 0x00, 0x00, 0xFF, 0x00, 0xFF] ++ .fail :: [] }) :
    (s.AtRest ∧ (ackSeq).length = 6 ∧ s.rx = stream (0x01 :: ackSeq) ++ stream [0x55]) ∧
    (t.AtRest ∧ ([0x01, 0x00, 0x00, 0xFF, 0x00, 0xFF] : List Byte).length < 7 ∧
      t.rx = stream [0x01, 0x00, 0x00, 0xFF, 0x00, 0xFF] ++ .fail :: []) := by
  subst hs ht; exact ⟨⟨rfl, rfl, rfl⟩, rfl, by decide, rfl⟩

theorem witness_ReadResponseOutcomes_headers (s t : State)
    (hs : s = { rested with rx := stream [0x01, 0x00, 0x00, 0xFF, 0x02] ++ .fail :: [] })
    (ht : t = fed [] (0x01 :: [0x00, 0x00, 0xFF, 0x3F, 0xC1]) []) :
    (s.AtRest ∧ ([0x01, 0x00, 0x00, 0xFF, 0x02] : List Byte).length < 6 ∧
      s.rx = stream [0x01, 0x00, 0x00, 0xFF, 0x02] ++ .fail :: []) ∧
    (t.AtRest ∧ ([0x00, 0x00, 0xFF, 0x3F, 0xC1] : List Byte).length = 5 ∧
      Verdicts.header t.cfg.rxBodyCap [0x00, 0x00, 0xFF, 0x3F, 0xC1] = .error (.rxOverflow 0x3F) ∧
      t.rx = stream (0x01 :: [0x00, 0x00, 0xFF, 0x3F, 0xC1]) ++ []) := by
  subst hs ht; exact ⟨⟨rfl, by decide, rfl⟩, rfl, by decide, by decide, by decide⟩

theorem witness_ReadResponseOutcomes_bodies (s t : State)
    (hs : s = { rested with
      rx := stream (0x01 :: [0x00, 0x00, 0xFF, 0x3E, 0xC2]) ++ (stream (List.replicate 63 0x00) ++ .fail :: []) })
    (ht : t = fed [] ((0x01 :: [0x00, 0x00, 0xFF, 0x3E, 0xC2]) ++ List.replicate 64 0x00) []) :
    ([0x00, 0x00, 0xFF, 0x3E, 0xC2] : List Byte).length = 5 ∧
    Verdicts.header s.cfg.rxBodyCap [0x00, 0x00, 0xFF, 0x3E, 0xC2] = .ok 0x3E ∧
    (s.AtRest ∧ (List.replicate 63 (0x00 : Byte)).length < (0x3E : Byte).toNat + 2 ∧
      s.rx = stream (0x01 :: [0x00, 0x00, 0xFF, 0x3E, 0xC2]) ++ (stream (List.replicate 63 0x00) ++ .fail :: [])) ∧
    (t.AtRest ∧ (List.replicate 64 (0x00 : Byte)).length = (0x3E : Byte).toNat + 2 ∧
      t.rx = stream (0x01 :: [0x00, 0x00, 0xFF, 0x3E, 0xC2]) ++ (stream (List.replicate 64 0x00) ++ [])) := by
  subst hs ht; exact ⟨rfl, by decide, ⟨rfl, by decide, rfl⟩, rfl, by decide, by decide⟩

theorem witness_PollReadyOutcomes (s t u v : State)
    (hs : s = fed [] (nearWait.samples ++ [0x01]) (nearWait.times ++ []))
    (ht : t = fed [] (nearWait.samples ++ [0x02]) (nearWait.times ++ 50 :: []))
    (hu : u = { rested with rx := stream nearWait.samples ++ .fail :: [], clock := nearWait.times ++ [] })
    (hv : v = fed [] [0x00] [7, 7]) :
    nearWait.Within 50 ∧
    (s.AtRest ∧ s.clock = nearWait.times ++ [] ∧ s.rx = stream (nearWait.samples ++ [0x01]) ++ []) ∧
    (t.AtRest ∧ (0x02 : Byte) ≠ 0x01 ∧ nearWait.t0 + (50 : Millis).toNat ≤ 50 ∧ t.clock = nearWait.times ++ 50 :: [] ∧
      t.rx = stream (nearWait.samples ++ [0x02]) ++ []) ∧
    (u.AtRest ∧ u.clock = nearWait.times ++ [] ∧ u.rx = stream nearWait.samples ++ .fail :: []) ∧
    ((⟨7, []⟩ : Wait).Within 0 ∧ v.AtRest ∧ (0x00 : Byte) ≠ 0x01 ∧ 7 + (0 : Millis).toNat ≤ 7 ∧
      v.clock = (⟨7, []⟩ : Wait).times ++ 7 :: [] ∧ v.rx = stream ((⟨7, []⟩ : Wait).samples ++ [0x00]) ++ []) := by
  subst hs ht hu hv
  exact ⟨nearWait_within, ⟨rfl, rfl, rfl⟩, ⟨rfl, by decide, by decide, rfl, rfl⟩, ⟨rfl, rfl, rfl⟩, wait_none _ _, rfl,
    by decide, by decide, rfl, rfl⟩

theorem witness_PollWaitsBelowItsBound (s : State) (hs : s = fed [] nearWait.samples nearWait.times) :
    s.AtRest ∧ nearWait.Within 50 ∧ s.clock = nearWait.times ∧ s.rx = stream nearWait.samples := by
  subst hs; exact ⟨rfl, nearWait_within, rfl, rfl⟩

theorem witness_GetFirmwareVersionReturns (r : Reply) (s : State) (hr : r = replyOf 0x03 [0x32, 0x01, 0x06, 0x07])
    (hs : s = replied r) :
    s.AtRest ∧ s.cfg.InRange ∧ r.Fits s.cfg 100 ∧ r.rsp = 0x03 ∧ r.data = [0x32, 0x01, 0x06, 0x07] ∧
      s.writeAnswers = true :: [] ∧ s.rx = stream r.bytes ++ [] ∧ s.clock = r.times ++ [] := by
  subst hs hr
  exact ⟨rfl, demo_inRange, replyOf_fits _ _ (by decide), rfl, rfl, rfl, by decide, by decide⟩

theorem witness_VersionPayloadShape (r : Reply) (s : State) (hr : r = replyOf 0x03 [0x32, 0x01, 0x06, 0x07, 0x08])
    (hs : s = replied r) :
    s.AtRest ∧ s.cfg.InRange ∧ Instr.beginOp.opcode = some 0x10 ∧ firstCommand .beginOp = some 0x02 ∧
      Instr.getFirmwareVersion.opcode = some 0x11 ∧ firstCommand .getFirmwareVersion = some 0x02 ∧
      r.Fits s.cfg 100 ∧ r.rsp = 0x03 ∧ r.data.length ≠ 4 ∧
      s.writeAnswers = true :: [] ∧ s.rx = stream r.bytes ++ [] ∧ s.clock = r.times ++ [] := by
  subst hs hr
  exact ⟨rfl, demo_inRange, rfl, rfl, rfl, rfl, replyOf_fits _ _ (by decide), rfl, by decide, rfl, by decide, by decide⟩

theorem witness_ConfigureSamSucceeds (r : Reply) (s : State) (hr : r = replyOf 0x15 []) (hs : s = replied r) :
    s.AtRest ∧ s.cfg.InRange ∧ r.Fits s.cfg 100 ∧ r.rsp = 0x15 ∧
      s.writeAnswers = true :: [] ∧ s.rx = stream r.bytes ++ [] ∧ s.clock = r.times ++ [] := by
  subst hs hr
  exact ⟨rfl, demo_inRange, replyOf_fits _ _ (by decide), rfl, rfl, by decide, by decide⟩

theorem witness_ReadPassiveTargetReturns (r : Reply) (s : State)
    (hr : r = replyOf 0x4B [0x01, 0x01, 0x00, 0x04, 0x08, 0x04, 0x01, 0x02, 0x03, 0x04]) (hs : s = replied r) :
    s.AtRest ∧ s.cfg.InRange ∧ r.Fits s.cfg 100 ∧ r.rsp = 0x4B ∧
      s.writeAnswers = true :: [] ∧ s.rx = stream r.bytes ++ [] ∧ s.clock = r.times ++ [] := by
  subst hs hr
  exact ⟨rfl, demo_inRange, replyOf_fits _ _ (by decide), rfl, rfl, by decide, by decide⟩

theorem witness_BeginOutcomes (r r' : Reply) (s t u : State) (hr : r = replyOf 0x03 [0x32, 0x01, 0x06, 0x07])
    (hr' : r' = replyOf 0x15 []) (hs : s = fed [true, true] (r.bytes ++ r'.bytes) (r.times ++ r'.times))
    (ht : t = fed [true, false] r.bytes r.times) (hu : u = fed [true] r.bytes r.times) :
    r.rsp = 0x03 ∧ r.data = [0x32, 0x01, 0x06, 0x07] ∧
    (s.AtRest ∧ s.cfg.InRange ∧ r.Fits s.cfg 100 ∧ r'.Fits s.cfg 100 ∧ s.writeAnswers = true :: true :: [] ∧
      s.rx = stream r.bytes ++ (stream r'.bytes ++ []) ∧ s.clock = r.times ++ (r'.times ++ [])) ∧
    (t.AtRest ∧ t.cfg.InRange ∧ r.Fits t.cfg 100 ∧ t.writeAnswers = true :: false :: [] ∧
      t.rx = stream r.bytes ++ [] ∧ t.clock = r.times ++ []) ∧
    (u.AtRest ∧ u.cfg.InRange ∧ r.Fits u.cfg 100 ∧ u.writeAnswers = [true] ∧ u.rx = stream r.bytes ++ [] ∧
      u.clock = r.times ++ []) := by
  subst hs ht hu hr hr'
  exact ⟨rfl, rfl,
    ⟨rfl, demo_inRange, replyOf_fits _ _ (by decide), replyOf_fits _ _ (by decide), rfl, by decide, by decide⟩,
    ⟨rfl, demo_inRange, replyOf_fits _ _ (by decide), rfl, by decide, by decide⟩,
    rfl, demo_inRange, replyOf_fits _ _ (by decide), rfl, by decide, by decide⟩

/-- The four dispatcher operations, as the statements about all of them name them. -/
theorem witness_dispatcher_operations :
    (Instr.beginOp.opcode = some 0x10 ∧ firstCommand .beginOp = some 0x02 ∧ responseBound (some .beginOp) = some 100) ∧
    (Instr.getFirmwareVersion.opcode = some 0x11 ∧ firstCommand .getFirmwareVersion = some 0x02 ∧
      responseBound (some .getFirmwareVersion) = some 100) ∧
    (Instr.configureSam.opcode = some 0x12 ∧ firstCommand .configureSam = some 0x14 ∧
      responseBound (some .configureSam) = some 100) ∧
    ((Instr.readPassiveTargetA 0).opcode = some 0x13 ∧ firstCommand (.readPassiveTargetA 0) = some 0x4A ∧
      responseBound (some (.readPassiveTargetA 0)) = some 0) := by decide

/-- Nothing has come before the first command of an operation. -/
def noLead : Lead := ⟨[], [], [], []⟩

/-- The commands of the four dispatcher operations, as the statements about their failures name them; the second of BEGIN
after a good reply to the wake command. -/
theorem witness_commands (r : Reply) (hr : r = replyOf 0x03 [0x32, 0x01, 0x06, 0x07]) :
    Leads demo .beginOp 0x02 noLead ∧ Leads demo .getFirmwareVersion 0x02 noLead ∧
    Leads demo .configureSam 0x14 noLead ∧ Leads demo (.readPassiveTargetA 0) 0x4A noLead ∧
    Leads demo .beginOp 0x14 ⟨[true], r.bytes, r.times, r.events demo 0x02 ++ [.phase .done, .phase .idle]⟩ := by
  subst hr
  exact ⟨.first rfl, .first rfl, .first rfl, .first rfl, .afterWake (replyOf_fits _ _ (by decide)) rfl rfl⟩

/-- BEGIN whose second command's write fails, and whose second ack poll is late. -/
theorem witness_second_command (r : Reply) (l : Lead) (s t : State) (hr : r = replyOf 0x03 [0x32, 0x01, 0x06, 0x07])
    (hl : l = ⟨[true], r.bytes, r.times, r.events demo 0x02 ++ [.phase .done, .phase .idle]⟩)
    (hs : s = fed [true, false] r.bytes r.times)
    (ht : t = fed [true, true] (r.bytes ++ nearWait.samples ++ [0x00]) (r.times ++ (nearWait.times ++ [50]))) :
    Leads s.cfg .beginOp 0x14 l ∧ Leads t.cfg .beginOp 0x14 l ∧
    (s.AtRest ∧ s.writeAnswers = l.writes ++ false :: [] ∧ s.rx = stream l.bytes ++ [] ∧ s.clock = l.times ++ []) ∧
    (t.AtRest ∧ t.writeAnswers = l.writes ++ true :: [] ∧ nearWait.Within 50 ∧
      t.rx = stream (l.bytes ++ nearWait.samples ++ [0x00]) ++ [] ∧
      t.clock = l.times ++ (nearWait.times ++ 50 :: [])) := by
  subst hl hs ht
  have h := (witness_commands r hr).2.2.2.2
  subst hr
  exact ⟨h, h, ⟨rfl, rfl, by decide, by decide⟩, rfl, rfl, nearWait_within, by decide, by decide⟩

theorem witness_OtherCodeIsMismatch (r : Reply) (s : State) (hr : r = replyOf 0x02 []) (hs : s = replied r) :
    s.AtRest ∧ s.cfg.InRange ∧ Instr.getFirmwareVersion.opcode = some 0x11 ∧
      Leads s.cfg .getFirmwareVersion 0x02 noLead ∧ responseBound (some .getFirmwareVersion) = some 100 ∧
      r.Fits s.cfg 100 ∧ r.rsp ≠ 0x02 + 1 ∧
      s.writeAnswers = noLead.writes ++ true :: [] ∧ s.rx = stream (noLead.bytes ++ r.bytes) ++ [] ∧ s.clock = noLead.times ++ (r.times ++ []) := by
  subst hs hr
  exact ⟨rfl, demo_inRange, rfl, .first rfl, rfl, replyOf_fits _ _ (by decide), by decide, rfl, by decide, by decide⟩

theorem witness_FailedWriteEndsCommand (s : State) (hs : s = fed [false] [] []) :
    s.AtRest ∧ s.cfg.InRange ∧ Instr.configureSam.opcode = some 0x12 ∧ Leads s.cfg .configureSam 0x14 noLead ∧
      s.writeAnswers = noLead.writes ++ false :: [] ∧ s.rx = stream noLead.bytes ++ [] ∧
      s.clock = noLead.times ++ [] := by subst hs; exact ⟨rfl, demo_inRange, rfl, .first rfl, rfl, rfl, rfl⟩

theorem witness_AckPollFailures (s t : State) (hs : s = fed [true] (nearWait.samples ++ [0x00]) (nearWait.times ++ [50]))
    (ht : t = { rested with
      writeAnswers := [true], rx := stream nearWait.samples ++ .fail :: [], clock := nearWait.times }) :
    nearWait.Within 50 ∧
    (s.AtRest ∧ s.cfg.InRange ∧ s.writeAnswers = noLead.writes ++ true :: [] ∧ (0x00 : Byte) ≠ 0x01 ∧ nearWait.t0 + 50 ≤ 50 ∧
      s.rx = stream (noLead.bytes ++ nearWait.samples ++ [0x00]) ++ [] ∧ s.clock = noLead.times ++ (nearWait.times ++ 50 :: [])) ∧
    (t.AtRest ∧ t.cfg.InRange ∧ t.writeAnswers = noLead.writes ++ true :: [] ∧
      t.rx = stream (noLead.bytes ++ nearWait.samples) ++ .fail :: [] ∧ t.clock = noLead.times ++ (nearWait.times ++ [])) := by
  subst hs ht
  exact ⟨nearWait_within, ⟨rfl, demo_inRange, rfl, by decide, by decide, rfl, rfl⟩, rfl, demo_inRange, rfl, rfl, rfl⟩

theorem witness_AckReadFailures (s t : State)
    (hs : s = fed [true] (nearWait.samples ++ [0x01] ++ 0x01 :: [0x00, 0x00, 0xFF, 0x00, 0xFF, 0x01]) nearWait.times)
    (ht : t = { rested with
      writeAnswers := [true], rx := stream (nearWait.samples ++ [0x01] ++ [0x01]) ++ .fail :: [],
      clock := nearWait.times }) :
    nearWait.Within 50 ∧
    (s.AtRest ∧ s.cfg.InRange ∧ s.writeAnswers = noLead.writes ++ true :: [] ∧ s.clock = noLead.times ++ (nearWait.times ++ []) ∧
      ([0x00, 0x00, 0xFF, 0x00, 0xFF, 0x01] : List Byte).length = 6 ∧
      ([0x00, 0x00, 0xFF, 0x00, 0xFF, 0x01] : List Byte) ≠ [0x00, 0x00, 0xFF, 0x00, 0xFF, 0x00] ∧
      s.rx = stream (noLead.bytes ++ nearWait.samples ++ [0x01] ++ 0x01 :: [0x00, 0x00, 0xFF, 0x00, 0xFF, 0x01]) ++ []) ∧
    (t.AtRest ∧ t.cfg.InRange ∧ t.writeAnswers = noLead.writes ++ true :: [] ∧ t.clock = noLead.times ++ (nearWait.times ++ []) ∧
      ([0x01] : List Byte).length < 7 ∧ t.rx = stream (noLead.bytes ++ nearWait.samples ++ [0x01] ++ [0x01]) ++ .fail :: []) := by
  subst hs ht
  exact ⟨nearWait_within, ⟨rfl, demo_inRange, rfl, rfl, rfl, by decide, rfl⟩, rfl, demo_inRange, rfl, rfl, by decide, rfl⟩

/-- The acknowledgement of the witnesses below. -/
def quickAck : Acked := ⟨⟨0, []⟩, 0x01⟩

theorem witness_ResponsePollFailures (s t : State)
    (hs : s = fed [true] (quickAck.bytes ++ (([] : List Byte) ++ [0x00])) (quickAck.wait.times ++ ([3] ++ 3 :: [])))
    (ht : t = { rested with
      writeAnswers := [true], rx := stream (quickAck.bytes ++ []) ++ .fail :: [],
      clock := quickAck.wait.times ++ [3] }) :
    quickAck.wait.Within 50 ∧ (⟨3, []⟩ : Wait).Within 0 ∧ responseBound (some (.readPassiveTargetA 0)) = some 0 ∧
    (s.AtRest ∧ s.cfg.InRange ∧ s.writeAnswers = noLead.writes ++ true :: [] ∧ (0x00 : Byte) ≠ 0x01 ∧ 3 + (0 : Millis).toNat ≤ 3 ∧
      s.rx = stream (noLead.bytes ++ quickAck.bytes ++ ((⟨3, []⟩ : Wait).samples ++ [0x00])) ++ [] ∧
      s.clock = noLead.times ++ (quickAck.wait.times ++ ((⟨3, []⟩ : Wait).times ++ 3 :: []))) ∧
    (t.AtRest ∧ t.cfg.InRange ∧ t.writeAnswers = noLead.writes ++ true :: [] ∧
      t.rx = stream (noLead.bytes ++ quickAck.bytes ++ (⟨3, []⟩ : Wait).samples) ++ .fail :: [] ∧
      t.clock = noLead.times ++ (quickAck.wait.times ++ ((⟨3, []⟩ : Wait).times ++ []))) := by
  subst hs ht
  exact ⟨wait_none _ _, wait_none _ _, rfl, ⟨rfl, demo_inRange, rfl, by decide, by decide, rfl, rfl⟩, rfl, demo_inRange,
    rfl, rfl, rfl⟩

/-- A block that has been acknowledged, with the bytes after its ready sample still to come. -/
def answeredBy (ts : List RxToken) : State :=
  { rested with writeAnswers := [true], rx := stream (quickAck.bytes ++ [0x01]) ++ ts, clock := [0, 1] }

theorem answeredBy_start (ts : List RxToken) : (answeredBy ts).AtRest ∧ (answeredBy ts).cfg.InRange ∧
    (answeredBy ts).writeAnswers = noLead.writes ++ true :: [] ∧ quickAck.wait.Within 50 ∧ (⟨1, []⟩ : Wait).Within 100 ∧
    (answeredBy ts).clock = noLead.times ++ (quickAck.wait.times ++ ((⟨1, []⟩ : Wait).times ++ [])) :=
  ⟨rfl, demo_inRange, rfl, wait_none _ _, wait_none _ _, rfl⟩

theorem witness_ResponseReadFailures_headers (s t : State) (hs : s = answeredBy (stream [0x01] ++ .fail :: []))
    (ht : t = answeredBy (stream (0x01 :: [0x00, 0x00, 0xFF, 0x00, 0xFF]))) :
    (([0x01] : List Byte).length < 6 ∧
      s.rx = stream (noLead.bytes ++ quickAck.bytes ++ ((⟨1, []⟩ : Wait).samples ++ [0x01] ++ [0x01])) ++ .fail :: []) ∧
    (([0x00, 0x00, 0xFF, 0x00, 0xFF] : List Byte).length = 5 ∧
      Verdicts.header t.cfg.rxBodyCap [0x00, 0x00, 0xFF, 0x00, 0xFF] = .error (.badLcs 0x00 0xFF) ∧
      t.rx = stream (noLead.bytes ++ quickAck.bytes ++ ((⟨1, []⟩ : Wait).samples ++ [0x01] ++ 0x01 :: [0x00, 0x00, 0xFF, 0x00, 0xFF]))
        ++ []) := by
  subst hs ht; exact ⟨⟨by decide, rfl⟩, rfl, by decide, by decide⟩

theorem witness_ResponseReadFailures_bodies (s t : State)
    (hs : s = answeredBy (stream (0x01 :: [0x00, 0x00, 0xFF, 0x02, 0xFE] ++ [0xD5, 0x15, 0x16]) ++ .fail :: []))
    (ht : t = answeredBy (stream (0x01 :: [0x00, 0x00, 0xFF, 0x02, 0xFE] ++ [0xD5, 0x15, 0x16, 0x01]))) :
    Verdicts.header s.cfg.rxBodyCap [0x00, 0x00, 0xFF, 0x02, 0xFE] = .ok 0x02 ∧
    (([0xD5, 0x15, 0x16] : List Byte).length < (0x02 : Byte).toNat + 2 ∧
      s.rx = stream (noLead.bytes ++ quickAck.bytes ++ ((⟨1, []⟩ : Wait).samples ++ [0x01] ++ 0x01 :: [0x00, 0x00, 0xFF, 0x02, 0xFE])
        ++ [0xD5, 0x15, 0x16]) ++ .fail :: []) ∧
    (([0xD5, 0x15, 0x16, 0x01] : List Byte).length = (0x02 : Byte).toNat + 2 ∧
      Verdicts.body 0xD5 0x02 [0xD5, 0x15, 0x16, 0x01] = .error (.badPostamble 0x01) ∧
      t.rx = stream (noLead.bytes ++ quickAck.bytes ++ ((⟨1, []⟩ : Wait).samples ++ [0x01] ++ 0x01 :: [0x00, 0x00, 0xFF, 0x02, 0xFE])
        ++ [0xD5, 0x15, 0x16, 0x01]) ++ []) := by
  subst hs ht; exact ⟨by decide, ⟨by decide, rfl⟩, by decide, by decide, by decide⟩

theorem witness_WireCommandStartsAckPoll (s : State)
    (hs : s = inFlight .configureSam .encoded (.write (encode (.wireCmdSamConfiguration 1 20 1)) 5) .frameWritten) :
    (Instr.wireCmdSamConfiguration 1 20 1).channel = .command ∧
      s.outstanding = some ⟨.write (encode (.wireCmdSamConfiguration 1 20 1)) 5, .frameWritten⟩ ∧ s.clock = [] := by
  subst hs; exact ⟨rfl, rfl, rfl⟩

theorem witness_WireCommandElsewhereRefused : Instr.wireCmdInListPassiveTarget.channel = .command ∧
    ∀ (tc : Nat) (k : Resume),
      rested.outstanding ≠ some ⟨.write (encode .wireCmdInListPassiveTarget) tc, k⟩ :=
  ⟨rfl, fun _ _ h => by cases h⟩

theorem witness_WireAckAccepted (s t : State) (hs : s = inFlight .readAck .idle (.read 7 5) .ackArrived)
    (ht : t = awaitingAck []) :
    (s.outstanding = some ⟨.read 7 5, .ackArrived⟩ ∧ s.phase = .idle) ∧
    (t.outstanding = some ⟨.read 7 5, .ackArrived⟩ ∧ t.phase = .ackPending ∧ responseBound t.operands = some 100 ∧
      t.clock = []) := by subst hs ht; exact ⟨⟨rfl, rfl⟩, rfl, rfl, rfl, rfl⟩

theorem witness_WireReadyEndsPoll (s t u : State) (hs : s = polling [] [])
    (ht : t = inFlight .beginOp .ackPending (.read 1 5) .sampled)
    (hu : u = inFlight .beginOp .responsePending (.read 1 5) .sampled) :
    (s.outstanding = some ⟨.read 1 5, .sampled⟩ ∧ s.phase = .idle) ∧
    (t.outstanding = some ⟨.read 1 5, .sampled⟩ ∧ t.phase = .ackPending ∧ t.rx = []) ∧
    (u.outstanding = some ⟨.read 1 5, .sampled⟩ ∧ u.phase = .responsePending ∧ u.rx = []) := by
  subst hs ht hu; exact ⟨⟨rfl, rfl⟩, ⟨rfl, rfl, rfl⟩, rfl, rfl, rfl⟩

theorem witness_WireResponseEndsReadResponse (s : State) (d : List Byte)
    (hs : s = inFlight .readResponse .idle (.read 6 5) .headerArrived) (hd : d = List.replicate 60 0x00) :
    (Instr.wireRspSamConfiguration 0x01 d).WellFormed = true ∧
      (Instr.wireRspInListPassiveTarget 0x01 d).WellFormed = true ∧
      (Instr.wireRspGetFirmwareVersion 0x01 0x32 0x01 0x06 0x07).WellFormed = true ∧
      ([0x32, 0x01, 0x06, 0x07] : List Byte).length = 4 ∧ d.length + 4 ≤ s.cfg.rxBodyCap ∧
      s.outstanding = some ⟨.read 6 5, .headerArrived⟩ ∧ s.phase = .idle := by subst hs hd; decide

theorem witness_WireResponseEndsCommand (s t u v x : State) (d : List Byte)
    (hs : s = { inFlight .getFirmwareVersion .responsePending (.read 6 5) .headerArrived with cmd := some 0x02 })
    (ht : t = { inFlight .configureSam .responsePending (.read 6 5) .headerArrived with cmd := some 0x14 })
    (hu : u = { inFlight (.readPassiveTargetA 7) .responsePending (.read 6 5) .headerArrived with cmd := some 0x4A })
    (hv : v = { inFlight .beginOp .responsePending (.read 6 5) .headerArrived with cmd := some 0x02, pollLast := some 0x01 })
    (hx : x = { inFlight .beginOp .responsePending (.read 6 5) .headerArrived with cmd := some 0x14 })
    (hd : d = List.replicate 60 0x00) :
    (v.cfg.InRange ∧ v.outstanding = some ⟨.read 6 5, .headerArrived⟩ ∧ v.phase = .responsePending ∧
      v.operands = some .beginOp ∧ v.cmd = some 0x02 ∧ v.writeAnswers = []) ∧
    (x.cfg.InRange ∧ x.outstanding = some ⟨.read 6 5, .headerArrived⟩ ∧ x.phase = .responsePending ∧
      x.operands = some .beginOp ∧ x.cmd = some 0x14 ∧ d.length + 4 ≤ x.cfg.rxBodyCap) ∧
    (s.cfg.InRange ∧ s.outstanding = some ⟨.read 6 5, .headerArrived⟩ ∧ s.phase = .responsePending ∧
      s.operands = some .getFirmwareVersion ∧ s.cmd = some 0x02) ∧
    (t.cfg.InRange ∧ t.outstanding = some ⟨.read 6 5, .headerArrived⟩ ∧ t.phase = .responsePending ∧
      t.operands = some .configureSam ∧ t.cmd = some 0x14 ∧ d.length ≤ 253 ∧ d.length + 4 ≤ t.cfg.rxBodyCap) ∧
    (u.cfg.InRange ∧ u.outstanding = some ⟨.read 6 5, .headerArrived⟩ ∧ u.phase = .responsePending ∧
      u.operands = some (.readPassiveTargetA 7) ∧ u.cmd = some 0x4A ∧ d.length ≤ 253 ∧
      d.length + 4 ≤ u.cfg.rxBodyCap) := by subst hs ht hu hv hx hd; decide

/-- For StepKeepsInvariant, StepNeverFaults, PhaseFollowsTransitions, OneResultPerRequest, StepEndsAtRestOrWaiting and
ChannelsOnlyShrink: an operation in flight, and a step that ends it. -/
theorem witness_step_in_flight : (polling [0x00, 0x01] [49]).Inv ∧ (polling [0x00, 0x01] [49]).resetLine = false ∧
    (polling [0x00, 0x01] [49]).resetOnAccept = false ∧
    ∃ t, step (polling [0x00, 0x01] [49]) = .next t ∧ t.busy = false :=
  ⟨polling_inv _ _, rfl, rfl, _, rfl, rfl⟩

/-- For the same: an ack that takes a dispatcher operation on to the next call. -/
theorem witness_step_onward : (awaitingAck ack7).Inv ∧ (awaitingAck ack7).resetLine = false ∧
    ∃ t, step (awaitingAck ack7) = .next t ∧ t.phase = .responsePending :=
  ⟨awaitingAck_inv _, rfl, _, rfl, rfl⟩

theorem witness_StepRefusesOnlyDescriptors (s : State) (h : s = { rested with offered := [[0x09]] }) :
    s.Inv ∧ step s = .refused (.badDescriptor (.unassignedOpcode 0x09)) := by
  subst h; exact ⟨⟨demo_inRange, ⟨.nil, .nil, .nil, .nil, .nil⟩, fun _ => rfl, fun h => by cases h⟩, rfl⟩

theorem witness_OnlyListedResults :
    ((polling [0x01] []).Inv ∧ (polling [0x01] []).busy = true ∧ (polling [0x01] []).operands = some (.pollReady 50) ∧
      ∃ t, step (polling [0x01] []) = .next t) ∧
    (rested.Inv ∧ rested.busy = false ∧ (Instr.checksum []).channel = .request ∧
      ∃ t, exec (.checksum []) rested = .next t) :=
  ⟨⟨polling_inv _ _, rfl, rfl, _, rfl⟩, rested_inv, rfl, rfl, _, rfl⟩

theorem witness_AckOkOnlyAfterSentinel :
    (awaitingAck ack7).Inv ∧ ∃ t, turn (awaitingAck ack7) = some (.next t) ∧
      t.events = (awaitingAck ack7).events ++ [.call (.read 7 5) (.bytes ack7), .phase .ackOk, .phase .responsePending] ∧
      Event.phase .ackOk ∈
        [Event.call (.read 7 5) (.bytes ack7), Event.phase .ackOk, Event.phase .responsePending] :=
  ⟨awaitingAck_inv _, _, rfl, rfl, by decide⟩

theorem witness_ResetAbandonsOperation (s t : State) (hs : s = { polling [0x01, 0x02] [] with resetLine := true })
    (ht : t = { rested with resetLine := true }) :
    (s.resetLine = true ∧ s.outstanding = some ⟨.read 1 5, .sampled⟩ ∧ s.owed = .nothing ∧
      ∃ u, answerOf (.read 1 5) s = some (.bytes [0x01], u)) ∧
    (t.resetLine = true ∧ t.outstanding = none) := by
  subst hs ht; exact ⟨⟨rfl, rfl, rfl, _, rfl⟩, rfl, rfl⟩

theorem witness_ResetOnAcceptAbandonsRequest (s : State)
    (hs : s = { rested with offered := [encode (.checksum [0x01])], resetOnAccept := true }) :
    (Instr.checksum [0x01]).WellFormed = true ∧ (Instr.checksum [0x01]).opcode = some 0x01 ∧ s.AtRest ∧
      s.resetLine = false ∧ s.resetOnAccept = true ∧ s.offered = encode (.checksum [0x01]) :: [] := by
  subst hs; exact ⟨rfl, rfl, rfl, rfl, rfl, rfl⟩

theorem witness_LateAnswersAreDiscarded :
    ((awaitingAck [0x01, 0x00]).lateAnswer = true ∧ (awaitingAck [0x01, 0x00]).owed = .nothing ∧
      (awaitingAck [0x01, 0x00]).outstanding = some ⟨.read 7 5, .ackArrived⟩ ∧
      ∃ u, answerOf (.read 7 5)
          { awaitingAck [0x01, 0x00] with
            writeAnswers := [] ++ [], rx := stream [0x01, 0x00] ++ stream [0x00, 0xFF, 0x00, 0xFF, 0x00], clock := [] ++ [] } =
        some (.bytes ack7, u)) ∧
    (awaitingAck [0x01, 0x00]).applyReset.owed = ⟨0, [5], 0⟩ ∧
    ({ awaitingAck [0x01, 0x00] with lateAnswer := false } : State).applyReset.owed = .nothing :=
  ⟨⟨rfl, rfl, rfl, _, rfl⟩, by decide, by decide⟩

theorem witness_EndLeavesNoValue (s t : State) (hs : s = awaitingAck ack7) (ht : t = s.fail .readFailed) :
    (∃ (st : Byte) (d : List Byte), t = s.succeed st d) ∨ (∃ e : Failure, t = s.fail e) := by
  subst hs ht; exact .inr ⟨_, rfl⟩

/-- The last byte of ACKBUF, the first past it, and one that holds no value. -/
theorem witness_BufferAccesses : 6 + ([0xAA] : List Byte).length ≤ rested.capacity .ack ∧
    rested.capacity .ack < 7 + ([0xAA] : List Byte).length ∧ rested.capacity .ack < 7 + 1 ∧
    (6 + 1 ≤ rested.capacity .ack ∧ 6 ≤ 6 ∧ 6 < 6 + 1 ∧ readByte (rested.buffer .ack) 6 = none) ∧
    (rested.buffer .ack).wf := by decide

end Sys2Proof.Tests
end

/-! # No step faults

Everything a step is made of keeps the invariant and meets no bug of the model: one event, a run of events, the acceptance of
a request, an item of the wire, a reset. -/

namespace Sys2Proof.Machine

open Host (Outcome)

/-- What the block may answer where its configuration is `c`: a state with the invariant and that configuration, or a
refusal, but no fault. -/
def Sound (c : Config) : Outcome State Fault Refusal → Prop
  | .next t => t.Inv ∧ t.cfg = c
  | .fault _ => False
  | .refused _ => True

theorem Sound.not_fault {c : Config} {o : Outcome State Fault Refusal} (h : Sound c o) (f : Fault) : o ≠ .fault f := by
  rintro rfl
  exact h

variable {s t s₀ : State} {i : Instr}

/-! ### The invariant -/

theorem inv_of_rest (hcfg : s.cfg.InRange) (hs : s.AtRest) : s.Inv where
  cfg := hcfg
  buffers := by
    rw [← show s.cleared = s from hs]
    exact ⟨.nil, .nil, .nil, .nil, .nil⟩
  idle _ := hs
  waiting hb := by
    rw [← show s.cleared = s from hs] at hb
    cases hb

/-- A block at rest stays at rest whatever its channels hold. -/
theorem State.AtRest.with_channels (hs : s.AtRest) (q : List (List Byte)) (w : List Bool) (r : List RxToken)
    (c : List Nat) (o : Owed) :
    ({ s with offered := q, writeAnswers := w, rx := r, clock := c, owed := o } : State).AtRest := by
  rw [← show s.cleared = s from hs]
  rfl

/-- The invariant does not look at the channels, nor at what is owed on them. -/
theorem State.Inv.with_channels (h : s.Inv) (q : List (List Byte)) (w : List Bool) (r : List RxToken) (c : List Nat)
    (o : Owed) : ({ s with offered := q, writeAnswers := w, rx := r, clock := c, owed := o } : State).Inv where
  cfg := h.cfg
  buffers := h.buffers
  idle hb := (h.idle hb).with_channels q w r c o
  waiting hb := by
    obtain ⟨⟨i, c, k, hop, hout, hcur, hat⟩, huid⟩ := h.waiting hb
    exact ⟨⟨i, c, k, hop, hout, hcur, by cases k <;> exact hat⟩, huid⟩

theorem State.Inv.outstanding_of_not_busy (h : s.Inv) (hb : s.busy = false) : s.outstanding = none :=
  outstanding_of_rest (h.idle hb)

theorem State.Inv.dropOwed (h : s.Inv) : s.dropOwed.Inv := h.with_channels _ _ _ _ _

theorem State.Inv.deliver (h : s.Inv) (bs : List Byte) : (s.deliver bs).Inv := h.with_channels _ _ _ _ _

theorem State.Inv.applyReset (h : s.Inv) : s.applyReset.Inv :=
  inv_of_rest (by rw [State.applyReset_cfg]; exact h.cfg) rfl

theorem State.abandonRequest_cfg (s : State) (i : Instr) (opc : Byte) : (s.abandonRequest i opc).cfg = s.cfg :=
  State.applyReset_cfg (s.accept i opc)

theorem State.Inv.abandonRequest (h : s.Inv) (i : Instr) (opc : Byte) : (s.abandonRequest i opc).Inv :=
  inv_of_rest (by rw [State.abandonRequest_cfg]; exact h.cfg) rfl

/-! ### One event -/

/-- An operation in flight is midway from where it stands. -/
theorem Midway.refl (hb : s.busy = true) (ho : s.operands = some i) (hbuf : s.BuffersWf)
    (hu : s.uidbuf = [] ∧ s.uidlen = none) : Midway i s s where
  outside := ⟨rfl, rfl, rfl, rfl, rfl, rfl, rfl, rfl, rfl⟩
  busy := hb
  operands := ho
  curOp := rfl
  buffers := hbuf
  uid := hu
  events := ⟨[], by simp, rfl, rfl, rfl, by simp⟩

/-- Where an operation's rule stops, at a call or at its end, the block has the invariant. -/
theorem Turned.inv (h : Turned i s t) (hcfg : s.cfg.InRange) (hcur : s.curOp = i.opcode) : t.Inv := by
  have hcfg' : t.cfg.InRange := by rw [h.outside.cfg]; exact hcfg
  cases hb : t.busy with
  | false => exact inv_of_rest hcfg' (h.ended hb)
  | true =>
    obtain ⟨hop, hcur', hbuf, huid, c, k, hout, hat⟩ := h.waits hb
    exact ⟨hcfg', hbuf, fun hf => absurd (hb.symm.trans hf) (by decide),
      fun _ => ⟨⟨i, c, k, hop, hout, hcur'.trans hcur, hat⟩, huid⟩⟩

/-- The outstanding call `c` is answered `a`; `u` is the state with the answer taken from its channel. -/
def State.answered (u : State) (c : Call) (a : Answer) : State := { u with outstanding := none }.log (.call c a)

/-- An event is the answer to the outstanding call, from which the rule of the operation in flight goes on to its next call
or its end. -/
theorem turn_turned (h : s.Inv) {o : Outcome State Fault Refusal} (ht : turn s = some o) :
    ∃ i c k a u t, s.operands = some i ∧ s.curOp = i.opcode ∧ s.outstanding = some ⟨c, k⟩ ∧
      answerOf c s = some (a, u) ∧ o = .next t ∧ Turned i (u.answered c a) t := by
  cases hb : s.busy with
  | false => simp [turn_of_not_outstanding (h.outstanding_of_not_busy hb)] at ht
  | true =>
    obtain ⟨⟨i, c, k, hop, hout, hcur, hat⟩, huid⟩ := h.waiting hb
    simp only [turn, hout] at ht
    split at ht
    · cases ht
    · rename_i a u ha
      obtain ⟨hfits, ⟨w, r, cl, rfl⟩, -⟩ := answerOf_some ha
      have hm : Midway i (State.answered { s with writeAnswers := w, rx := r, clock := cl } c a) _ :=
        Midway.refl hb hop h.buffers huid
      have hat' : (State.answered { s with writeAnswers := w, rx := r, clock := cl } c a).AtPoint i c k := by
        cases k <;> exact hat
      obtain ⟨t, hrun, hturned⟩ := runRule_of_wp (turns_resume hm h.cfg hat' hfits)
      cases ht
      exact ⟨i, c, k, a, _, t, hop, hcur, hout, ha, hrun, hturned⟩

/-- An event never faults, and keeps the invariant. -/
theorem turn_inv (h : s.Inv) {o : Outcome State Fault Refusal} (ht : turn s = some o) :
    ∃ t, o = .next t ∧ t.Inv ∧ t.cfg = s.cfg := by
  obtain ⟨i, c, k, a, u, t, -, hcur, -, ha, rfl, hturned⟩ := turn_turned h ht
  obtain ⟨-, ⟨w, r, cl, rfl⟩, -⟩ := answerOf_some ha
  exact ⟨t, rfl, hturned.inv h.cfg hcur, hturned.outside.cfg⟩

/-- A run of events never faults, and keeps the invariant. -/
theorem settle_inv (n : Nat) (h : s.Inv) : ∃ t, settle n s = .next t ∧ t.Inv ∧ t.cfg = s.cfg := by
  induction n generalizing s with
  | zero => exact ⟨s, rfl, h, rfl⟩
  | succ n ih =>
    rw [settle]
    split
    · exact ⟨s, rfl, h, rfl⟩
    · rename_i t ht
      obtain ⟨_, heq, hinv, hcfg⟩ := turn_inv h ht
      cases heq
      obtain ⟨v, hv, hvinv, hvcfg⟩ := ih hinv
      exact ⟨v, hv, hvinv, hvcfg.trans hcfg⟩
    · rename_i o hne ho
      obtain ⟨t, rfl, -⟩ := turn_inv h ho
      exact absurd rfl (hne t)

theorem advance_sound (h : s.Inv) : Sound s.cfg (advance s) := by
  obtain ⟨t, ht, hinv, hcfg⟩ := settle_inv s.budget h
  rw [advance, ht]
  exact ⟨hinv, hcfg⟩

/-! ### The rules of the requests

Each rule, from a block that has just accepted its request (PHASE is `Idle`), stops at its first call or at the end of its
operation. -/

/-- The end of a component operation. -/
theorem turns_reply {d : List Byte} (h : Midway i s₀ s) (hp : Track.mayMove ⟨i.opcode, s.phase, true⟩ .idle = true) :
    Turns i s₀ (reply statusOk d) s :=
  h.succeed hp (.inl ⟨d, rfl⟩)

theorem turns_encodeFrame {cmd : Byte} {p : List Byte} (h : Midway (.encodeFrame cmd p) s₀ s) (hph : s.phase = .idle) :
    Turns (.encodeFrame cmd p) s₀ (do encodeInto cmd p; reply statusOk (← encodedFrame)) s := by
  simp only [Turns, wp_bind, wp_encodeInto]
  refine ⟨fun hfits => ?_, fun _ => h.fail (by rw [hph]; rfl) rfl (by rw [hph]; rfl)⟩
  rw [wp_encodedFrame (m := s.txbuf) (f := commandFrame cmd p) rfl (by simp) (by simpa using hfits)]
  have hm : Midway (.encodeFrame cmd p) s₀
      { s with txbuf := writeBytes s.txbuf 0 (commandFrame cmd p), txlen := some (p.length + 9) } :=
    h.of_eq ⟨rfl, rfl, rfl, rfl, rfl, rfl, rfl, rfl, rfl⟩ rfl rfl rfl ⟨writeBytes_wf h.buffers.1 0 _, h.buffers.2⟩
      ⟨rfl, rfl⟩ rfl rfl
  exact turns_reply hm (by simp only [hph]; rfl)

theorem turns_decodeFrame {tfi : Byte} {f : List Byte} (h : Midway (.decodeFrame tfi f) s₀ s) (hph : s.phase = .idle) :
    Turns (.decodeFrame tfi f) s₀ (do decodeOperand tfi f; reply statusOk (← validatedPayload)) s := by
  rw [Turns, wp_bind]
  refine wp_decodeOperand (fun len v _ _ hl hcap => ?_) (fun e t he ht => ?_)
  · have hbody : (f.drop 5).length = len.toNat + 2 := by simp; omega
    rw [wp_bind, wp_validatedPayload (s := s.withPayload len (f.drop 5)) (m := s.rxbuf) (b := f.drop 5) rfl rfl
      (by rw [hbody]; exact hcap) (by omega)]
    exact turns_reply (h.withPayload len _) (by simp only [State.withPayload, hph]; rfl)
  · have hraise : mayRaise (.decodeFrame tfi f) e = true := by
      rcases Verdicts.frame_error he with rfl | he
      · rfl
      · simp [mayRaise, he]
    rcases ht with ⟨rfl, -⟩ | ⟨len, -, -, rfl⟩
    · exact h.fail (by rw [hph]; rfl) hraise (by rw [hph]; rfl)
    · exact (h.withBody len _).fail (by simp only [State.withBody, hph]; rfl) hraise
        (by simp only [State.withBody, hph]; rfl)

theorem turns_parseTarget {cap : Byte} {p : List Byte} (h : Midway (.parseTarget cap p) s₀ s) (hph : s.phase = .idle) :
    Turns (.parseTarget cap p) s₀ (do replyTarget (← parseTarget p (zextByte cap))) s := by
  have hcap : zextByte cap = s.capacity .uid := by simp [State.capacity, h.operands, uidCapacity]
  have hend : Track.mayMove ⟨(Instr.parseTarget cap p).opcode, s.phase, true⟩ .idle = true := by rw [hph]; rfl
  rw [Turns, wp_bind]
  refine wp_parseTarget hcap (fun _ => ?_) (fun u _ hlen hu => ?_) (fun e he => ?_)
  · rw [wp_replyTarget_false]
    exact h.succeed hend (.inr (.inl ⟨rfl, rfl⟩))
  · rw [wp_replyTarget_true (m := s.uidbuf) (n := u) rfl (by simp; omega) rfl (hcap ▸ hu)]
    -- the UID is in UIDBUF only until the reply that ends the operation
    have hreply := h.succeed (d := (p.drop 8).take u.toNat) hend (.inl ⟨_, rfl⟩)
    rw [State.succeed_eq] at hreply ⊢
    exact hreply
  · exact h.fail (by rw [hph]; rfl) (Verdicts.target_error he) (by rw [hph]; rfl)

/-- A dispatcher operation begins with its first command. -/
theorem turns_firstCommand {cmd : Byte} (h : Midway i s₀ s) (hcfg : s.cfg.InRange) (hph : s.phase = .idle)
    (hi : mayCommand i cmd = true) : Turns i s₀ (exchange cmd (commandPayload s.cfg cmd)) s :=
  turns_exchange h hph hi (commandPayload_length s.cfg hcfg cmd)

/-! ### Items -/

/-- The rule of the request `i` stops well from every block that has just accepted it. -/
def StartsWell (i : Instr) (r : Rule Unit) : Prop :=
  ∀ s : State, s.cfg.InRange → s.phase = .idle → Midway i s s → Turns i s r s

/-- A request whose rule stops well is sound. -/
theorem request_sound {opc : Byte} {r : Rule Unit} (h : s.Inv) (ho : i.opcode = some opc) (hr : StartsWell i r) :
    Sound s.cfg (request i opc r s) := by
  cases hb : s.busy with
  | true =>
    rw [request, if_pos hb]
    exact ⟨h.with_channels _ _ _ _ _, rfl⟩
  | false =>
    have hrest := h.idle hb
    have hclear : s.uidbuf = [] ∧ s.uidlen = none := by
      rw [← show s.cleared = s from hrest]
      exact ⟨rfl, rfl⟩
    have hm : Midway i (s.accept i opc) (s.accept i opc) := Midway.refl rfl rfl h.buffers hclear
    have hph : (s.accept i opc).phase = .idle := (State.accept_phase s i opc).trans (phase_of_rest hrest)
    obtain ⟨t, hrun, hturned⟩ := runRule_of_wp (hr (s.accept i opc) h.cfg hph hm)
    rw [request_of_rest hrest hrun, ← show t.cfg = s.cfg from hturned.outside.cfg]
    exact advance_sound (hturned.inv h.cfg ho.symm)

theorem receive_sound (h : s.Inv) (bs : List Byte) : Sound s.cfg (receive bs s) := advance_sound (h.deliver bs)

theorem transmitFrame_sound (h : s.Inv) (frame : List Byte) : Sound s.cfg (transmitFrame frame s) := by
  unfold transmitFrame
  split
  · split
    · exact advance_sound (h.with_channels _ _ _ _ _)
    · trivial
  · trivial

/-- Every item is sound from every state with the invariant. -/
theorem exec_sound (h : s.Inv) (i : Instr) : Sound s.cfg (exec i s) := by
  cases i with
  | checksum bs => exact request_sound h rfl fun s _ hph hm => turns_reply hm (by rw [hph]; rfl)
  | verifyChecksum cs bs => exact request_sound h rfl fun s _ hph hm => turns_reply hm (by rw [hph]; rfl)
  | encodeFrame cmd p => exact request_sound h rfl fun s _ hph hm => turns_encodeFrame hm hph
  | decodeFrame tfi f => exact request_sound h rfl fun s _ hph hm => turns_decodeFrame hm hph
  | pollReady m =>
    exact request_sound h rfl fun s _ hph hm =>
      turns_pollStart hm (by simp only [State.InPoll, hph]; exact ⟨m, rfl, rfl⟩)
  | readAck =>
    exact request_sound h rfl fun s _ hph hm => hm.waits (k := .ackArrived) ⟨rfl, by simp only [State.InAck, hph]⟩
  | readResponse =>
    exact request_sound h rfl fun s _ hph hm =>
      hm.waits (k := .headerArrived) ⟨rfl, by simp only [State.InResponse, hph]⟩
  | parseTarget cap p => exact request_sound h rfl fun s _ hph hm => turns_parseTarget hm hph
  | beginOp => exact request_sound h rfl fun s hcfg hph hm => turns_firstCommand (cmd := cmdGfv) hm hcfg hph rfl
  | getFirmwareVersion =>
    exact request_sound h rfl fun s hcfg hph hm => turns_firstCommand (cmd := cmdGfv) hm hcfg hph rfl
  | configureSam => exact request_sound h rfl fun s hcfg hph hm => turns_samExchange hm hcfg hph rfl
  | readPassiveTargetA m =>
    exact request_sound h rfl fun s hcfg hph hm => turns_firstCommand (cmd := cmdInlpt) hm hcfg hph rfl
  | wireCmdGetFirmwareVersion => exact transmitFrame_sound h _
  | wireCmdSamConfiguration m t q => exact transmitFrame_sound h _
  | wireCmdInListPassiveTarget => exact transmitFrame_sound h _
  | wireRspGetFirmwareVersion st ic v rev sup => exact receive_sound h _
  | wireRspSamConfiguration st d => exact receive_sound h _
  | wireRspInListPassiveTarget st d => exact receive_sound h _
  | wireAck st => exact receive_sound h _
  | wireStatusReady => exact receive_sound h _

/-- An item is sound also where a reset abandons it on its acceptance. -/
theorem runItem_sound (h : s.Inv) (i : Instr) : Sound s.cfg (runItem i s) := by
  unfold runItem
  split
  · split
    · exact exec_sound h i
    · exact ⟨h.abandonRequest i _, State.abandonRequest_cfg s i _⟩
  · exact exec_sound h i

/-! ### A step -/

theorem fetchBytes_item {ch : Channel} {bs : List Byte} {rest : List RxToken}
    (h : fetchBytes ch bs rest s = .item i t) : t = { s with rx := rest } := by
  unfold fetchBytes at h
  split at h <;> cases h
  rfl

theorem fetchRequest_item (h : fetchRequest s = .item i t) : ∃ q, t = { s with offered := q } := by
  unfold fetchRequest at h
  split at h
  · cases h
  · split at h <;> cases h
    exact ⟨_, rfl⟩

theorem fetchWire_item (h : fetchWire s = .item i t) : ∃ w r, t = { s with writeAnswers := w, rx := r } := by
  unfold fetchWire at h
  split at h
  next =>
    split at h <;> cases h
    exact ⟨_, _, rfl⟩
  next =>
    split at h
    · exact ⟨_, _, fetchBytes_item h⟩
    · cases h
  next =>
    split at h
    · exact ⟨_, _, fetchBytes_item h⟩
    · cases h
  next =>
    split at h
    · split at h
      · exact ⟨_, _, fetchBytes_item h⟩
      · cases h
    · cases h
  next => cases h

/-- Fetching an item takes it from its channel, and changes nothing else. -/
theorem fetch_item (h : fetch s = .item i t) :
    ∃ q w r, t = { s with offered := q, writeAnswers := w, rx := r } := by
  unfold fetch at h
  split at h
  · obtain ⟨w, r, rfl⟩ := fetchWire_item h
    exact ⟨_, _, _, rfl⟩
  · obtain ⟨q, rfl⟩ := fetchRequest_item h
    exact ⟨_, _, _, rfl⟩

/-- A step from a state with the invariant keeps it and the configuration, or is refused; it does not fault. -/
theorem step_sound (h : s.Inv) : Sound s.cfg (step s) := by
  unfold step
  split
  · exact ⟨h.applyReset, State.applyReset_cfg s⟩
  · split
    · rename_i i t hf
      obtain ⟨q, w, r, rfl⟩ := fetch_item hf
      exact runItem_sound (h.dropOwed.with_channels _ _ _ _ _) i
    · trivial
    · exact advance_sound h.dropOwed

/-- Settles O45: every step is sound (`step_sound`), and a fault is not. The run of an operation is followed from its
acceptance (`request_sound`) or from the call it waits at (`turn_inv`) through its events (`settle_inv`). -/
theorem stepNeverFaults : Obligations.StepNeverFaults := by
  intro s h f
  exact (step_sound h).not_fault f

end Sys2Proof.Machine

/-! # Items and their bytes

What is encoded reads back, a fetched wire item is the block going on with the bytes it was read from, and so a step of
a busy block is the operation in flight going on. -/

namespace Sys2Proof.Machine

variable {i : Instr}

/-! ### Descriptors -/

theorem ofBe16_be16 {n : Nat} (h : n < 65536) : ofBe16 (BitVec.ofNat 8 (n / 256)) (BitVec.ofNat 8 n) = n := by
  simp only [ofBe16, BitVec.toNat_ofNat]
  omega

theorem ofBe32_be32 (t : Millis) :
    ofBe32 (t.extractLsb' 24 8) (t.extractLsb' 16 8) (t.extractLsb' 8 8) (t.extractLsb' 0 8) = t := by
  rw [ofBe32, BitVec.extractLsb'_append_extractLsb'_eq_extractLsb' (show 24 = 16 + 8 from rfl),
    BitVec.extractLsb'_append_extractLsb'_eq_extractLsb' (show 16 = 8 + 8 from rfl),
    BitVec.extractLsb'_append_extractLsb'_eq_extractLsb' (show 8 = 0 + 8 from rfl)]
  exact BitVec.extractLsb'_eq_self

theorem sequenceField_be16 (mk : List Byte → Instr) {s : List Byte} (h : s.length < 65536) :
    sequenceField mk (be16 s.length ++ s) = .ok (mk s) := by
  simp [be16, sequenceField, ofBe16_be16 h]

theorem timeoutField_be32 (mk : Millis → Instr) (t : Millis) : timeoutField mk (be32 t) = .ok (mk t) := by
  simp [be32, timeoutField, ofBe32_be32]

theorem sequenceField_ok {mk : List Byte → Instr} {fs : List Byte} (h : sequenceField mk fs = .ok i) :
    ∃ s, i = mk s := by
  unfold sequenceField at h
  split at h
  · split at h <;> cases h
    exact ⟨_, rfl⟩
  · cases h

theorem byteSequenceField_ok {mk : Byte → List Byte → Instr} {fs : List Byte}
    (h : byteSequenceField mk fs = .ok i) : ∃ b s, i = mk b s := by
  unfold byteSequenceField at h
  split at h
  · exact ⟨_, sequenceField_ok h⟩
  · cases h

theorem timeoutField_ok {mk : Millis → Instr} {fs : List Byte} (h : timeoutField mk fs = .ok i) : ∃ t, i = mk t := by
  unfold timeoutField at h
  split at h <;> cases h
  exact ⟨_, rfl⟩

theorem noField_ok {j : Instr} {fs : List Byte} (h : noField j fs = .ok i) : i = j := by
  unfold noField at h
  split at h <;> cases h
  rfl

/-- A descriptor spells a request, never a frame of the wire (30_encoding.md R90). -/
theorem decodeRequest_channel {d : List Byte} (h : decodeRequest d = .ok i) : i.channel = .request := by
  unfold decodeRequest at h
  split at h
  · cases h
  · split at h
    · obtain ⟨_, rfl⟩ := sequenceField_ok h; rfl
    · obtain ⟨_, _, rfl⟩ := byteSequenceField_ok h; rfl
    · obtain ⟨_, _, rfl⟩ := byteSequenceField_ok h; rfl
    · obtain ⟨_, _, rfl⟩ := byteSequenceField_ok h; rfl
    · obtain ⟨_, rfl⟩ := timeoutField_ok h; rfl
    · rw [noField_ok h]; rfl
    · rw [noField_ok h]; rfl
    · obtain ⟨_, _, rfl⟩ := byteSequenceField_ok h; rfl
    · rw [noField_ok h]; rfl
    · rw [noField_ok h]; rfl
    · rw [noField_ok h]; rfl
    · obtain ⟨_, rfl⟩ := timeoutField_ok h; rfl
    · cases h

/-! ### Frames -/

theorem commandFrame_payload (cmd : Byte) (p : List Byte) :
    ((commandFrame cmd p).drop 7).take ((commandFrame cmd p).length - 9) = p := by
  simp [commandFrame]

theorem commandFrame_code (cmd : Byte) (p : List Byte) : (commandFrame cmd p).getD 6 0 = cmd := rfl

theorem responseRead_status (st rsp : Byte) (d : List Byte) : (responseRead st rsp d).getD 0 0 = st := rfl

theorem responseRead_code (st rsp : Byte) (d : List Byte) : (responseRead st rsp d).getD 7 0 = rsp := rfl

theorem responseRead_data (st rsp : Byte) (d : List Byte) :
    ((responseRead st rsp d).drop 8).take ((responseRead st rsp d).length - 10) = d := by
  simp [responseRead, responseHead, responseBody, startSeq]

theorem decodeCommand_ok {f : List Byte} (h : decodeCommand f = .ok i) : i.channel = .command ∧ encode i = f := by
  simp only [decodeCommand] at h
  split at h
  · rename_i hf
    obtain ⟨-, hf⟩ := hf
    split at h
    · rename_i hc
      obtain ⟨hcmd, hp⟩ := hc
      cases h
      rw [hcmd, hp] at hf
      exact ⟨rfl, hf.symm⟩
    · split at h
      · rename_i hc
        obtain ⟨hcmd, hp⟩ := hc
        cases h
        rw [hcmd, hp] at hf
        exact ⟨rfl, hf.symm⟩
      · split at h
        · rename_i hc
          split at h <;> cases h
          rename_i hp
          rw [hc, hp] at hf
          exact ⟨rfl, hf.symm⟩
        · cases h
  · cases h

theorem decodeResponse_ok {r : List Byte} (h : decodeResponse r = .ok i) :
    i.channel = .response ∧ encode i = r := by
  simp only [decodeResponse] at h
  split at h
  · rename_i hr
    obtain ⟨-, hr⟩ := hr
    have key : ∀ c : Byte, (r.getD 7 0).toNat = c.toNat → r.getD 7 0 = c := fun c => BitVec.eq_of_toNat_eq
    split at h <;> cases h
    · rename_i hc hd
      rw [key (cmdGfv + 1) hc, hd] at hr
      exact ⟨rfl, hr.symm⟩
    · rename_i hc
      rw [key (cmdSam + 1) hc] at hr
      exact ⟨rfl, hr.symm⟩
    · rename_i hc
      rw [key (cmdInlpt + 1) hc] at hr
      exact ⟨rfl, hr.symm⟩
  · cases h

theorem decodeAck_ok {a : List Byte} (h : decodeAck a = .ok i) : i.channel = .ack ∧ encode i = a := by
  unfold decodeAck at h
  split at h
  · split at h <;> cases h
    rename_i ha
    exact ⟨rfl, by rw [ha]; rfl⟩
  · cases h

theorem decodeSample_ok {b : List Byte} (h : decodeSample b = .ok i) : i.channel = .sample ∧ encode i = b := by
  unfold decodeSample at h
  split at h
  · split at h <;> cases h
    rename_i hb
    exact ⟨rfl, by rw [hb]; rfl⟩
  · cases h

/-- The bytes of a well-formed item read back as the item, on its own channel. -/
theorem decode_encode (h : i.WellFormed = true) : decode i.channel (encode i) = .ok i := by
  cases i with
  | checksum s => exact sequenceField_be16 _ (of_decide_eq_true h)
  | verifyChecksum cs s => exact sequenceField_be16 _ (of_decide_eq_true h)
  | encodeFrame cmd p => exact sequenceField_be16 _ (of_decide_eq_true h)
  | decodeFrame tfi f => exact sequenceField_be16 _ (of_decide_eq_true h)
  | pollReady t => exact timeoutField_be32 _ t
  | readAck => rfl
  | readResponse => rfl
  | parseTarget cap p => exact sequenceField_be16 _ (of_decide_eq_true h)
  | beginOp => rfl
  | getFirmwareVersion => rfl
  | configureSam => rfl
  | readPassiveTargetA t => exact timeoutField_be32 _ t
  | wireCmdGetFirmwareVersion => rfl
  | wireCmdSamConfiguration m t q =>
    show decodeCommand (commandFrame cmdSam [m, t, q]) = _
    simp only [decodeCommand, commandFrame_code, commandFrame_payload]
    rfl
  | wireCmdInListPassiveTarget => rfl
  | wireRspGetFirmwareVersion st ic v rev sup =>
    show decodeResponse (responseRead st (cmdGfv + 1) [ic, v, rev, sup]) = _
    simp only [decodeResponse, responseRead_status, responseRead_code, responseRead_data]
    rfl
  | wireRspSamConfiguration st d =>
    have hd : d.length ≤ 253 := of_decide_eq_true h
    show decodeResponse (responseRead st (cmdSam + 1) d) = _
    simp only [decodeResponse, responseRead_status, responseRead_code, responseRead_data, hd, and_self, if_true]
    rfl
  | wireRspInListPassiveTarget st d =>
    have hd : d.length ≤ 253 := of_decide_eq_true h
    show decodeResponse (responseRead st (cmdInlpt + 1) d) = _
    simp only [decodeResponse, responseRead_status, responseRead_code, responseRead_data, hd, and_self, if_true]
    rfl
  | wireAck st => rfl
  | wireStatusReady => rfl

/-- A response is a header of six bytes, whose LEN gives the length of its body. -/
theorem encode_response (hi : i.WellFormed = true) (hc : i.channel = .response) :
    ∃ h b : List Byte, encode i = h ++ b ∧ h.length = 6 ∧ b.length = zextByte (h.getD 4 0) + 2 := by
  have key : ∀ (st rsp : Byte) (d : List Byte), d.length ≤ 253 → ∃ h b : List Byte,
      responseRead st rsp d = h ++ b ∧ h.length = 6 ∧ b.length = zextByte (h.getD 4 0) + 2 := fun st rsp d hd =>
    ⟨st :: responseHead d.length, responseBody rsp d, rfl, rfl, by
      rw [responseBody_length]
      exact (congrArg (· + 2) (ofNat_toNat_of_le hd)).symm⟩
  exact match i, hi, hc with
  | .wireRspGetFirmwareVersion _ _ _ _ _, _, _ => key _ _ [_, _, _, _] (by simp)
  | .wireRspSamConfiguration _ _, hi, _ => key _ _ _ (of_decide_eq_true hi)
  | .wireRspInListPassiveTarget _ _, hi, _ => key _ _ _ (of_decide_eq_true hi)

theorem exec_command (h : i.channel = .command) (s : State) : exec i s = transmitFrame (encode i) s :=
  match i, h with
  | .wireCmdGetFirmwareVersion, _ => rfl
  | .wireCmdSamConfiguration _ _ _, _ => rfl
  | .wireCmdInListPassiveTarget, _ => rfl

/-- The transport delivers the items of these channels; it takes those of `.command` (20_memory.md R68). -/
def Delivered (ch : Channel) : Prop := ch = .sample ∨ ch = .ack ∨ ch = .response

theorem exec_delivered (h : Delivered i.channel) (s : State) : exec i s = receive (encode i) s :=
  match i, h with
  | .wireRspGetFirmwareVersion _ _ _ _ _, _ => rfl
  | .wireRspSamConfiguration _ _, _ => rfl
  | .wireRspInListPassiveTarget _ _, _ => rfl
  | .wireAck _, _ => rfl
  | .wireStatusReady, _ => rfl

/-- What is read from delivered bytes is an item with those bytes. -/
theorem decode_delivered {ch : Channel} {bs : List Byte} (hch : Delivered ch) (h : decode ch bs = .ok i) :
    Delivered i.channel ∧ encode i = bs := by
  obtain ⟨hc, hb⟩ : i.channel = ch ∧ encode i = bs := by
    rcases hch with rfl | rfl | rfl
    · exact decodeSample_ok h
    · exact decodeAck_ok h
    · exact decodeResponse_ok h
  exact ⟨hc ▸ hch, hb⟩

/-! ### The item at the outstanding call -/

variable {s t : State}

/-- The item that the bytes of an answered read spell is fetched. -/
theorem fetchBytes_encode {ch : Channel} (hi : i.WellFormed = true) (hc : i.channel = ch) (rest : List RxToken) :
    fetchBytes ch (encode i) rest s = .item i { s with rx := rest } := by
  simp only [fetchBytes, ← hc, decode_encode hi]

theorem fetchWire_command {tc : Nat} {k : Resume} {w : List Bool} (hi : i.WellFormed = true) (hc : i.channel = .command)
    (hout : s.outstanding = some ⟨.write (encode i) tc, k⟩) (hw : s.writeAnswers = true :: w) :
    fetchWire s = .item i { s with writeAnswers := w } := by
  have hdec : decode .command (encode i) = .ok i := hc ▸ decode_encode hi
  simp only [fetchWire, hout, hw, hdec]

theorem fetchWire_sample {tc : Nat} {rest : List RxToken} (hi : i.WellFormed = true) (hc : i.channel = .sample)
    (hout : s.outstanding = some ⟨.read 1 tc, .sampled⟩) (hrx : s.rx = stream (encode i) ++ rest) :
    fetchWire s = .item i { s with rx := rest } := by
  have hlen : (encode i).length = 1 := match i, hc with
    | .wireStatusReady, _ => rfl
  have hf : fetchWire s = fetchBytes .sample (encode i) rest s := by
    simp only [fetchWire, hout, hrx, takeRead_of_length hlen]
  rw [hf, fetchBytes_encode hi hc]

theorem fetchWire_ack {tc : Nat} {rest : List RxToken} (hi : i.WellFormed = true) (hc : i.channel = .ack)
    (hout : s.outstanding = some ⟨.read 7 tc, .ackArrived⟩) (hrx : s.rx = stream (encode i) ++ rest) :
    fetchWire s = .item i { s with rx := rest } := by
  have hlen : (encode i).length = 7 := match i, hc with
    | .wireAck _, _ => rfl
  have hf : fetchWire s = fetchBytes .ack (encode i) rest s := by
    simp only [fetchWire, hout, hrx, takeRead_of_length hlen]
  rw [hf, fetchBytes_encode hi hc]

theorem fetchWire_response {tc : Nat} {rest : List RxToken} (hi : i.WellFormed = true) (hc : i.channel = .response)
    (hout : s.outstanding = some ⟨.read 6 tc, .headerArrived⟩) (hrx : s.rx = stream (encode i) ++ rest) :
    fetchWire s = .item i { s with rx := rest } := by
  obtain ⟨head, body, henc, hhead, hbody⟩ := encode_response hi hc
  have hrx' : s.rx = stream head ++ (stream body ++ rest) := by rw [hrx, henc]; simp
  have hf : fetchWire s = fetchBytes .response (head ++ body) rest s := by
    simp only [fetchWire, hout, hrx', takeRead_of_length hhead, takeRead_of_length hbody]
  rw [hf, ← henc, fetchBytes_encode hi hc]

/-! ### A fetched wire item is the block going on -/

/-- A frame whose write is outstanding goes out. -/
theorem transmitFrame_written {f : List Byte} {tc : Nat} {k : Resume} (h : s.outstanding = some ⟨.write f tc, k⟩)
    (w : List Bool) :
    transmitFrame f { s with writeAnswers := w } = advance { s with writeAnswers := true :: w } := by
  simp only [transmitFrame, h, if_true]

/-- An item of delivered bytes that the next reads take: with them back on the stream the block is where it was. -/
theorem exec_fetchBytes {ch : Channel} {bs : List Byte} {rest : List RxToken} (hch : Delivered ch)
    (hrx : s.rx = stream bs ++ rest) (h : fetchBytes ch bs rest s = .item i t) : exec i t = advance s := by
  unfold fetchBytes at h
  split at h <;> cases h
  rename_i hdec
  obtain ⟨hi, hbs⟩ := decode_delivered hch hdec
  rw [exec_delivered hi, hbs, receive, State.deliver]
  exact congrArg advance (by rw [← hrx])

/-- Running a fetched wire item is going on with the answers that its bytes are (30_encoding.md R90). -/
theorem exec_fetchWire (h : fetchWire s = .item i t) : exec i t = advance s := by
  unfold fetchWire at h
  split at h
  next f tc k hout =>
    split at h <;> cases h
    rename_i hans hdec
    obtain ⟨hi, rfl⟩ := decodeCommand_ok hdec
    rw [exec_command hi, transmitFrame_written hout]
    exact congrArg advance (by rw [← hans])
  next =>
    split at h
    · rename_i hread
      exact exec_fetchBytes (.inl rfl) (takeRead_bytes hread).2 h
    · cases h
  next =>
    split at h
    · rename_i hread
      exact exec_fetchBytes (.inr (.inl rfl)) (takeRead_bytes hread).2 h
    · cases h
  next =>
    split at h
    · rename_i hhead
      split at h
      · rename_i hbody
        refine exec_fetchBytes (.inr (.inr rfl)) ?_ h
        rw [(takeRead_bytes hhead).2, (takeRead_bytes hbody).2, stream, List.map_append, List.append_assoc]
      · cases h
    · cases h
  next => cases h

theorem fetchBytes_ne_malformed (ch : Channel) (bs : List Byte) (rest : List RxToken) (s : State) (e : DecodeError) :
    fetchBytes ch bs rest s ≠ .malformed e := by
  unfold fetchBytes
  split <;> exact nofun

/-- Only a descriptor is malformed: bytes of the wire that spell no frame are for the rule in flight to judge
(30_encoding.md R110). -/
theorem fetchWire_ne_malformed (s : State) (e : DecodeError) : fetchWire s ≠ .malformed e := by
  unfold fetchWire
  split
  next => split <;> exact nofun
  next => split; exacts [fetchBytes_ne_malformed _ _ _ _ _, nofun]
  next => split; exacts [fetchBytes_ne_malformed _ _ _ _ _, nofun]
  next =>
    split
    · split; exacts [fetchBytes_ne_malformed _ _ _ _ _, nofun]
    · exact nofun
  next => exact nofun

/-- The oldest descriptor, if it spells anything, spells a request; fetching it takes it off REQ. -/
theorem fetchRequest_request (h : fetchRequest s = .item i t) :
    ∃ q, t = { s with offered := q } ∧ i.channel = .request := by
  unfold fetchRequest at h
  split at h
  · cases h
  · split at h <;> cases h
    rename_i hdec
    exact ⟨_, rfl, decodeRequest_channel hdec⟩

theorem fetchRequest_nothing (h : fetchRequest s = .nothing) : s.offered = [] := by
  unfold fetchRequest at h
  split at h
  · assumption
  · split at h <;> cases h

/-- A step of a busy block is the operation in flight going on. -/
theorem step_of_busy (hr : s.resetLine = false) (hb : s.busy = true) : step s = advance s.dropOwed := by
  have hf : fetch s.dropOwed = fetchWire s.dropOwed := by simp [fetch, hb]
  simp only [step, hr, hf]
  split
  · contradiction
  · split
    · rename_i i t hi
      have hbt : t.busy = true := by
        obtain ⟨w, r, rfl⟩ := fetchWire_item hi
        exact hb
      rw [runItem_of_busy hbt, exec_fetchWire hi]
    · rename_i e he
      exact absurd he (fetchWire_ne_malformed _ e)
    · rfl

theorem step_of_fetchWire (hr : s.resetLine = false) (hb : s.busy = true) (hf : fetchWire s.dropOwed = .item i t) :
    step s = exec i t := by
  rw [step_of_busy hr hb, exec_fetchWire hf]

/-! # Requests and steps

Everything a step can do (`Stepped`), and what the run of events that ends it leaves. -/

/-! ### A request -/

/-- Every request has a rule that stops well. -/
theorem exec_request (h : i.channel = .request) :
    ∃ opc r, i.opcode = some opc ∧ StartsWell i r ∧ ∀ s, exec i s = request i opc r s :=
  match i, h with
  | .checksum _, _ => ⟨_, _, rfl, fun _ _ hph hm => turns_reply hm (by rw [hph]; rfl), fun _ => rfl⟩
  | .verifyChecksum _ _, _ => ⟨_, _, rfl, fun _ _ hph hm => turns_reply hm (by rw [hph]; rfl), fun _ => rfl⟩
  | .encodeFrame _ _, _ => ⟨_, _, rfl, fun _ _ hph hm => turns_encodeFrame hm hph, fun _ => rfl⟩
  | .decodeFrame _ _, _ => ⟨_, _, rfl, fun _ _ hph hm => turns_decodeFrame hm hph, fun _ => rfl⟩
  | .pollReady m, _ =>
    ⟨_, _, rfl, fun _ _ hph hm => turns_pollStart hm (by simp only [State.InPoll, hph]; exact ⟨m, rfl, rfl⟩),
      fun _ => rfl⟩
  | .readAck, _ =>
    ⟨_, readAckStart, rfl, fun _ _ hph hm => hm.waits (k := .ackArrived) ⟨rfl, by simp only [State.InAck, hph]⟩,
      fun _ => rfl⟩
  | .readResponse, _ =>
    ⟨_, readResponseStart, rfl,
      fun _ _ hph hm => hm.waits (k := .headerArrived) ⟨rfl, by simp only [State.InResponse, hph]⟩, fun _ => rfl⟩
  | .parseTarget _ _, _ => ⟨_, _, rfl, fun _ _ hph hm => turns_parseTarget hm hph, fun _ => rfl⟩
  | .beginOp, _ => ⟨_, _, rfl, fun _ hcfg hph hm => turns_firstCommand (cmd := cmdGfv) hm hcfg hph rfl, fun _ => rfl⟩
  | .getFirmwareVersion, _ =>
    ⟨_, _, rfl, fun _ hcfg hph hm => turns_firstCommand (cmd := cmdGfv) hm hcfg hph rfl, fun _ => rfl⟩
  | .configureSam, _ => ⟨_, _, rfl, fun _ hcfg hph hm => turns_samExchange hm hcfg hph rfl, fun _ => rfl⟩
  | .readPassiveTargetA _, _ =>
    ⟨_, _, rfl, fun _ hcfg hph hm => turns_firstCommand (cmd := cmdInlpt) hm hcfg hph rfl, fun _ => rfl⟩

/-- A block with BUSY 0 that runs a request has accepted it, and goes on from where the rule of the request stops. -/
theorem exec_accepts (h : s.Inv) (hb : s.busy = false) (hi : i.channel = .request) :
    ∃ opc v, i.opcode = some opc ∧ Turned i (s.accept i opc) v ∧ v.Inv ∧ exec i s = advance v := by
  obtain ⟨opc, r, hopc, hstarts, hexec⟩ := exec_request hi
  have hrest := h.idle hb
  have hclear : s.uidbuf = [] ∧ s.uidlen = none := by
    rw [← show s.cleared = s from hrest]
    exact ⟨rfl, rfl⟩
  have hph : (s.accept i opc).phase = .idle := (State.accept_phase s i opc).trans (phase_of_rest hrest)
  obtain ⟨v, hrun, hv⟩ := runRule_of_wp (hstarts (s.accept i opc) h.cfg hph (Midway.refl rfl rfl h.buffers hclear))
  exact ⟨opc, v, hopc, hv, hv.inv h.cfg hopc.symm, by rw [hexec, request_of_rest hrest hrun]⟩

/-! ### The run of an operation ends where it waits

Each event of a run takes an answer from a channel, so a run bounded by the number of answers is never cut short. -/

theorem State.SameOutside.budget (h : s.SameOutside t) : t.budget = s.budget := by
  simp only [State.budget, h.writeAnswers, h.rx, h.clock]

/-- No rule reads nothing. -/
theorem State.AtPoint.ne_read_zero {c : Call} {k : Resume} (h : s.AtPoint i c k) (x : Nat) : c ≠ .read 0 x := by
  cases k with
  | frameWritten => obtain ⟨-, cmd, -, -, rfl⟩ := h; exact nofun
  | pollStarted => obtain ⟨rfl, -⟩ := h; exact nofun
  | sampled => obtain ⟨rfl, -⟩ := h; exact nofun
  | timed => obtain ⟨rfl, -⟩ := h; exact nofun
  | ackArrived => obtain ⟨rfl, -⟩ := h; exact nofun
  | headerArrived => obtain ⟨rfl, -⟩ := h; exact nofun
  | bodyArrived len => obtain ⟨rfl, -⟩ := h; exact nofun

theorem State.Inv.busy_of_outstanding (h : s.Inv) {o : Outstanding} (ho : s.outstanding = some o) : s.busy = true := by
  cases hb : s.busy with
  | true => rfl
  | false => exact absurd (ho.symm.trans (h.outstanding_of_not_busy hb)) nofun

theorem turn_budget (h : s.Inv) (ht : turn s = some (.next t)) : t.budget < s.budget := by
  obtain ⟨i, c, k, a, u, t', -, -, hout, ha, heq, hturned⟩ := turn_turned h ht
  cases heq
  obtain ⟨⟨i', c', k', -, hout', -, hat⟩, -⟩ := h.waiting (h.busy_of_outstanding hout)
  cases hout.symm.trans hout'
  obtain ⟨-, -, -, hlt⟩ := answerOf_some ha
  calc t.budget = (u.answered c a).budget := hturned.outside.budget
    _ = u.budget := rfl
    _ < s.budget := hlt hat.ne_read_zero

/-- A run with as much fuel as the channels hold answers ends at a call that has no answer, or with no call. -/
theorem settle_runs {n : Nat} (h : s.Inv) (hn : s.budget ≤ n) :
    ∃ t, settle n s = .next t ∧ Runs s t ∧ turn t = none := by
  induction n generalizing s with
  | zero =>
    refine ⟨s, rfl, .refl s, ?_⟩
    cases ht : turn s with
    | none => rfl
    | some o =>
      obtain ⟨t, rfl, -⟩ := turn_inv h ht
      have := turn_budget h ht
      omega
  | succ n ih =>
    cases ht : turn s with
    | none => exact ⟨s, settle_of_waiting ht _, .refl s, ht⟩
    | some o =>
      obtain ⟨u, rfl, hu, -⟩ := turn_inv h ht
      have hlt := turn_budget h ht
      obtain ⟨t, hset, hruns, hend⟩ := ih hu (by omega)
      exact ⟨t, by rw [settle, ht]; exact hset, .trans ⟨1, turns_one ht, by omega⟩ hruns, hend⟩

theorem advance_runs (h : s.Inv) (ht : advance s = .next t) : Runs s t ∧ turn t = none := by
  obtain ⟨u, hset, hruns, hend⟩ := settle_runs h le_rfl
  cases ht.symm.trans hset
  exact ⟨hruns, hend⟩

/-- What every event keeps, a run keeps. -/
theorem Runs.keeps {P : State → Prop} (hP : ∀ u v, P u → turn u = some (.next v) → P v) (h : Runs s t) (hs : P s) :
    P t := by
  obtain ⟨k, hk, -⟩ := h
  induction k generalizing s with
  | zero => cases hk; exact hs
  | succ k ih =>
    simp only [turns] at hk
    split at hk
    · rename_i u hu
      exact ih (hP s u hs hu) hk
    · cases hk

/-! ### What a step can do -/

/-- The block has discarded what it is owed and taken a request off REQ, which then holds `rest`. -/
def State.taking (s : State) (rest : List (List Byte)) : State := { s.dropOwed with offered := rest }

theorem State.Inv.taking (h : s.Inv) (rest : List (List Byte)) : (s.taking rest).Inv := h.with_channels _ _ _ _ _

/-- Everything a step from `s` can lead to. -/
inductive Stepped (s : State) : State → Prop
  /-- The host applies a reset. -/
  | reset : s.resetLine = true → Stepped s s.applyReset
  /-- The operation in flight goes on; with BUSY 0 there is none, and no request is offered. -/
  | goesOn {t : State} : s.resetLine = false → s.busy = true ∨ s.offered = [] → advance s.dropOwed = .next t →
      Stepped s t
  /-- A request is accepted and a reset abandons it. -/
  | abandoned {i : Instr} {opc : Byte} {rest : List (List Byte)} : s.resetLine = false → s.busy = false →
      s.resetOnAccept = true → i.opcode = some opc → Stepped s ((s.taking rest).abandonRequest i opc)
  /-- A request is accepted; its rule stops at `v`, and its operation goes on from there. -/
  | accepted {i : Instr} {opc : Byte} {rest : List (List Byte)} {v t : State} : s.resetLine = false → s.busy = false →
      s.resetOnAccept = false → i.opcode = some opc → Turned i ((s.taking rest).accept i opc) v → v.Inv →
      advance v = .next t → Stepped s t

/-- A request that a step has taken off REQ is accepted, or abandoned on its acceptance. -/
theorem stepped_of_runItem {rest : List (List Byte)} (h : s.Inv) (hr : s.resetLine = false) (hb : s.busy = false)
    (hi : i.channel = .request) (ht : runItem i (s.taking rest) = .next t) : Stepped s t := by
  obtain ⟨opc, v, hopc, hv, hvinv, hexec⟩ := exec_accepts (h.taking rest) hb hi
  cases ha : s.resetOnAccept with
  | true =>
    rw [runItem_of_reset (s := s.taking rest) ha hb hopc] at ht
    cases ht
    exact .abandoned hr hb ha hopc
  | false =>
    rw [runItem_of_no_reset (s := s.taking rest) ha, hexec] at ht
    exact .accepted hr hb ha hopc hv hvinv ht

/-- A step from a state with the invariant does one of these. -/
theorem stepped_of_next (h : s.Inv) (ht : step s = .next t) : Stepped s t := by
  cases hr : s.resetLine with
  | true =>
    simp only [step, hr, if_true] at ht
    cases ht
    exact .reset hr
  | false =>
    cases hb : s.busy with
    | true => exact .goesOn hr (.inl hb) (step_of_busy hr hb ▸ ht)
    | false =>
      have hf : fetch s.dropOwed = fetchRequest s.dropOwed := by simp [fetch, hb]
      simp only [step, hr, hf] at ht
      split at ht
      · contradiction
      · split at ht
        · rename_i i u hi
          obtain ⟨rest, rfl, hchan⟩ := fetchRequest_request hi
          exact stepped_of_runItem h hr hb hchan ht
        · cases ht
        · rename_i hnone
          exact .goesOn hr (.inr (fetchRequest_nothing (s := s.dropOwed) hnone)) ht

/-! ### What a run of events leaves -/

/-- How many operations are in flight. -/
def State.inFlight (s : State) : Nat := if s.busy then 1 else 0

/-- From `s` to `t` the operation in flight goes on, or ends with one RES message: no request is looked at. -/
structure Onward (s t : State) : Prop where
  offered : t.offered = s.offered
  events : ∃ new, t.events = s.events ++ new ∧ acceptances new = 0 ∧ s.inFlight = results new + t.inFlight

theorem Onward.refl (s : State) : Onward s s := ⟨rfl, [], by simp, rfl, by simp [results]⟩

theorem Onward.trans {u : State} (h : Onward s t) (h' : Onward t u) : Onward s u := by
  obtain ⟨new, hev, hacc, hres⟩ := h.events
  obtain ⟨new', hev', hacc', hres'⟩ := h'.events
  refine ⟨h'.offered.trans h.offered, new ++ new', by rw [hev', hev, List.append_assoc], ?_, ?_⟩
  · rw [acceptances_append, hacc, hacc']
  · rw [results_append, hres, hres', Nat.add_assoc]

/-- A rule piece of an operation in flight goes onward. -/
theorem Turned.onward (h : Turned i s t) (hb : s.busy = true) : Onward s t := by
  obtain ⟨new, hev, -, hacc, hres, -⟩ := h.events
  refine ⟨h.outside.offered, new, hev, hacc, ?_⟩
  cases ht : t.busy <;> simp [State.inFlight, hb, ht, hres]

theorem turn_onward (h : s.Inv) (ht : turn s = some (.next t)) : Onward s t := by
  obtain ⟨i, c, k, a, u, v, -, -, hout, ha, heq, hturned⟩ := turn_turned h ht
  cases heq
  obtain ⟨-, ⟨w, r, cl, rfl⟩, -⟩ := answerOf_some ha
  have hb := h.busy_of_outstanding hout
  have hcall : Onward s (State.answered { s with writeAnswers := w, rx := r, clock := cl } c a) :=
    ⟨rfl, [.call c a], rfl, rfl, (Nat.zero_add _).symm⟩
  exact hcall.trans (hturned.onward hb)

theorem advance_onward (h : s.Inv) (ht : advance s = .next t) : Onward s t := by
  obtain ⟨hruns, -⟩ := advance_runs h ht
  refine (hruns.keeps (P := fun u => Onward s u ∧ u.Inv) ?_ ⟨.refl s, h⟩).1
  rintro u v ⟨hon, hu⟩ hv
  obtain ⟨_, heq, hinv, -⟩ := turn_inv hu hv
  cases heq
  exact ⟨hon.trans (turn_onward hu hv), hinv⟩

theorem Stepped.turn_eq_none (h : s.Inv) (ht : Stepped s t) : turn t = none := by
  cases ht with
  | reset => exact turn_of_not_outstanding (State.applyReset_outstanding s)
  | goesOn _ _ hadv => exact (advance_runs h.dropOwed hadv).2
  | @abandoned i opc rest =>
    exact turn_of_not_outstanding (State.applyReset_outstanding ((s.taking rest).accept i opc))
  | accepted _ _ _ _ _ hvinv hadv => exact (advance_runs hvinv hadv).2

/-- A block with no event to come is at rest, or waits for an answer. -/
theorem rest_or_unanswered (h : s.Inv) (ht : turn s = none) :
    s.AtRest ∨ ∃ o, s.outstanding = some o ∧ answerOf o.call s = none := by
  cases hb : s.busy with
  | false => exact .inl (h.idle hb)
  | true =>
    obtain ⟨⟨i, c, k, -, hout, -⟩, -⟩ := h.waiting hb
    refine .inr ⟨⟨c, k⟩, hout, ?_⟩
    simp only [turn, hout] at ht
    split at ht
    · assumption
    · cases ht

/-- Both ends of an operation leave the cleared state, and only their events tell them apart. -/
theorem cleared_of_end (h : (∃ (st : Byte) (d : List Byte), t = s.succeed st d) ∨ ∃ e : Failure, t = s.fail e) :
    ∃ es, t = { s.cleared with events := es } := by
  rcases h with ⟨st, d, rfl⟩ | ⟨e, rfl⟩
  · exact ⟨_, State.succeed_eq s st d⟩
  · exact ⟨_, State.fail_eq s e⟩

/-! # The state: its invariant, its values after reset, and what a step does with requests -/

/-- Settles O44: a step from a state with the invariant is sound (`step_sound`). -/
theorem stepKeepsInvariant : Obligations.StepKeepsInvariant := by
  intro s t h ht
  have hsound := step_sound h
  rw [ht] at hsound
  exact hsound

/-- Settles O48: an acceptance starts an operation (`Stepped.accepted`), and every event after it keeps the operation in
flight or ends it with one RES message (`Onward`). -/
theorem oneResultPerRequest : Obligations.OneResultPerRequest := by
  intro s t h hr ha ht
  cases stepped_of_next h ht with
  | reset hr' => exact absurd (hr'.symm.trans hr) nofun
  | goesOn _ _ hadv =>
    obtain ⟨new, hev, hacc, hres⟩ := (advance_onward h.dropOwed hadv).events
    exact ⟨new, hev, by rw [hacc]; exact hres⟩
  | abandoned _ _ ha' => exact absurd (ha'.symm.trans ha) nofun
  | @accepted i opc _ _ _ _ hb _ _ hv hvinv hadv =>
    obtain ⟨new, hev, hacc, hres⟩ := ((hv.onward rfl).trans (advance_onward hvinv hadv)).events
    refine ⟨.accepted opc :: new, ?_, ?_⟩
    · rw [hev, State.accept_events, List.append_assoc]; rfl
    · rw [hb, acceptances, hacc]; exact hres

/-- Settles O9: exec of a request looks at BUSY first, and a step of a busy block is the operation in flight going on
(`step_of_busy`). -/
theorem busyKeepsRequestsOffered : Obligations.BusyKeepsRequestsOffered := by
  refine ⟨fun s i hi hb => ?_, fun s t h hb hr ht => ?_⟩
  · obtain ⟨opc, r, -, -, hexec⟩ := exec_request hi
    rw [hexec, request, if_pos hb]
  · rw [step_of_busy hr hb] at ht
    have hon := advance_onward h.dropOwed ht
    obtain ⟨new, hev, hacc, -⟩ := hon.events
    exact ⟨hon.offered, new, hev, hacc⟩

/-- Settles O50: a step ends with a run, and a run ends where no answer is left for it (`advance_runs`). -/
theorem stepEndsAtRestOrWaiting : Obligations.StepEndsAtRestOrWaiting := by
  intro s t h ht
  have hend := (stepped_of_next h ht).turn_eq_none h
  exact ⟨hend, rest_or_unanswered (stepKeepsInvariant s t h ht).1 hend⟩

/-- Settles O6: the oldest descriptor is read back as the request it encodes (`decode_encode`). -/
theorem stepRunsRequest : Obligations.StepRunsRequest := by
  intro s i rest hi hc hr ha hb hoff
  refine ⟨?_, State.dropOwed_of_nothing⟩
  have hdec : decode .request (encode i) = .ok i := hc ▸ decode_encode hi
  have hf : fetch s.dropOwed = .item i (s.taking rest) := by
    simp [fetch, hb, fetchRequest, hoff, hdec, State.taking]
  have hstep : step s = runItem i (s.taking rest) := by simp [step, hr, hf]
  exact hstep.trans (runItem_of_no_reset (s := s.taking rest) ha i)

/-- Settles O7: at each of the four calls that take one, the item that its bytes encode is what the block fetches. -/
theorem stepRunsWireItem : Obligations.StepRunsWireItem := by
  intro s i hi hr hb
  refine ⟨fun tc w hc hout hw => ?_, fun tc rest hrx hcall => ?_⟩
  · exact step_of_fetchWire hr hb (fetchWire_command hi hc hout hw)
  · rcases hcall with ⟨hc, hout⟩ | ⟨hc, hout⟩ | ⟨hc, hout⟩
    · exact step_of_fetchWire hr hb (fetchWire_sample hi hc hout hrx)
    · exact step_of_fetchWire hr hb (fetchWire_ack hi hc hout hrx)
    · exact step_of_fetchWire hr hb (fetchWire_response hi hc hout hrx)

/-- Settles O43: the reset state is at rest, with parameters in range. -/
theorem invariantAtReset : Obligations.InvariantAtReset := inv_of_rest (by decide) rfl

/-- Settles O56: with nothing on REQ and no call outstanding, nothing is fetched and no event can follow. -/
theorem resetValues : Obligations.ResetValues := by
  refine ⟨rfl, rfl, rfl, rfl, rfl, rfl, rfl, rfl, rfl, rfl, rfl, rfl, rfl, rfl, rfl, rfl, rfl, rfl,
    fun s hs hr hoff => ⟨?_, State.dropOwed_of_nothing⟩⟩
  have hb : s.busy = false := by rw [← show s.cleared = s from hs]; rfl
  have hf : fetch s.dropOwed = .nothing := by simp [fetch, hb, fetchRequest, hoff]
  simp only [step, hr, hf]
  exact advance_of_not_outstanding (outstanding_of_rest (s := s) hs)

/-- Settles O58: the events are those of the two ends, and all else is what `cleared` leaves (`cleared_of_end`). -/
theorem endLeavesNoValue : Obligations.EndLeavesNoValue := by
  refine ⟨fun s st d => by rw [State.succeed_eq], fun s e => by rw [State.fail_eq], fun s t h => ?_⟩
  obtain ⟨es, rfl⟩ := cleared_of_end h
  exact ⟨rfl, rfl, rfl, rfl, rfl, rfl, rfl, rfl, rfl, rfl, rfl, rfl, rfl, rfl, rfl, rfl, rfl, rfl, rfl, rfl, rfl, rfl⟩

end Sys2Proof.Machine

/-! # Buffers and channels

A buffer access at any index (20_memory.md R61), what a step leaves on the channels (R62), and that only the ack sentinel
takes PHASE to `AckOk` (R73). -/

namespace Sys2Proof.Machine

variable {s t : State} {i : Instr}

/-! ### Buffer accesses -/

/-- A read of all that has just been written, at any index. -/
theorem readBytes_writeBytes_self (m : Memory) (a : Nat) (v : List Byte) :
    readBytes (writeBytes m a v) a v.length = some v := by
  refine readBytes_eq_some.mpr ⟨rfl, fun k hk => ?_⟩
  rw [readByte_writeBytes, if_pos ⟨by omega, by omega⟩, Nat.add_sub_cancel_left]

/-- A write changes no byte outside what it writes. -/
theorem readByte_writeBytes_outside (m : Memory) {a x : Nat} {v : List Byte} (h : x < a ∨ a + v.length ≤ x) :
    readByte (writeBytes m a v) x = readByte m x := by
  rw [readByte_writeBytes, if_neg (by omega)]

/-- One byte with no value leaves the whole read without one. -/
theorem readBytes_eq_none {m : Memory} {a n x : Nat} (ha : a ≤ x) (hx : x < a + n) (h : readByte m x = none) :
    readBytes m a n = none := by
  cases hr : readBytes m a n with
  | none => rfl
  | some v =>
    obtain ⟨hl, hv⟩ := readBytes_eq_some.mp hr
    have hbyte := hv (x - a) (by omega)
    rw [Nat.add_sub_cancel' ha, h] at hbyte
    have hlen := List.getElem?_eq_none_iff.mp hbyte.symm
    omega

/-- Settles O59: the two accesses are `run_memWrite` and `run_memRead`, over the laws of a buffer. -/
theorem bufferAccesses : Obligations.BufferAccesses := by
  intro s b i v
  refine ⟨fun hin => ?_, fun hout => ?_, fun n hout => ?_, fun n x hin hi hx hnone => ?_⟩
  · refine ⟨s.setBuffer b (writeBytes (s.buffer b) i v), ?_, ?_, fun x hx => ?_, fun c hc => ?_, fun hwf => ?_⟩
    · rw [run_memWrite, if_pos hin]
    · rw [run_memRead, State.capacity_setBuffer, if_pos hin, State.buffer_setBuffer_self, readBytes_writeBytes_self]
    · rw [State.buffer_setBuffer_self, readByte_writeBytes_outside _ hx]
    · exact State.buffer_setBuffer_ne s _ hc
    · rw [State.buffer_setBuffer_self]
      exact writeBytes_wf hwf i v
  · rw [run_memWrite, if_neg (by omega)]
  · rw [run_memRead, if_neg (by omega)]
  · rw [run_memRead, if_pos hin, readBytes_eq_none hi hx hnone]

/-! ### What the channels still hold -/

/-- What the answer channels hold at `t` is the end of what they held at `s` (20_memory.md R62). -/
structure State.Consumes (s t : State) : Prop where
  rx : t.rx <:+ s.rx
  clock : t.clock <:+ s.clock
  writeAnswers : t.writeAnswers <:+ s.writeAnswers

theorem State.Consumes.refl (s : State) : s.Consumes s :=
  ⟨List.suffix_rfl, List.suffix_rfl, List.suffix_rfl⟩

theorem State.Consumes.trans {u : State} (h : s.Consumes t) (h' : t.Consumes u) : s.Consumes u :=
  ⟨h'.rx.trans h.rx, h'.clock.trans h.clock, h'.writeAnswers.trans h.writeAnswers⟩

/-- A rule by itself takes nothing off a channel. -/
theorem State.SameOutside.consumes (h : s.SameOutside t) : s.Consumes t := by
  refine ⟨?_, ?_, ?_⟩
  · rw [h.rx]
  · rw [h.clock]
  · rw [h.writeAnswers]

theorem takeRead_suffix {n : Nat} {ts rest : List RxToken} {a : Answer} (h : takeRead n ts = some (a, rest)) :
    rest <:+ ts := by
  induction n generalizing ts a with
  | zero => cases h; exact List.suffix_rfl
  | succ n ih =>
    match ts with
    | [] => cases h
    | .fail :: ts => cases h; exact List.suffix_cons _ _
    | .byte b :: ts =>
      simp only [takeRead] at h
      split at h
      · rename_i hr; cases h; exact (ih hr).trans (List.suffix_cons _ _)
      · rename_i hr; cases h; exact (ih hr).trans (List.suffix_cons _ _)
      · cases h

theorem answerOf_consumes {c : Call} {a : Answer} (h : answerOf c s = some (a, t)) : s.Consumes t := by
  cases c with
  | write f tc =>
    simp only [answerOf] at h
    split at h
    · rename_i hw; cases h; exact ⟨List.suffix_rfl, List.suffix_rfl, hw ▸ List.suffix_cons _ _⟩
    · cases h
  | read n tc =>
    simp only [answerOf] at h
    split at h
    · rename_i hr; cases h; exact ⟨takeRead_suffix hr, List.suffix_rfl, List.suffix_rfl⟩
    · cases h
  | clock =>
    simp only [answerOf] at h
    split at h
    · rename_i hk; cases h; exact ⟨List.suffix_rfl, hk ▸ List.suffix_cons _ _, List.suffix_rfl⟩
    · cases h

theorem dropRead_suffix (n : Nat) (ts : List RxToken) : (dropRead n ts).2 <:+ ts := by
  induction ts generalizing n with
  | nil => cases n <;> exact List.suffix_rfl
  | cons t ts ih =>
    cases n with
    | zero => exact List.suffix_rfl
    | succ n =>
      cases t with
      | fail => exact List.suffix_cons _ _
      | byte b => exact (ih n).trans (List.suffix_cons _ _)

theorem dropReads_suffix (ns : List Nat) (ts : List RxToken) : (dropReads ns ts).2 <:+ ts := by
  induction ns generalizing ts with
  | nil => exact List.suffix_rfl
  | cons n ns ih =>
    have hread := dropRead_suffix n ts
    rw [dropReads]
    split
    · rename_i rest hd; rw [hd] at hread; exact (ih rest).trans hread
    · rename_i hd; rw [hd] at hread; exact hread

theorem State.dropOwed_consumes (s : State) : s.Consumes s.dropOwed :=
  ⟨dropReads_suffix _ _, List.drop_suffix _ _, List.drop_suffix _ _⟩

/-- Abandoning the outstanding call takes nothing off a channel; the two discards around it do. -/
theorem State.dropAnswer_consumes (s : State) : s.Consumes s.dropAnswer := by
  have habandon : s.dropOwed.Consumes s.dropOwed.abandonCall := by
    refine ⟨?_, ?_, ?_⟩
    · rw [State.abandonCall_rx]
    · rw [State.abandonCall_clock]
    · rw [State.abandonCall_writeAnswers]
  obtain ⟨hrx, hclock, hwrites⟩ := (s.dropOwed_consumes.trans habandon).trans s.dropOwed.abandonCall.dropOwed_consumes
  exact ⟨hrx, hclock, hwrites⟩

theorem State.applyReset_consumes (s : State) : s.Consumes s.applyReset := by
  obtain ⟨hrx, hclock, hwrites⟩ := s.dropAnswer_consumes
  rw [State.applyReset_eq]
  exact ⟨hrx, hclock, hwrites⟩

theorem State.accept_consumes (s : State) (i : Instr) (opc : Byte) : s.Consumes (s.accept i opc) :=
  ⟨List.suffix_rfl, List.suffix_rfl, List.suffix_rfl⟩

theorem State.abandonRequest_consumes (s : State) (i : Instr) (opc : Byte) : s.Consumes (s.abandonRequest i opc) := by
  obtain ⟨hrx, hclock, hwrites⟩ := (s.accept_consumes i opc).trans (s.accept i opc).applyReset_consumes
  exact ⟨hrx, hclock, hwrites⟩

theorem State.taking_consumes (s : State) (rest : List (List Byte)) : s.Consumes (s.taking rest) := by
  obtain ⟨hrx, hclock, hwrites⟩ := s.dropOwed_consumes
  exact ⟨hrx, hclock, hwrites⟩

theorem turn_consumes (h : s.Inv) (ht : turn s = some (.next t)) : s.Consumes t := by
  obtain ⟨i, c, k, a, u, v, -, -, -, ha, heq, hturned⟩ := turn_turned h ht
  cases heq
  obtain ⟨hrx, hclock, hwrites⟩ := answerOf_consumes ha
  have hanswered : s.Consumes (u.answered c a) := ⟨hrx, hclock, hwrites⟩
  exact hanswered.trans hturned.outside.consumes

theorem advance_consumes (h : s.Inv) (ht : advance s = .next t) : s.Consumes t := by
  obtain ⟨hruns, -⟩ := advance_runs h ht
  refine (hruns.keeps (P := fun u => s.Consumes u ∧ u.Inv) ?_ ⟨.refl s, h⟩).1
  rintro u v ⟨hcons, hu⟩ hv
  obtain ⟨_, heq, hinv, -⟩ := turn_inv hu hv
  cases heq
  exact ⟨hcons.trans (turn_consumes hu hv), hinv⟩

theorem Stepped.consumes (h : s.Inv) (ht : Stepped s t) : s.Consumes t := by
  cases ht with
  | reset => exact s.applyReset_consumes
  | goesOn _ _ hadv => exact s.dropOwed_consumes.trans (advance_consumes h.dropOwed hadv)
  | @abandoned i opc rest => exact (s.taking_consumes rest).trans ((s.taking rest).abandonRequest_consumes i opc)
  | @accepted i opc rest v _ _ _ _ _ hv hvinv hadv =>
    have haccepted : s.Consumes ((s.taking rest).accept i opc) :=
      (s.taking_consumes rest).trans ((s.taking rest).accept_consumes i opc)
    exact (haccepted.trans hv.outside.consumes).trans (advance_consumes hvinv hadv)

/-- Settles O51: whatever a step does (`Stepped`), it takes answers only off the front of a channel. -/
theorem channelsOnlyShrink : Obligations.ChannelsOnlyShrink := by
  intro s t h ht
  obtain ⟨hrx, hclock, hwrites⟩ := (stepped_of_next h ht).consumes h
  exact ⟨hrx, hclock, hwrites⟩

/-! ### What takes PHASE to `AckOk`

Every rule piece but the one that accepts an ack leaves the count of moves to `AckOk` as it was, from any state and however
it ends (`Rule.Quiet`). -/

/-- How often PHASE has moved to `AckOk`. -/
def State.ackOks (s : State) : Nat := s.events.count (.phase .ackOk)

theorem State.ackOks_eq_of_events (h : t.events = s.events) : t.ackOks = s.ackOks := by
  rw [State.ackOks, h, State.ackOks]

theorem State.ackOks_append {new : List Event} (h : t.events = s.events ++ new) :
    t.ackOks = s.ackOks + new.count (.phase .ackOk) := by
  rw [State.ackOks, h, List.count_append, State.ackOks]

theorem State.ackOks_setPhase {p : Phase} (s : State) (h : p ≠ .ackOk) : (s.setPhase p).ackOks = s.ackOks := by
  rw [State.ackOks_append (s.setPhase_events p)]
  simp [h]

theorem State.ackOks_succeed (s : State) (st : Byte) (d : List Byte) : (s.succeed st d).ackOks = s.ackOks := by
  simp [State.succeed_eq, State.ackOks]

theorem State.ackOks_fail (s : State) (e : Failure) : (s.fail e).ackOks = s.ackOks := by
  simp [State.fail_eq, State.ackOks]

section Quiet

variable {α β : Type}

/-- The state in which a rule piece ends, well or not. -/
def Rule.leaves (x : Rule α) (s : State) : State :=
  match x.run s with
  | .ok _ t => t
  | .error _ t => t

theorem Rule.leaves_ok {x : Rule α} {a : α} (h : x.run s = .ok a t) : x.leaves s = t := by rw [Rule.leaves, h]

theorem Rule.leaves_error {x : Rule α} {e : Stop} (h : x.run s = .error e t) : x.leaves s = t := by
  rw [Rule.leaves, h]

/-- However `x` ends, PHASE has not moved to `AckOk`. -/
def Rule.Quiet (x : Rule α) : Prop := ∀ s, (x.leaves s).ackOks = s.ackOks

theorem Rule.Quiet.bind {x : Rule α} {f : α → Rule β} (hx : x.Quiet) (hf : ∀ a, (f a).Quiet) : (x >>= f).Quiet := by
  intro s
  cases hrun : x.run s with
  | ok a t =>
    have hleaves : (x >>= f).leaves s = (f a).leaves t := by
      rw [Rule.leaves, Rule.run_bind_ok hrun, Rule.leaves]
    calc ((x >>= f).leaves s).ackOks = t.ackOks := by rw [hleaves, hf a t]
      _ = s.ackOks := by rw [← Rule.leaves_ok hrun, hx s]
  | error e t =>
    calc ((x >>= f).leaves s).ackOks = (x.leaves s).ackOks := by
          rw [Rule.leaves_error (Rule.run_bind_error hrun f), Rule.leaves_error hrun]
      _ = s.ackOks := hx s

theorem quiet_pure (a : α) : (pure a : Rule α).Quiet := fun _ => rfl

theorem quiet_get : (get : Rule State).Quiet := fun _ => rfl

theorem quiet_modify {f : State → State} (h : ∀ s, (f s).ackOks = s.ackOks := by exact fun _ => rfl) :
    (modify f : Rule PUnit).Quiet := h

theorem quiet_raise (e : Failure) : (raise e : Rule α).Quiet := fun _ => rfl

theorem quiet_bug (f : Fault) : (bug f : Rule α).Quiet := fun _ => rfl

theorem quiet_ite (p : Prop) [Decidable p] {x y : Rule α} (hx : x.Quiet) (hy : y.Quiet) :
    (if p then x else y).Quiet := by
  split
  · exact hx
  · exact hy

theorem quiet_check (p : Prop) [Decidable p] (e : Failure) : (check p e).Quiet :=
  quiet_ite p (quiet_pure ()) (quiet_raise e)

theorem quiet_valueOf : ∀ x : Option α, (valueOf x).Quiet
  | some a => quiet_pure a
  | none => quiet_bug .noValue

end Quiet

/-! ### The quiet actions and calls -/

theorem quiet_byteAt (p : List Byte) (k : Nat) : (byteAt p k).Quiet := by
  unfold byteAt
  split
  · exact quiet_pure _
  · exact quiet_bug _

theorem quiet_memRead (b : Buffer) (k n : Nat) : (memRead b k n).Quiet := by
  refine .bind quiet_get fun s => quiet_ite _ ?_ (quiet_bug _)
  split
  · exact quiet_pure _
  · exact quiet_bug _

theorem quiet_memWrite (b : Buffer) (k : Nat) (v : List Byte) : (memWrite b k v).Quiet := by
  intro s
  rw [Rule.leaves, run_memWrite]
  split_ifs
  · exact State.ackOks_eq_of_events (State.setBuffer_events s b _)
  · rfl

theorem quiet_memReadByte (b : Buffer) (k : Nat) : (memReadByte b k).Quiet :=
  .bind (quiet_memRead b k 1) fun _ => quiet_byteAt _ _

theorem quiet_setPhase {p : Phase} (h : p ≠ .ackOk := by decide) : (setPhase p).Quiet := fun s => s.ackOks_setPhase h

theorem quiet_reply (st : Byte) (d : List Byte) : (reply st d).Quiet := fun s => s.ackOks_succeed st d

theorem quiet_transportWrite (f : List Byte) (k : Resume) : (transportWrite f k).Quiet := fun _ => rfl

theorem quiet_transportRead (n : Nat) (k : Resume) : (transportRead n k).Quiet := fun _ => rfl

theorem quiet_clockNow (k : Resume) : (clockNow k).Quiet := fun _ => rfl

/-! ### The quiet procedures -/

theorem quiet_encodeInto (cmd : Byte) (p : List Byte) : (encodeInto cmd p).Quiet :=
  .bind quiet_get fun _ => .bind (quiet_check _ _) fun _ => .bind (quiet_memWrite _ _ _) fun _ => quiet_modify

theorem quiet_encodedFrame : encodedFrame.Quiet :=
  .bind quiet_get fun _ => .bind (quiet_valueOf _) fun _ => quiet_memRead _ _ _

theorem quiet_exchange (cmd : Byte) (p : List Byte) : (exchange cmd p).Quiet :=
  .bind quiet_modify fun _ => .bind (quiet_encodeInto cmd p) fun _ =>
    .bind quiet_setPhase fun _ => .bind quiet_encodedFrame fun _ => quiet_transportWrite _ _

theorem quiet_samExchange : samExchange.Quiet := .bind quiet_get fun _ => quiet_exchange _ _

theorem quiet_pollStart (tmo : Millis) : (pollStart tmo).Quiet :=
  .bind quiet_modify fun _ => quiet_clockNow _

theorem quiet_pollSample : pollSample.Quiet := quiet_transportRead _ _

theorem quiet_pollStarted (n : Nat) : (pollStarted n).Quiet :=
  .bind quiet_modify fun _ => quiet_pollSample

theorem quiet_pollTimed (n : Nat) : (pollTimed n).Quiet :=
  .bind quiet_get fun _ => .bind (quiet_valueOf _) fun _ => .bind quiet_get fun _ => .bind (quiet_valueOf _) fun _ =>
    .bind quiet_get fun _ => .bind (quiet_valueOf _) fun _ => .bind (quiet_check _ _) fun _ => quiet_pollSample

theorem quiet_afterPoll : afterPoll.Quiet := by
  refine .bind quiet_get fun s => ?_
  split
  · exact quiet_reply _ _
  · exact quiet_transportRead _ _
  · exact quiet_transportRead _ _
  · exact quiet_bug _

theorem quiet_pollSampled : ∀ a : Answer, (pollSampled afterPoll a).Quiet
  | .readFailed => quiet_raise _
  | .bytes _ => .bind (quiet_byteAt _ _) fun _ => .bind quiet_modify fun _ =>
      quiet_ite _ quiet_afterPoll (quiet_clockNow _)
  | .written _ => quiet_bug _
  | .time _ => quiet_bug _

theorem quiet_frameWritten : ∀ a : Answer, (frameWritten a).Quiet
  | .written false => quiet_raise _
  | .written true => .bind quiet_setPhase fun _ => .bind quiet_setPhase fun _ => quiet_pollStart _
  | .bytes _ => quiet_bug _
  | .readFailed => quiet_bug _
  | .time _ => quiet_bug _

theorem quiet_validateHeader (h : List Byte) : (validateHeader h).Quiet := by
  unfold validateHeader
  split
  · exact .bind (quiet_check _ _) fun _ => .bind (quiet_check _ _) fun _ => .bind quiet_get fun _ =>
      .bind (quiet_check _ _) fun _ => quiet_pure _
  · exact quiet_bug _

theorem quiet_headerArrived : ∀ a : Answer, (headerArrived a).Quiet
  | .readFailed => quiet_raise _
  | .bytes _ => .bind (quiet_memWrite _ _ _) fun _ => .bind (quiet_memRead _ _ _) fun _ =>
      .bind (quiet_validateHeader _) fun _ => quiet_transportRead _ _
  | .written _ => quiet_bug _
  | .time _ => quiet_bug _

theorem quiet_storeBody (len : Byte) (b : List Byte) : (storeBody len b).Quiet :=
  .bind (quiet_memWrite _ _ _) fun _ => quiet_modify

theorem quiet_validateBody (len tfi : Byte) : (validateBody len tfi).Quiet :=
  .bind (quiet_memReadByte _ _) fun _ => .bind (quiet_check _ _) fun _ => .bind (quiet_check _ _) fun _ =>
    .bind (quiet_memReadByte _ _) fun _ => .bind (quiet_check _ _) fun _ => .bind (quiet_memRead _ _ _) fun _ =>
      .bind (quiet_memReadByte _ _) fun _ => .bind (quiet_check _ _) fun _ => quiet_modify

theorem quiet_bodyArrived (len : Byte) : ∀ a : Answer, (bodyArrived len a).Quiet
  | .readFailed => quiet_raise _
  | .bytes _ => .bind (quiet_storeBody _ _) fun _ => quiet_validateBody _ _
  | .written _ => quiet_bug _
  | .time _ => quiet_bug _

theorem quiet_validatedPayload : validatedPayload.Quiet :=
  .bind quiet_get fun _ => .bind (quiet_valueOf _) fun _ => quiet_memRead _ _ _

theorem quiet_parseTarget (p : List Byte) (cap : Nat) : (parseTarget p cap).Quiet :=
  .bind (quiet_check _ _) fun _ => .bind (quiet_byteAt _ _) fun _ => quiet_ite _ (quiet_pure _) <|
    .bind (quiet_check _ _) fun _ => .bind (quiet_check _ _) fun _ => .bind (quiet_byteAt _ _) fun _ =>
      .bind (quiet_check _ _) fun _ => .bind (quiet_check _ _) fun _ => .bind (quiet_check _ _) fun _ =>
        .bind (quiet_memWrite _ _ _) fun _ => .bind quiet_modify fun _ => quiet_pure _

theorem quiet_replyTarget (found : Bool) : (replyTarget found).Quiet :=
  quiet_ite _ (.bind quiet_get fun _ => .bind (quiet_valueOf _) fun _ => .bind (quiet_memRead _ _ _) fun _ =>
    quiet_reply _ _) (quiet_reply _ _)

/-! ### The quiet ends of the dispatcher commands -/

theorem quiet_gfvCriterion : gfvCriterion.Quiet :=
  .bind quiet_get fun _ => .bind (quiet_valueOf _) fun _ => .bind (quiet_check _ _) fun _ => quiet_setPhase

theorem quiet_gfvFinish : gfvFinish.Quiet :=
  .bind quiet_gfvCriterion fun _ => .bind (quiet_memRead _ _ _) fun _ => quiet_reply _ _

theorem quiet_samFinish : samFinish.Quiet := .bind quiet_setPhase fun _ => quiet_reply _ _

theorem quiet_targetFinish : targetFinish.Quiet :=
  .bind quiet_validatedPayload fun _ => .bind quiet_get fun _ => .bind (quiet_parseTarget _ _) fun _ =>
    .bind quiet_setPhase fun _ => quiet_replyTarget _

theorem quiet_beginFinish (cmd : Byte) : (beginFinish cmd).Quiet :=
  quiet_ite _ (.bind quiet_gfvCriterion fun _ => .bind quiet_setPhase fun _ =>
    .bind quiet_modify fun _ => quiet_samExchange) quiet_samFinish

theorem quiet_criterion (cmd : Byte) (o : Option Instr) : (criterion cmd o).Quiet := by
  unfold criterion
  split
  · exact quiet_beginFinish cmd
  · exact quiet_gfvFinish
  · exact quiet_samFinish
  · exact quiet_targetFinish
  · exact quiet_bug _

theorem quiet_responseAccepted : responseAccepted.Quiet :=
  .bind (quiet_memReadByte _ _) fun _ => .bind quiet_get fun _ => .bind (quiet_valueOf _) fun _ =>
    .bind (quiet_check _ _) fun _ => .bind quiet_get fun _ => quiet_criterion _ _

theorem quiet_afterResponse : afterResponse.Quiet := by
  refine .bind quiet_get fun s => ?_
  split
  · exact .bind quiet_validatedPayload fun _ => quiet_reply _ _
  · exact quiet_responseAccepted
  · exact quiet_bug _

/-! ### One event -/

/-- A rule that goes on anywhere but at an ack read does not move PHASE to `AckOk`. -/
theorem quiet_resume {k : Resume} (h : k ≠ .ackArrived) (a : Answer) : (resume k a).Quiet := by
  cases k with
  | frameWritten => exact quiet_frameWritten a
  | pollStarted => cases a with
    | time n => exact quiet_pollStarted n
    | written ok => exact quiet_bug _
    | bytes b => exact quiet_bug _
    | readFailed => exact quiet_bug _
  | sampled => exact quiet_pollSampled a
  | timed => cases a with
    | time n => exact quiet_pollTimed n
    | written ok => exact quiet_bug _
    | bytes b => exact quiet_bug _
    | readFailed => exact quiet_bug _
  | ackArrived => exact absurd rfl h
  | headerArrived => exact quiet_headerArrived a
  | bodyArrived len => exact .bind (quiet_bodyArrived len a) fun _ => quiet_afterResponse

theorem ackOks_of_quiet {r : Rule Unit} (hr : r.Quiet) (h : runRule r s = .next t) : t.ackOks = s.ackOks := by
  unfold runRule at h
  split at h
  · rename_i hrun; cases h; exact Rule.leaves_ok hrun ▸ hr s
  · rename_i e u hrun; cases h; exact (u.ackOks_fail e).trans (Rule.leaves_error hrun ▸ hr s)
  · cases h

/-- Seven bytes at an ack read move PHASE to `AckOk` only in Exchange, and only with the sentinel after the status byte. -/
theorem ackOks_of_ackArrived {b : List Byte} (hl : b.length = 7) (hp : s.InAck i)
    (hno : s.phase = .ackPending → b.drop 1 ≠ ackSeq) (h : runRule (resume .ackArrived (.bytes b)) s = .next t) :
    t.ackOks = s.ackOks := by
  have hwp : (resume .ackArrived (.bytes b)).wp s (fun _ u => u.ackOks = s.ackOks)
      (fun e u => (u.fail e).ackOks = s.ackOks) := by
    simp only [resume, wp_bind, wp_ackArrived hl]
    refine ⟨fun hseq => ?_, fun _ => State.ackOks_fail _ _⟩
    simp only [State.InAck] at hp
    split at hp
    · rename_i hph
      rw [wp_afterAck, show ackNext _ = ackNext .idle from congrArg ackNext hph]
      exact State.ackOks_succeed _ _ _
    · rename_i hph
      exact absurd hseq (hno hph)
    · exact hp.elim
  obtain ⟨u, hrun, hu⟩ := runRule_of_wp hwp
  cases h.symm.trans hrun
  exact hu

section Answered

variable {c : Call} {k : Resume} {a : Answer} {u : State}

theorem answered_phase (ha : answerOf c s = some (a, u)) : (u.answered c a).phase = s.phase := by
  obtain ⟨-, ⟨w, r, cl, rfl⟩, -⟩ := answerOf_some ha
  rfl

theorem answered_inAck (ha : answerOf c s = some (a, u)) : (u.answered c a).InAck i ↔ s.InAck i := by
  obtain ⟨-, ⟨w, r, cl, rfl⟩, -⟩ := answerOf_some ha
  exact Iff.rfl

theorem answered_events (ha : answerOf c s = some (a, u)) : (u.answered c a).events = s.events ++ [.call c a] := by
  obtain ⟨-, ⟨w, r, cl, rfl⟩, -⟩ := answerOf_some ha
  rfl

theorem answered_ackOks (ha : answerOf c s = some (a, u)) : (u.answered c a).ackOks = s.ackOks := by
  rw [State.ackOks_append (answered_events ha)]
  rfl

/-- An event that moves PHASE to `AckOk` answers the ack read of Exchange, with the sentinel after the status byte. -/
theorem ackOk_needs_sentinel (hat : s.AtPoint i c k) (ha : answerOf c s = some (a, u))
    (hrun : runRule (resume k a) (u.answered c a) = .next t) (hmoved : t.ackOks ≠ s.ackOks) :
    s.phase = .ackPending ∧ c = .read 7 s.cfg.tCall ∧ ∃ st, a = .bytes (ackRead st) := by
  rw [← answered_ackOks ha] at hmoved
  by_cases hk : k = .ackArrived
  · subst hk
    obtain ⟨rfl, hin⟩ := hat
    obtain ⟨hfits, -⟩ := answerOf_some ha
    cases a with
    | readFailed => exact absurd (ackOks_of_quiet (quiet_raise .readFailed) hrun) hmoved
    | bytes b =>
      obtain ⟨hph, hseq⟩ : s.phase = .ackPending ∧ b.drop 1 = ackSeq := by
        by_contra hno
        refine hmoved (ackOks_of_ackArrived hfits ((answered_inAck ha).mpr hin) (fun hph hseq => ?_) hrun)
        exact hno ⟨(answered_phase ha).symm.trans hph, hseq⟩
      cases b with
      | nil => cases hfits
      | cons st b => exact ⟨hph, rfl, st, by rw [ackRead, ← hseq]; rfl⟩
    | written ok => exact hfits.elim
    | time n => exact hfits.elim
  · exact absurd (ackOks_of_quiet (quiet_resume hk a) hrun) hmoved

end Answered

/-- An event is the answer to the call of a point of the operation's rule; the call is the first thing it adds to the events,
and the rule goes on. -/
theorem turn_call (h : s.Inv) (ht : turn s = some (.next t)) :
    ∃ i c k a u rest, s.AtPoint i c k ∧ answerOf c s = some (a, u) ∧
      runRule (resume k a) (u.answered c a) = .next t ∧ t.events = s.events ++ .call c a :: rest := by
  obtain ⟨j, c, k, a, u, v, -, -, hout, ha, heq, hturned⟩ := turn_turned h ht
  cases heq
  obtain ⟨⟨i, c', k', -, hout', -, hat⟩, -⟩ := h.waiting (h.busy_of_outstanding hout)
  cases hout.symm.trans hout'
  obtain ⟨rest, hev, -⟩ := hturned.events
  have hrun : runRule (resume k a) (u.answered c a) = .next t := by
    simp only [turn, hout, ha] at ht
    exact Option.some.inj ht
  exact ⟨i, c, k, a, u, rest, hat, ha, hrun, by rw [hev, answered_events ha, List.append_assoc]; rfl⟩

/-- Settles O52: an event that moves PHASE to `AckOk` changes the count of such moves (`ackOk_needs_sentinel`). -/
theorem ackOkOnlyAfterSentinel : Obligations.AckOkOnlyAfterSentinel := by
  intro s t new h ht hnew hmem
  obtain ⟨i, c, k, a, u, rest, hat, ha, hrun, hev⟩ := turn_call h ht
  have hmoved : t.ackOks ≠ s.ackOks := by
    have hpos := List.count_pos_iff.mpr hmem
    rw [State.ackOks_append hnew]
    omega
  obtain ⟨hph, rfl, st, rfl⟩ := ackOk_needs_sentinel hat ha hrun hmoved
  obtain rfl := List.append_cancel_left (hnew.symm.trans hev)
  exact ⟨hph, st, List.mem_cons_self⟩

end Sys2Proof.Machine

/-! # Encodings

Decoding and encoding are inverse on every channel, no reserved descriptor is read (30_encoding.md R109), and a descriptor
that spells no request is all that a step refuses. -/

namespace Sys2Proof.Machine

variable {s : State} {i : Instr}

/-! ### The bytes of a descriptor's fields -/

theorem be16_ofBe16 (hi lo : Byte) : be16 (ofBe16 hi lo) = [hi, lo] := by
  have hhi : BitVec.ofNat 8 (ofBe16 hi lo / 256) = hi := BitVec.eq_of_toNat_eq (by
    simp only [ofBe16, BitVec.toNat_ofNat]; omega)
  have hlo : BitVec.ofNat 8 (ofBe16 hi lo) = lo := BitVec.eq_of_toNat_eq (by
    simp only [ofBe16, BitVec.toNat_ofNat]; omega)
  rw [be16, hhi, hlo]

theorem ofBe16_lt (hi lo : Byte) : ofBe16 hi lo < 65536 := by
  simp only [ofBe16]
  omega

theorem be32_ofBe32 (a b c d : Byte) : be32 (ofBe32 a b c d) = [a, b, c, d] := by
  have drop8 : ∀ {w : Nat} (n : Nat) (x : BitVec w) (y : Byte),
      (x ++ y).extractLsb' (n + 8) 8 = x.extractLsb' n 8 := fun n _ _ =>
    BitVec.extractLsb'_append_eq_of_le (Nat.le_add_left 8 n)
  have ha : (ofBe32 a b c d).extractLsb' 24 8 = a :=
    (drop8 16 (a ++ b ++ c) d).trans ((drop8 8 (a ++ b) c).trans BitVec.extractLsb'_append_eq_left)
  have hb : (ofBe32 a b c d).extractLsb' 16 8 = b :=
    (drop8 8 (a ++ b ++ c) d).trans ((drop8 0 (a ++ b) c).trans BitVec.extractLsb'_append_eq_right)
  have hc : (ofBe32 a b c d).extractLsb' 8 8 = c := (drop8 0 (a ++ b ++ c) d).trans BitVec.extractLsb'_append_eq_right
  have hd : (ofBe32 a b c d).extractLsb' 0 8 = d := BitVec.extractLsb'_append_eq_right
  rw [be32, ha, hb, hc, hd]

/-- A sequence field is read from its count and then its bytes, and the count has 16 bits. -/
theorem sequenceField_bytes {mk : List Byte → Instr} {fs : List Byte} (h : sequenceField mk fs = .ok i) :
    ∃ s, i = mk s ∧ s.length < 65536 ∧ fs = be16 s.length ++ s := by
  unfold sequenceField at h
  split at h
  · rename_i hi lo s
    split at h <;> cases h
    rename_i hlen
    exact ⟨s, rfl, hlen ▸ ofBe16_lt hi lo, by rw [hlen, be16_ofBe16]; rfl⟩
  · cases h

theorem byteSequenceField_bytes {mk : Byte → List Byte → Instr} {fs : List Byte}
    (h : byteSequenceField mk fs = .ok i) : ∃ b s, i = mk b s ∧ s.length < 65536 ∧ fs = b :: be16 s.length ++ s := by
  unfold byteSequenceField at h
  split at h
  · rename_i b _
    obtain ⟨s, rfl, hs, rfl⟩ := sequenceField_bytes h
    exact ⟨b, s, rfl, hs, rfl⟩
  · cases h

theorem timeoutField_bytes {mk : Millis → Instr} {fs : List Byte} (h : timeoutField mk fs = .ok i) :
    ∃ t, i = mk t ∧ fs = be32 t := by
  unfold timeoutField at h
  split at h <;> cases h
  exact ⟨_, rfl, (be32_ofBe32 _ _ _ _).symm⟩

theorem noField_bytes {j : Instr} {fs : List Byte} (h : noField j fs = .ok i) : i = j ∧ fs = [] := by
  unfold noField at h
  split at h <;> cases h
  exact ⟨rfl, rfl⟩

/-! ### What is decoded encodes to the bytes read -/

theorem decodeRequest_ok {d : List Byte} (h : decodeRequest d = .ok i) : i.WellFormed = true ∧ encode i = d := by
  unfold decodeRequest at h
  split at h
  · cases h
  · rename_i opc fs
    have key : ∀ c : Byte, opc.toNat = c.toNat → opc = c := fun c => BitVec.eq_of_toNat_eq
    split at h
    next hop =>
      obtain ⟨s, rfl, hs, rfl⟩ := sequenceField_bytes h
      exact ⟨decide_eq_true hs, key 0x01 hop ▸ rfl⟩
    next hop =>
      obtain ⟨b, s, rfl, hs, rfl⟩ := byteSequenceField_bytes h
      exact ⟨decide_eq_true hs, key 0x02 hop ▸ rfl⟩
    next hop =>
      obtain ⟨b, s, rfl, hs, rfl⟩ := byteSequenceField_bytes h
      exact ⟨decide_eq_true hs, key 0x03 hop ▸ rfl⟩
    next hop =>
      obtain ⟨b, s, rfl, hs, rfl⟩ := byteSequenceField_bytes h
      exact ⟨decide_eq_true hs, key 0x04 hop ▸ rfl⟩
    next hop =>
      obtain ⟨t, rfl, rfl⟩ := timeoutField_bytes h
      exact ⟨rfl, key 0x05 hop ▸ rfl⟩
    next hop =>
      obtain ⟨rfl, rfl⟩ := noField_bytes h
      exact ⟨rfl, key 0x06 hop ▸ rfl⟩
    next hop =>
      obtain ⟨rfl, rfl⟩ := noField_bytes h
      exact ⟨rfl, key 0x07 hop ▸ rfl⟩
    next hop =>
      obtain ⟨b, s, rfl, hs, rfl⟩ := byteSequenceField_bytes h
      exact ⟨decide_eq_true hs, key 0x08 hop ▸ rfl⟩
    next hop =>
      obtain ⟨rfl, rfl⟩ := noField_bytes h
      exact ⟨rfl, key 0x10 hop ▸ rfl⟩
    next hop =>
      obtain ⟨rfl, rfl⟩ := noField_bytes h
      exact ⟨rfl, key 0x11 hop ▸ rfl⟩
    next hop =>
      obtain ⟨rfl, rfl⟩ := noField_bytes h
      exact ⟨rfl, key 0x12 hop ▸ rfl⟩
    next hop =>
      obtain ⟨t, rfl, rfl⟩ := timeoutField_bytes h
      exact ⟨rfl, key 0x13 hop ▸ rfl⟩
    next => cases h

/-- The decoder bounds the data of a response by what a LEN byte can count (30_encoding.md R92). -/
theorem decodeResponse_data_le {r : List Byte} (h : decodeResponse r = .ok i) :
    ((r.drop 8).take (r.length - 10)).length ≤ 253 := by
  simp only [decodeResponse] at h
  split at h
  · rename_i hr
    exact hr.1
  · cases h

theorem decodeResponse_wellFormed {r : List Byte} (h : decodeResponse r = .ok i) : i.WellFormed = true := by
  obtain ⟨hc, rfl⟩ := decodeResponse_ok h
  have hd := decodeResponse_data_le h
  exact match i, hc, hd with
  | .wireRspGetFirmwareVersion .., _, _ => rfl
  | .wireRspSamConfiguration st d, _, hd => decide_eq_true (responseRead_data st (cmdSam + 1) d ▸ hd)
  | .wireRspInListPassiveTarget st d, _, hd => decide_eq_true (responseRead_data st (cmdInlpt + 1) d ▸ hd)

/-- The items of the other wire channels have no operand of variable length. -/
theorem wellFormed_of_channel (h : i.channel = .command ∨ i.channel = .sample ∨ i.channel = .ack) :
    i.WellFormed = true :=
  match i, h with
  | .wireCmdGetFirmwareVersion, _ => rfl
  | .wireCmdSamConfiguration .., _ => rfl
  | .wireCmdInListPassiveTarget, _ => rfl
  | .wireAck _, _ => rfl
  | .wireStatusReady, _ => rfl

/-- What the decoder reads is well formed, stands on its channel and has the bytes that were read. -/
theorem encode_decode {ch : Channel} {bs : List Byte} (h : decode ch bs = .ok i) :
    i.WellFormed = true ∧ i.channel = ch ∧ encode i = bs := by
  cases ch with
  | request =>
    obtain ⟨hi, hb⟩ := decodeRequest_ok h
    exact ⟨hi, decodeRequest_channel h, hb⟩
  | command =>
    obtain ⟨hc, hb⟩ := decodeCommand_ok h
    exact ⟨wellFormed_of_channel (.inl hc), hc, hb⟩
  | sample =>
    obtain ⟨hc, hb⟩ := decodeSample_ok h
    exact ⟨wellFormed_of_channel (.inr (.inl hc)), hc, hb⟩
  | ack =>
    obtain ⟨hc, hb⟩ := decodeAck_ok h
    exact ⟨wellFormed_of_channel (.inr (.inr hc)), hc, hb⟩
  | response => exact ⟨decodeResponse_wellFormed h, decodeResponse_ok h⟩

/-- The decoder rejects exactly the bytes that encode no well-formed item of the channel. -/
theorem decode_error_iff (ch : Channel) (bs : List Byte) :
    (∃ e, decode ch bs = .error e) ↔ ∀ i : Instr, i.WellFormed = true → i.channel = ch → encode i ≠ bs := by
  constructor
  · rintro ⟨e, he⟩ i hi rfl rfl
    cases he.symm.trans (decode_encode hi)
  · intro hno
    cases hdec : decode ch bs with
    | error e => exact ⟨e, rfl⟩
    | ok i =>
      obtain ⟨hi, hc, hb⟩ := encode_decode hdec
      exact absurd hb (hno i hi hc)

/-! ### Reserved descriptors -/

/-- A descriptor of a reserved OPC is rejected for its OPC, whatever follows it (30_encoding.md R109). -/
theorem decodeRequest_of_reserved {opc : Byte} (h : opc = 0x00 ∨ (0x09 ≤ opc ∧ opc ≤ 0x0F) ∨ 0x14 ≤ opc)
    (fs : List Byte) : decodeRequest (opc :: fs) = .error (.unassignedOpcode opc) := by
  have hn : opc.toNat = 0x00 ∨ (0x09 ≤ opc.toNat ∧ opc.toNat ≤ 0x0F) ∨ 0x14 ≤ opc.toNat := by
    simpa [BitVec.le_def, BitVec.toNat_eq] using h
  simp only [decodeRequest]
  split
  case h_13 => rfl
  all_goals omega

/-- A request's descriptor has the length that its fields imply (30_encoding.md R106). -/
theorem encode_length (hi : i.WellFormed = true) (hc : i.channel = .request) :
    (encode i).length = descriptorLength (encode i) := by
  have key : ∀ (k : Nat) (s : List Byte), decide (s.length < 65536) = true →
      s.length + k = k + ofBe16 (BitVec.ofNat 8 (s.length / 256)) (BitVec.ofNat 8 s.length) := fun k s hs => by
    rw [ofBe16_be16 (of_decide_eq_true hs), Nat.add_comm]
  exact match i, hi, hc with
  | .checksum s, hi, _ => key 3 s hi
  | .verifyChecksum _ s, hi, _ => key 4 s hi
  | .encodeFrame _ p, hi, _ => key 4 p hi
  | .decodeFrame _ f, hi, _ => key 4 f hi
  | .parseTarget _ p, hi, _ => key 4 p hi
  | .pollReady _, _, _ => rfl
  | .readAck, _, _ => rfl
  | .readResponse, _, _ => rfl
  | .beginOp, _, _ => rfl
  | .getFirmwareVersion, _, _ => rfl
  | .configureSam, _, _ => rfl
  | .readPassiveTargetA _, _, _ => rfl

/-! ### What a step refuses -/

theorem fetchRequest_malformed_iff (s : State) (why : DecodeError) :
    fetchRequest s = .malformed why ↔ ∃ d rest, s.offered = d :: rest ∧ decode .request d = .error why := by
  unfold fetchRequest
  constructor
  · intro h
    split at h
    · cases h
    · rename_i d rest hoff
      split at h <;> cases h
      rename_i hdec
      exact ⟨d, rest, hoff, hdec⟩
  · rintro ⟨d, rest, hoff, hdec⟩
    simp only [hoff, hdec]

/-- With BUSY 0 and no reset, a descriptor that spells nothing is refused with the decoder's reason. -/
theorem step_of_malformed {d : List Byte} {rest : List (List Byte)} {why : DecodeError} (hr : s.resetLine = false)
    (hb : s.busy = false) (hoff : s.offered = d :: rest) (hdec : decode .request d = .error why) :
    step s = .refused (.badDescriptor why) := by
  have hf : fetch s.dropOwed = .malformed why := by
    simpa [fetch, hb] using (fetchRequest_malformed_iff s.dropOwed why).mpr ⟨d, rest, hoff, hdec⟩
  simp [step, hr, hf]

/-- No run of an operation is refused. -/
theorem advance_ne_refused (h : s.Inv) (r : Refusal) : advance s ≠ .refused r := by
  obtain ⟨t, ht, -⟩ := settle_runs h le_rfl
  exact fun hr => nomatch ht.symm.trans hr

/-- No request that a block with BUSY 0 takes is refused: it is abandoned on its acceptance, or its operation runs. -/
theorem runItem_ne_refused (h : s.Inv) (hb : s.busy = false) (hi : i.channel = .request) (r : Refusal) :
    runItem i s ≠ .refused r := by
  obtain ⟨opc, v, hopc, -, hv, hexec⟩ := exec_accepts h hb hi
  cases ha : s.resetOnAccept with
  | true =>
    rw [runItem_of_reset ha hb hopc]
    exact nofun
  | false =>
    rw [runItem_of_no_reset ha, hexec]
    exact advance_ne_refused hv r

/-- All that a step refuses is the oldest descriptor on REQ, when it spells nothing. -/
theorem step_refused (h : s.Inv) {r : Refusal} (hs : step s = .refused r) :
    s.resetLine = false ∧ s.busy = false ∧
      ∃ d rest why, s.offered = d :: rest ∧ decode .request d = .error why ∧ r = .badDescriptor why := by
  cases hr : s.resetLine with
  | true => simp [step, hr] at hs
  | false =>
    cases hb : s.busy with
    | true => exact absurd (step_of_busy hr hb ▸ hs) (advance_ne_refused h.dropOwed r)
    | false =>
      have hf : fetch s.dropOwed = fetchRequest s.dropOwed := by simp [fetch, hb]
      simp only [step, hr, hf] at hs
      split at hs
      · contradiction
      · split at hs
        · rename_i i u hi
          obtain ⟨rest, rfl, hchan⟩ := fetchRequest_request hi
          exact absurd hs (runItem_ne_refused (h.taking rest) hb hchan r)
        · rename_i why hmal
          obtain ⟨d, rest, hoff, hdec⟩ := (fetchRequest_malformed_iff s.dropOwed why).mp hmal
          cases hs
          exact ⟨rfl, rfl, d, rest, why, hoff, hdec, rfl⟩
        · exact absurd hs (advance_ne_refused h.dropOwed r)

/-! ### The statements -/

/-- Settles O1: `decode_encode`, a case for each row of the table. -/
theorem decodeOfEncode : Obligations.DecodeOfEncode := fun _ => decode_encode

/-- Settles O2: `encode_decode`, a case for each channel. -/
theorem encodeOfDecode : Obligations.EncodeOfDecode := fun _ _ _ => encode_decode

/-- Settles O3: the decoder rejects a reserved OPC (`decodeRequest_of_reserved`), a descriptor's length is that of its
fields (`encode_length`), and the decoder rejects whatever encodes no request (`decode_error_iff`), which the step then
refuses. -/
theorem reservedDescriptorsRefused : Obligations.ReservedDescriptorsRefused := by
  refine ⟨fun opc fs hopc i hi hc henc => ?_, fun i => encode_length, fun s d rest hr hb hoff hno => ?_⟩
  · exact (decode_error_iff .request (opc :: fs)).mp ⟨_, decodeRequest_of_reserved hopc fs⟩ i hi hc henc
  · obtain ⟨why, hdec⟩ := (decode_error_iff .request d).mpr hno
    exact ⟨why, step_of_malformed hr hb hoff hdec⟩

/-- Settles O8: at a busy block the item fetched is one of the wire (`exec_fetchWire`). -/
theorem wireItemIsItsBytes : Obligations.WireItemIsItsBytes := by
  intro s t i hb hf
  have hw : fetchWire s = .item i t := by simpa [fetch, hb] using hf
  exact exec_fetchWire hw

/-- Settles O46: a step refuses only what the decoder rejects (`step_refused`), which no request encodes to
(`decode_error_iff`). -/
theorem stepRefusesOnlyDescriptors : Obligations.StepRefusesOnlyDescriptors := by
  intro s r h hs
  obtain ⟨hr, hb, d, rest, why, hoff, hdec, hwhy⟩ := step_refused h hs
  exact ⟨hb, hr, d, rest, why, hoff, hdec, hwhy, (decode_error_iff .request d).mp ⟨why, hdec⟩⟩

/-- Settles O4: each of the nine sequences that spell an item is the item's encoding, so it reads back (`decode_encode`);
the sample 0x81 is not READY. -/
theorem writtenOutBytesDecode : Obligations.WrittenOutBytesDecode :=
  ⟨decode_encode (i := .checksum [0xD4, 0x02]) rfl, decode_encode (i := .verifyChecksum 0xE8 [0x18]) rfl,
    decode_encode (i := .encodeFrame 0x4A [0x01, 0x00]) rfl, decode_encode (i := .pollReady 200) rfl,
    decode_encode (i := .readPassiveTargetA 1000) rfl, decode_encode (i := .wireCmdSamConfiguration 0x01 0x14 0x01) rfl,
    decode_encode (i := .wireRspInListPassiveTarget 0x01 [0x00]) rfl, decode_encode (i := .wireAck 0x01) rfl,
    decode_encode (i := .wireStatusReady) rfl, rfl⟩

end Sys2Proof.Machine

/-! # Checksums

A block at rest answers CHECKSUM and VERIFY_CHECKSUM in one step, so the laws of 40_checksum.md are laws of `sum8`: it is the
sum of the bytes in the group of bytes, which fixes the checksum (R144), moves with a byte that is put in (R145), and does not
see an order (R146). -/

namespace Sys2Proof.Machine

variable {s : State}

/-! ### The sum of a changed sequence -/

theorem sum8_eq_sum (bs : List Byte) : sum8 bs = bs.sum := by
  induction bs with
  | nil => rfl
  | cons b bs ih => rw [sum8_cons, ih, List.sum_cons]

theorem sum8_perm {cs bs : List Byte} (h : cs.Perm bs) : sum8 cs = sum8 bs := by
  rw [sum8_eq_sum, sum8_eq_sum, h.sum_eq]

/-- Putting `x` where `b` was moves the sum by their difference. -/
theorem sum8_set {bs : List Byte} {n : Nat} {b : Byte} (h : bs[n]? = some b) (x : Byte) :
    sum8 (bs.set n x) = sum8 bs + (x - b) := by
  obtain ⟨hn, rfl⟩ := List.getElem?_eq_some_iff.mp h
  rw [sum8_eq_sum, sum8_eq_sum, List.sum_set', dif_pos hn, neg_add_eq_sub]

/-- The sum does not see `+d` on one byte and `-d` on another (40_checksum.md R146). -/
theorem sum8_set_add_set_sub {bs : List Byte} {n m : Nat} {a b : Byte} (hnm : n ≠ m) (hn : bs[n]? = some a)
    (hm : bs[m]? = some b) (d : Byte) : sum8 ((bs.set n (a + d)).set m (b - d)) = sum8 bs := by
  have hm' : (bs.set n (a + d))[m]? = some b := by rw [List.getElem?_set_ne hnm, hm]
  rw [sum8_set hm', sum8_set hn]
  ring

theorem checksum_congr {cs bs : List Byte} (h : sum8 cs = sum8 bs) : checksum cs = checksum bs := by
  rw [checksum, checksum, h]

/-! ### Changed bytes of a valid pair -/

/-- One flipped bit makes another byte. -/
theorem flipBit_ne {k : Nat} (hk : k < 8) (b : Byte) : b ^^^ ((1 <<< k : Nat) : Byte) ≠ b := by
  intro h
  have hset : ((1 <<< k : Nat) : Byte).getLsbD k = true := by
    rw [BitVec.natCast_eq_ofNat, BitVec.getLsbD_ofNat]
    simp [hk]
  have hbit := congrArg (BitVec.getLsbD · k) h
  simp only [BitVec.getLsbD_xor, hset, Bool.xor_true] at hbit
  exact Bool.not_ne_self _ hbit

/-- No other byte goes with the sequence. -/
theorem sum8_add_ne_zero_of_ne {bs : List Byte} {c c' : Byte} (h : sum8 bs + c = 0) (hne : c' ≠ c) :
    sum8 bs + c' ≠ 0 := fun h' => hne (add_left_cancel (h'.trans h.symm))

/-- No sequence with one byte changed goes with the checksum byte. -/
theorem sum8_set_add_ne_zero {bs : List Byte} {n : Nat} {b c x : Byte} (h : sum8 bs + c = 0) (hn : bs[n]? = some b)
    (hne : x ≠ b) : sum8 (bs.set n x) + c ≠ 0 := by
  rw [sum8_set hn, add_right_comm, h, zero_add]
  exact sub_ne_zero.mpr hne

/-! ### The two operations -/

/-- A block at rest that accepts a request with nothing to do but reply has replied. -/
theorem request_reply (hs : s.AtRest) (i : Instr) (opc st : Byte) (d : List Byte) :
    request i opc (reply st d) s = .next { s with events := s.events ++ succeeded opc [] st d } :=
  request_end hs (congrArg _ (accept_succeed hs i opc st d))

theorem exec_checksum (hs : s.AtRest) (bs : List Byte) :
    exec (.checksum bs) s = .next { s with events := s.events ++ succeeded 0x01 [] 0x00 [checksum bs] } :=
  request_reply hs _ _ _ _

theorem exec_verifyChecksum (hs : s.AtRest) (c : Byte) (bs : List Byte) :
    exec (.verifyChecksum c bs) s =
      .next { s with events := s.events ++ succeeded 0x02 [] 0x00 [if sum8 bs + c = 0 then 0x01 else 0x00] } := by
  simp only [← validSum_iff]
  exact request_reply hs _ _ _ _

/-- VERIFY_CHECKSUM answers 0 for an invalid pair. -/
theorem exec_verifyChecksum_invalid (hs : s.AtRest) {c : Byte} {bs : List Byte} (h : sum8 bs + c ≠ 0) :
    exec (.verifyChecksum c bs) s = .next { s with events := s.events ++ succeeded 0x02 [] 0x00 [0x00] } := by
  rw [exec_verifyChecksum hs, if_neg h]

/-! ### The statements -/

/-- Settles O10: the reply is `exec_checksum`, and its sum the natural one modulo 256 (`sum8_toNat`). -/
theorem checksumReplies : Obligations.ChecksumReplies := by
  refine fun s bs => ⟨rfl, fun hs => ?_⟩
  rw [exec_checksum hs, checksum, sum8_toNat]

/-- Settles O11: the reply is `exec_verifyChecksum`, a sum that is 0 being a multiple of 256 (`sum8_add_eq_zero`). -/
theorem verifyChecksumReplies : Obligations.VerifyChecksumReplies := by
  refine fun s c bs => ⟨rfl, fun hs => ?_⟩
  simp only [exec_verifyChecksum hs, sum8_add_eq_zero]

/-- Settles O12: the byte that makes a sum 0 is its checksum (`sum8_add_iff`). -/
theorem checksumIsTheOnlyValidByte : Obligations.ChecksumIsTheOnlyValidByte := by
  refine fun s bs c hs => ⟨?_, ?_⟩
  · rw [exec_checksum hs, checksum_eq_checksumOf]
  · simp only [exec_verifyChecksum hs, sum8_add_iff, checksum_eq_checksumOf]

/-- Settles O13: a flipped bit makes another byte (`flipBit_ne`), and a valid pair with one byte changed is invalid. -/
theorem singleBitFlipIsDetected : Obligations.SingleBitFlipIsDetected := by
  intro s bs c k hs hk hsum
  have hvalid := (sum8_add_eq_zero bs c).mpr hsum
  exact ⟨exec_verifyChecksum_invalid hs (sum8_add_ne_zero_of_ne hvalid (flipBit_ne hk c)),
    fun n b hn => exec_verifyChecksum_invalid hs (sum8_set_add_ne_zero hvalid hn (flipBit_ne hk b))⟩

/-- Settles O14: neither change is one of the sum (`sum8_perm`, `sum8_set_add_set_sub`), which the checksum is made of. -/
theorem checksumMissesSwaps : Obligations.ChecksumMissesSwaps := by
  intro s bs hs
  rw [← checksum_eq_checksumOf]
  refine ⟨fun cs hperm => ?_, fun n m a b d hnm hn hm => ?_⟩
  · rw [exec_checksum hs, checksum_congr (sum8_perm hperm)]
  · rw [exec_checksum hs, checksum_congr (sum8_set_add_set_sub hnm hn hm d)]

end Sys2Proof.Machine

/-! # Polls

POLL_READY from a block at rest (41_poller.md R166): each end of its poll, and the poll that waits. A ready sample that meets a
poll of any phase (R161, R162). -/

namespace Sys2Proof.Machine

variable {s t : State}

/-! ### A poll of POLL_READY -/

/-- A read of one byte or more waits while nothing has come. -/
theorem turn_of_read_unanswered {n tc : Nat} {k : Resume} (ho : s.outstanding = some ⟨.read (n + 1) tc, k⟩)
    (hr : s.rx = []) : turn s = none := by
  simp [turn, ho, answerOf, hr, takeRead]

section PollReady

variable {m : Millis} {w : Wait} {rest : List RxToken} {c : List Nat}

theorem exec_pollReady_ready (hs : s.AtRest) (hw : w.Within m) (hc : s.clock = w.times ++ c)
    (hr : s.rx = stream (w.samples ++ [ready]) ++ rest) :
    exec (.pollReady m) s = .next { s with
      clock := c, rx := rest
      events := s.events ++ succeeded 0x05 (w.readyCalls s.cfg.tCall) 0x00 [] } := by
  obtain ⟨y, hcleared, hsampling, hphase, -, hexec⟩ :=
    exec_pollReady_wait (rest := .byte ready :: rest) hs hw hc (by simpa using hr)
  refine hexec _ (runs_ready hsampling hphase hcleared ?_) (turn_of_rest hs _ _ _ _)
  simp [succeeded, Wait.readyCalls, statusOk]

theorem exec_pollReady_late (hs : s.AtRest) (hw : w.Within m) {b : Byte} {x : Nat} (hb : b ≠ ready)
    (hx : w.t0 + m.toNat ≤ x) (hc : s.clock = w.times ++ x :: c) (hr : s.rx = stream (w.samples ++ [b]) ++ rest) :
    exec (.pollReady m) s = .next { s with
      clock := c, rx := rest
      events := s.events ++ failedWith 0x05 (w.lateCalls s.cfg.tCall b x) (.timeout b) .idle } := by
  obtain ⟨y, hcleared, hsampling, hphase, -, hexec⟩ :=
    exec_pollReady_wait (rest := .byte b :: rest) hs hw hc (by simpa using hr)
  refine hexec _ (runs_timeout hsampling hb hx hphase hcleared ?_) (turn_of_rest hs _ _ _ _)
  simp [failedWith, Wait.lateCalls]

theorem exec_pollReady_readFailed (hs : s.AtRest) (hw : w.Within m) (hc : s.clock = w.times ++ c)
    (hr : s.rx = stream w.samples ++ .fail :: rest) :
    exec (.pollReady m) s = .next { s with
      clock := c, rx := rest
      events := s.events ++
        failedWith 0x05 (w.calls s.cfg.tCall ++ [.call (.read 1 s.cfg.tCall) .readFailed]) .readFailed .idle } := by
  obtain ⟨y, hcleared, hsampling, hphase, -, hexec⟩ := exec_pollReady_wait hs hw hc hr
  refine hexec _ (runs_readFailed (bs := []) hsampling.outstanding stopsOnFailure_sampled Nat.one_pos hphase hcleared ?_)
    (turn_of_rest hs _ _ _ _)
  simp [failedWith]

end PollReady

/-- Settles O23: the wait leads to a sample (`exec_pollReady_wait`), and each of the three answers to it ends the poll. -/
theorem pollReadyOutcomes : Obligations.PollReadyOutcomes := by
  refine ⟨fun m => rfl, fun s m w rest c hs hw => ⟨?_, fun b x hb hx => ?_, ?_⟩⟩
  · exact exec_pollReady_ready hs hw
  · exact exec_pollReady_late hs hw hb hx
  · exact exec_pollReady_readFailed hs hw

/-- Settles O24: the wait leads to a sample (`exec_pollReady_wait`) that nothing answers. -/
theorem pollWaitsBelowItsBound : Obligations.PollWaitsBelowItsBound := by
  intro s m w hs hw hc hr
  obtain ⟨y, hcleared, hsampling, hphase, hbusy, hexec⟩ :=
    exec_pollReady_wait (c := []) (rest := []) hs hw (by simpa using hc) (by simpa using hr)
  have hrx : y.rx = [] := rx_of_cleared hcleared
  have hcfg : y.cfg = s.cfg := by rw [cfg_of_cleared hcleared]
  exact ⟨y, hexec y (.refl y) (turn_of_read_unanswered hsampling.outstanding hrx), hbusy, hphase,
    hcfg ▸ hsampling.outstanding, clock_of_cleared hcleared, hrx, events_of_cleared hcleared⟩

/-! ### A ready sample at a poll of any phase -/

/-- The outstanding sample has been answered 0x01. -/
def State.sawReady (s : State) (tc : Nat) : State :=
  { s with outstanding := none, pollLast := some ready, events := s.events ++ [sampleCall tc ready] }

/-- A ready sample makes the block go on where the poll's caller does (41_poller.md R162). -/
theorem exec_wireStatusReady {tc : Nat} (ho : s.outstanding = some ⟨.read 1 tc, .sampled⟩)
    (h : (pollNext s.phase).wp (s.sawReady tc) (fun _ u => u = t) (fun e u => u.fail e = t))
    (hb : t.budget = s.budget) (ht : turn t = none) : exec .wireStatusReady s = .next t := by
  have hruns : Runs (s.deliver [ready]) t := by
    refine .one (s := s.deliver [ready]) ho (answerOf_read (b := [ready]) rfl rfl) (runRule_eq ?_) ?_
    · simp only [resume, pollSampled, wp_bind, wp_byteAt]
      refine ⟨ready, rfl, ?_⟩
      simp only [wp_modify, if_true, wp_afterPoll]
      exact h
    · rw [hb]; simp [State.budget]
  exact hruns.advance ht

/-- In a phase whose poll is followed by a read, the read is what the block then waits for. -/
theorem exec_wireStatusReady_read {tc n : Nat} {k : Resume} (ho : s.outstanding = some ⟨.read 1 tc, .sampled⟩)
    (hnext : pollNext s.phase = transportRead (n + 1) k) (hr : s.rx = []) :
    exec .wireStatusReady s = .next { s with
      pollLast := some ready, outstanding := some ⟨.read (n + 1) s.cfg.tCall, k⟩
      events := s.events ++ [sampleCall tc ready] } := by
  refine exec_wireStatusReady ho ?_ rfl (turn_of_read_unanswered rfl hr)
  rw [hnext, wp_transportRead]
  rfl

/-- Settles O40: where the block goes on is `pollNext` of each phase, to its end or to a read. -/
theorem wireReadyEndsPoll : Obligations.WireReadyEndsPoll := by
  refine fun s tc ho => ⟨fun hp => ?_, fun hp hr => ?_, fun hp hr => ?_⟩
  · refine exec_wireStatusReady ho ?_ rfl (turn_of_not_outstanding rfl)
    rw [hp, pollNext, wp_reply, State.succeed_eq]
    simp [State.sawReady, State.cleared, State.discardCommand, statusOk, ready]
  · exact exec_wireStatusReady_read (n := 6) ho (by rw [hp]; rfl) hr
  · exact exec_wireStatusReady_read (n := 5) ho (by rw [hp]; rfl) hr

end Sys2Proof.Machine

/-! # Encoded frames

ENCODE_FRAME from a block at rest (42_encoder.md R180): the rule either raises before it writes or replies with the frame it has
stored. The shape of a frame (R184) is then a matter of its bytes alone: LEN with LCS, and the covered bytes with DCS, are each a
sequence with its checksum. -/

namespace Sys2Proof.Machine

open Sys2Proof.Verdicts (total checksumOf)

variable {s : State} {cmd : Byte} {p : List Byte}

/-! ### The bytes of a command frame -/

/-- The frame as the statements spell it, its checksums being those of the natural sums. -/
theorem commandFrame_eq (cmd : Byte) (p : List Byte) :
    commandFrame cmd p =
      [0x00, 0x00, 0xFF, BitVec.ofNat 8 (p.length + 2), checksumOf [BitVec.ofNat 8 (p.length + 2)], 0xD4, cmd]
        ++ p ++ [checksumOf ([0xD4, cmd] ++ p), 0x00] := by
  simp only [← checksum_eq_checksumOf]
  rfl

theorem commandFrame_len (cmd : Byte) (p : List Byte) :
    (commandFrame cmd p).getD 3 0 = BitVec.ofNat 8 (p.length + 2) := rfl

theorem commandFrame_lcs (cmd : Byte) (p : List Byte) :
    (commandFrame cmd p).getD 4 0 = checksum [BitVec.ofNat 8 (p.length + 2)] := rfl

theorem commandFrame_getLast? (cmd : Byte) (p : List Byte) : (commandFrame cmd p).getLast? = some 0x00 := by
  rw [commandFrame, List.getLast?_append]
  rfl

/-- The bytes that the data checksum covers, TFI to the end of the payload, and the checksum. -/
theorem commandFrame_covered (cmd : Byte) (p : List Byte) :
    ((commandFrame cmd p).drop 5).take (p.length + 3) =
      ([tfiHost, cmd] ++ p) ++ [checksum ([tfiHost, cmd] ++ p)] := by
  have hdrop : (commandFrame cmd p).drop 5 =
      (([tfiHost, cmd] ++ p) ++ [checksum ([tfiHost, cmd] ++ p)]) ++ [postamble] := by simp [commandFrame]
  rw [hdrop, List.take_left' (by simp)]

/-- A sequence with its checksum sums to 0. -/
theorem sum8_append_checksum (bs : List Byte) : sum8 (bs ++ [checksum bs]) = 0 := by
  simp

/-- LEN and LCS sum to 0 modulo 256 (42_encoder.md R184). -/
theorem commandFrame_len_lcs (cmd : Byte) (p : List Byte) :
    (((commandFrame cmd p).getD 3 0).toNat + ((commandFrame cmd p).getD 4 0).toNat) % 256 = 0 := by
  rw [commandFrame_len, commandFrame_lcs, ← byte_add_eq_zero]
  simpa using sum8_add_checksum [BitVec.ofNat 8 (p.length + 2)]

/-- TFI to DCS sum to 0 modulo 256 (42_encoder.md R184). -/
theorem commandFrame_covered_total (cmd : Byte) (p : List Byte) :
    total (((commandFrame cmd p).drop 5).take (p.length + 3)) % 256 = 0 := by
  rw [commandFrame_covered, ← sum8_toNat, sum8_append_checksum]
  rfl

/-! ### The operation -/

/-- Encode from any state: the frame stored, or PAYLOAD_TOO_LONG with nothing written. -/
theorem run_encodeInto (cmd : Byte) (p : List Byte) (s : State) :
    (encodeInto cmd p).run s =
      if p.length ≤ s.cfg.maxPayload then
        .ok () { s with txbuf := writeBytes s.txbuf 0 (commandFrame cmd p), txlen := some (p.length + 9) }
      else .error (.raised .payloadTooLong) s := by
  refine Rule.run_eq_of_wp ((wp_encodeInto cmd p _).mpr ⟨fun h => ?_, fun h => ?_⟩)
  · rw [if_pos h]
  · rw [if_neg h]

/-- ENCODE_FRAME replies with the frame of a payload that fits; what it stored goes with the end of the operation. -/
theorem exec_encodeFrame_fits (hs : s.AtRest) (hp : p.length ≤ s.cfg.maxPayload) :
    exec (.encodeFrame cmd p) s =
      .next { s with events := s.events ++ succeeded 0x03 [] 0x00 (commandFrame cmd p) } := by
  refine request_end hs (runRule_eq ?_)
  rw [wp_bind, wp_encodeInto]
  refine ⟨fun _ => ?_, fun h => absurd hp h⟩
  rw [wp_bind, wp_encodedFrame (m := (s.accept (.encodeFrame cmd p) 0x03).txbuf) (f := commandFrame cmd p) rfl (by simp)
    (by simpa using hp), wp_reply]
  exact accept_succeed hs (.encodeFrame cmd p) 0x03 0x00 (commandFrame cmd p)

/-- ENCODE_FRAME rejects a payload over MAX_PAYLOAD (42_encoder.md R181). -/
theorem exec_encodeFrame_tooLong (hs : s.AtRest) (hp : ¬p.length ≤ s.cfg.maxPayload) :
    exec (.encodeFrame cmd p) s =
      .next { s with events := s.events ++ failedWith 0x03 [] .payloadTooLong .idle } := by
  refine request_end hs (runRule_eq ?_)
  rw [wp_bind, wp_encodeInto]
  exact ⟨fun h => absurd h hp, fun _ => accept_fail hs (.encodeFrame cmd p) 0x03 .payloadTooLong⟩

/-! ### The statements -/

/-- Settles O15: the two replies are `exec_encodeFrame_fits` and `exec_encodeFrame_tooLong`, and what Encode writes is
`run_encodeInto`. -/
theorem encodeFrameReplies : Obligations.EncodeFrameReplies := by
  intro s cmd p
  rw [← commandFrame_eq]
  refine ⟨rfl, fun hs => ?_, run_encodeInto cmd p s⟩
  split
  case isTrue hp => exact exec_encodeFrame_fits hs hp
  case isFalse hp => exact exec_encodeFrame_tooLong hs hp

/-- Settles O16: the frame is `commandFrame`. MAX_PAYLOAD is at most 253, so LEN does not wrap (`ofNat_toNat_of_le`). -/
theorem encodedFrameShape : Obligations.EncodedFrameShape := by
  intro s cmd p hs hcfg hp
  obtain ⟨-, hmax, -⟩ := hcfg
  have hlen : ((commandFrame cmd p).getD 3 0).toNat = p.length + 2 := by
    rw [commandFrame_len, ofNat_toNat_of_le (hp.trans hmax)]
  exact ⟨commandFrame cmd p, exec_encodeFrame_fits hs hp, commandFrame_length cmd p, by rw [commandFrame_length, hlen],
    rfl, rfl, rfl, commandFrame_getLast? cmd p, commandFrame_len_lcs cmd p, commandFrame_covered_total cmd p⟩

end Sys2Proof.Machine

/-! # Decoded frames

DECODE_FRAME from a block at rest (43_decoder.md R205) answers with the verdict on its operand. What the laws of a decoded frame
say of encoded frames (R210) and of flipped checksum bits (R211) is then a matter of the verdict alone: a frame is five header
bytes before a body, and the verdict on it is the header's and then the body's. -/

namespace Sys2Proof.Machine

variable {s : State} {tfi len x : Byte} {cap : Nat} {f h b p : List Byte} {e : Failure}

/-! ### The verdict on a frame -/

/-- The header's checks look at its five bytes alone. -/
theorem Verdicts.header_append (hl : h.length = 5) (b : List Byte) :
    Verdicts.header cap (h ++ b) = Verdicts.header cap h := by
  match h, hl with
  | [_, _, _, _, _], _ => rfl

/-- The verdict on a frame: its header's, then its length's, then its body's (43_decoder.md R205). -/
theorem Verdicts.frame_append (hl : h.length = 5) (b : List Byte) :
    Verdicts.frame cap tfi (h ++ b) =
      (Verdicts.header cap h).bind fun len =>
        if b.length = len.toNat + 2 then Verdicts.body tfi len b else .error .badFrameLength := by
  have h5 : ¬(h ++ b).length < 5 := by simp [hl]
  simp only [Verdicts.frame, if_neg h5, Verdicts.header_append hl, List.drop_left' hl]
  cases Verdicts.header cap h with
  | error e => rfl
  | ok len =>
    have hlen : (h ++ b).length = len.toNat + 7 ↔ b.length = len.toNat + 2 := by
      rw [List.length_append, hl]
      omega
    simp only [Except.bind, ne_eq, hlen, ite_not]

/-- An accepted frame is an accepted header before an accepted body. -/
theorem Verdicts.frame_ok (hv : Verdicts.frame cap tfi f = .ok p) :
    ∃ h b len, f = h ++ b ∧ h.length = 5 ∧ Verdicts.header cap h = .ok len ∧ b.length = len.toNat + 2 ∧
      Verdicts.body tfi len b = .ok p := by
  have h5 : 5 ≤ f.length := by
    by_contra hlt
    simp [Verdicts.frame, Nat.lt_of_not_le hlt] at hv
  have hl : (f.take 5).length = 5 := List.length_take_of_le h5
  rw [← List.take_append_drop 5 f, Verdicts.frame_append hl] at hv
  rcases hh : Verdicts.header cap (f.take 5) with e | len <;> rw [hh] at hv <;> simp only [Except.bind] at hv
  · cases hv
  · split_ifs at hv with hb
    exact ⟨f.take 5, f.drop 5, len, (List.take_append_drop 5 f).symm, hl, hh, hb, hv⟩

/-- Behind an accepted header and with the length it gives, the verdict on a frame is the one on its body. -/
theorem Verdicts.frame_append_of_header (hl : h.length = 5) (hh : Verdicts.header cap h = .ok len)
    (hb : b.length = len.toNat + 2) : Verdicts.frame cap tfi (h ++ b) = Verdicts.body tfi len b := by
  simp only [Verdicts.frame_append hl, hh, Except.bind, if_pos hb]

/-- A frame fails as its header does. -/
theorem Verdicts.frame_append_of_badHeader (hl : h.length = 5) (hh : Verdicts.header cap h = .error e) :
    Verdicts.frame cap tfi (h ++ b) = .error e := by
  simp only [Verdicts.frame_append hl, hh, Except.bind]

/-- No other LCS goes with the LEN of an accepted header. -/
theorem Verdicts.header_set_lcs (hl : h.length = 5) (hh : Verdicts.header cap h = .ok len) (hx : x ≠ h.getD 4 0) :
    Verdicts.header cap (h.set 4 x) = .error (.badLcs (h.getD 3 0) x) := by
  match h, hl with
  | [h0, h1, h2, n, lcs], _ =>
    have hx : x ≠ lcs := hx
    simp only [Verdicts.header, List.take_succ_cons, List.take_zero, List.getD_cons_succ, List.getD_cons_zero,
      List.set_cons_succ, List.set_cons_zero] at hh ⊢
    split at hh
    · cases hh
    · split at hh
      · cases hh
      · rename_i hstart hlcs
        have hsum : n + lcs = 0 := (byte_add_eq_zero n lcs).mpr (not_not.mp hlcs)
        have hne : n + x ≠ 0 := fun h0 => hx (add_left_cancel (h0.trans hsum.symm))
        rw [if_neg hstart, if_pos (mt (byte_add_eq_zero n x).mpr hne)]

/-- No other DCS goes with the bytes of an accepted body. -/
theorem Verdicts.body_set_dcs (hb : b.length = len.toNat + 2) (hv : Verdicts.body tfi len b = .ok p)
    (hx : x ≠ b.getD len.toNat 0) : Verdicts.body tfi len (b.set len.toNat x) = .error (.badDcs x) := by
  have hpost : (b.set len.toNat x).getD (len.toNat + 1) 0 = b.getD (len.toNat + 1) 0 := by
    simp [List.getD_eq_getElem?_getD]
  have hdcs : (b.set len.toNat x).getD len.toNat 0 = x := by
    simp [List.getD_eq_getElem?_getD, List.getElem?_set_self (show len.toNat < b.length by omega)]
  have htake : (b.set len.toNat x).take len.toNat = b.take len.toNat := List.take_set_of_le le_rfl
  simp only [Verdicts.body] at hv ⊢
  split_ifs at hv with hp hn ht hd
  have htag : (b.set len.toNat x).getD 0 0 = b.getD 0 0 := by
    simp [List.getD_eq_getElem?_getD, List.getElem?_set_ne (show len.toNat ≠ 0 by omega)]
  have hsum : sum8 (b.take len.toNat) + b.getD len.toNat 0 = 0 := (sum8_add_eq_zero _ _).mpr (not_not.mp hd)
  have hne : sum8 (b.take len.toNat) + x ≠ 0 := sum8_add_ne_zero_of_ne hsum hx
  rw [hpost, hdcs, htake, htag, if_neg hp, if_neg hn, if_neg ht, if_pos (mt (sum8_add_eq_zero _ _).mpr hne)]

/-- An accepted frame with another LCS fails with BAD_LCS. -/
theorem Verdicts.frame_set_lcs (hv : Verdicts.frame cap tfi f = .ok p) (hx : x ≠ f.getD 4 0) :
    Verdicts.frame cap tfi (f.set 4 x) = .error (.badLcs (f.getD 3 0) x) := by
  obtain ⟨h, b, len, rfl, hl, hh, -, -⟩ := Verdicts.frame_ok hv
  have hget : ∀ n, n < 5 → (h ++ b).getD n 0 = h.getD n 0 := fun n hn => by
    rw [List.getD_append _ _ _ _ (by omega)]
  rw [hget 4 (by decide)] at hx
  rw [hget 3 (by decide), List.set_append_left _ _ (by omega)]
  exact Verdicts.frame_append_of_badHeader (by simp [hl]) (Verdicts.header_set_lcs hl hh hx)

/-- An accepted frame with another DCS, its last byte but one, fails with BAD_DCS. -/
theorem Verdicts.frame_set_dcs (hv : Verdicts.frame cap tfi f = .ok p) (hx : x ≠ f.getD (f.length - 2) 0) :
    Verdicts.frame cap tfi (f.set (f.length - 2) x) = .error (.badDcs x) := by
  obtain ⟨h, b, len, rfl, hl, hh, hb, hbody⟩ := Verdicts.frame_ok hv
  have hdcs : (h ++ b).length - 2 = h.length + len.toNat := by
    rw [List.length_append]
    omega
  rw [hdcs, List.getD_append_right _ _ _ _ (by omega), Nat.add_sub_cancel_left] at hx
  rw [hdcs, List.set_append_right _ _ (by omega), Nat.add_sub_cancel_left,
    Verdicts.frame_append_of_header hl hh (by simpa using hb)]
  exact Verdicts.body_set_dcs hb hbody hx

/-! ### The operation -/

/-- A validated frame stands in RXBUF, and its payload is as long as PLEN says. -/
theorem run_decodeOperand_ok (hv : Verdicts.frame s.cfg.rxBodyCap tfi f = .ok p) :
    (decodeOperand tfi f).run s = .ok () { s with
      rxbuf := writeBytes s.rxbuf 0 (f.drop 5), rxlen := some (p.length + 2), plen := some (BitVec.ofNat 8 p.length) } := by
  refine Rule.run_eq_of_wp (wp_decodeOperand (fun len v hv' hp hl _ => ?_) (fun e t he _ => ?_))
  · obtain rfl : p = v := Except.ok.inj (hv.symm.trans hv')
    have hlen : p.length = len.toNat := by
      rw [hp, List.length_take_of_le]
      rw [List.length_drop]
      omega
    rw [hlen, BitVec.ofNat_toNat, BitVec.setWidth_eq, State.withPayload]
  · cases hv.symm.trans he

/-- A frame that its header or its length rules out is not stored. -/
theorem run_decodeOperand_unstored (hv : Verdicts.frame s.cfg.rxBodyCap tfi f = .error e)
    (hl : ∀ len, Verdicts.header s.cfg.rxBodyCap f = .ok len → f.length ≠ len.toNat + 7) :
    (decodeOperand tfi f).run s = .error (.raised e) s := by
  refine Rule.run_eq_of_wp (wp_decodeOperand (fun len v hv' _ _ _ => ?_) (fun e' t he ht => ?_))
  · cases hv.symm.trans hv'
  · cases hv.symm.trans he
    rcases ht with ⟨rfl, -⟩ | ⟨len, hh, hlen, -⟩
    · rfl
    · exact absurd hlen (hl len hh)

/-- A frame whose body fails a check stands in RXBUF. -/
theorem run_decodeOperand_stored (hv : Verdicts.frame s.cfg.rxBodyCap tfi f = .error e)
    (hh : Verdicts.header s.cfg.rxBodyCap f = .ok len) (hl : f.length = len.toNat + 7) :
    (decodeOperand tfi f).run s = .error (.raised e) (s.withBody len (f.drop 5)) := by
  refine Rule.run_eq_of_wp (wp_decodeOperand (fun len v hv' _ _ _ => ?_) (fun e' t he ht => ?_))
  · cases hv.symm.trans hv'
  · cases hv.symm.trans he
    rcases ht with ⟨-, hne⟩ | ⟨len', hh', -, rfl⟩
    · exact absurd hl (hne len hh)
    · cases hh.symm.trans hh'
      rfl

/-- DECODE_FRAME replies with the payload of a frame that its checks accept. -/
theorem exec_decodeFrame_ok (hs : s.AtRest) (hv : Verdicts.frame s.cfg.rxBodyCap tfi f = .ok p) :
    exec (.decodeFrame tfi f) s = .next { s with events := s.events ++ succeeded 0x04 [] 0x00 p } := by
  refine request_end hs (runRule_eq ?_)
  rw [wp_bind]
  refine wp_decodeOperand (fun len v hv' hp hl hc => ?_) (fun e t he _ => ?_)
  · obtain rfl : p = v := Except.ok.inj (hv.symm.trans hv')
    have hb : (f.drop 5).length = len.toNat + 2 := by
      rw [List.length_drop]
      omega
    rw [wp_bind, wp_validatedPayload (s := (s.accept (.decodeFrame tfi f) 0x04).withPayload len (f.drop 5)) rfl rfl
      (hb.trans_le hc) (by omega), ← hp, wp_reply]
    exact accept_succeed hs (.decodeFrame tfi f) 0x04 0x00 p
  · cases hv.symm.trans he

/-- DECODE_FRAME fails as the checks of its operand do. -/
theorem exec_decodeFrame_error (hs : s.AtRest) (hv : Verdicts.frame s.cfg.rxBodyCap tfi f = .error e) :
    exec (.decodeFrame tfi f) s = .next { s with events := s.events ++ failedWith 0x04 [] e .idle } := by
  refine request_end hs (runRule_eq ?_)
  rw [wp_bind]
  refine wp_decodeOperand (fun len v hv' _ _ _ => ?_) (fun e' t he ht => ?_)
  · cases hv.symm.trans hv'
  · cases hv.symm.trans he
    rcases ht with ⟨rfl, -⟩ | ⟨len, -, -, rfl⟩ <;> exact accept_fail hs (.decodeFrame tfi f) 0x04 e

theorem Failure.status_ne_ok (e : Failure) : e.status ≠ statusOk := by
  cases e <;> exact nofun

/-- An operation that has replied has not failed: no failure has STATUS OK (60_exceptions.md R310). -/
theorem succeeded_ne_failedWith (opc : Byte) (es es' : List Event) (d : List Byte) (e : Failure) (ph : Phase) :
    succeeded opc es 0x00 d ≠ failedWith opc es' e ph := by
  intro heq
  have hmem : Event.result (successMsg 0x00 d) = .result (failureMsg e ph) := by
    have := congrArg (fun l : List Event => l.reverse[1]?) heq
    simpa [succeeded, failedWith] using this
  exact e.status_ne_ok (congrArg ResMsg.status (Event.result.inj hmem)).symm

/-- An operation that has failed has not ended with OK. -/
theorem failed_ne_succeeded {opc : Byte} {r r' : List RxToken} {es es' : List Event} {ph : Phase} :
    (Host.Outcome.next { s with rx := r, events := s.events ++ failedWith opc es e ph } :
        Host.Outcome State Fault Refusal) ≠
      .next { s with rx := r', events := s.events ++ succeeded opc es' 0x00 p } := by
  intro h
  have hev := List.append_cancel_left (congrArg State.events (Host.Outcome.next.inj h))
  exact succeeded_ne_failedWith _ _ _ _ _ _ hev.symm

/-- A frame that DECODE_FRAME answers OK to is one that the checks accept. -/
theorem frame_ok_of_exec_decodeFrame (hs : s.AtRest)
    (h : exec (.decodeFrame tfi f) s = .next { s with events := s.events ++ succeeded 0x04 [] 0x00 p }) :
    ∃ v, Verdicts.frame s.cfg.rxBodyCap tfi f = .ok v := by
  rcases hv : Verdicts.frame s.cfg.rxBodyCap tfi f with e | v
  · rw [exec_decodeFrame_error hs hv] at h
    exact absurd h failed_ne_succeeded
  · exact ⟨v, rfl⟩

/-- A body laid out as 30_encoding.md R91 and R94 have it, with its own checksum, is accepted whatever its TFI and code. -/
theorem Verdicts.body_of_layout (tfi code : Byte) (hp : p.length ≤ 253) :
    Verdicts.body tfi (BitVec.ofNat 8 (p.length + 2)) (([tfi, code] ++ p) ++ [checksum ([tfi, code] ++ p), postamble]) =
      .ok ([tfi, code] ++ p) := by
  have hsum := (sum8_add_eq_zero _ _).mp (sum8_add_checksum ([tfi, code] ++ p))
  have htake : ∀ bs : List Byte, ([tfi, code] ++ p ++ bs).take (p.length + 2) = [tfi, code] ++ p := fun bs =>
    List.take_left' (by simp)
  have hget : ∀ (bs : List Byte) (n : Nat), ([tfi, code] ++ p ++ bs).getD (p.length + 2 + n) 0 = bs.getD n 0 :=
    fun bs n => by
      rw [List.getD_append_right _ _ _ _ (by simp)]
      congr 1
      simp
  have hdcs : _ = checksum ([tfi, code] ++ p) := hget [checksum ([tfi, code] ++ p), postamble] 0
  have hpost : _ = postamble := hget [checksum ([tfi, code] ++ p), postamble] 1
  have htag : ∀ bs : List Byte, ([tfi, code] ++ p ++ bs).getD 0 0 = tfi := fun bs => rfl
  rw [Nat.add_zero] at hdcs
  simp only [Verdicts.body, ofNat_toNat_of_le hp, htake, htag, hdcs, hpost]
  rw [if_neg (by decide), if_neg (by omega), if_neg (by simp), if_neg (not_not.mpr hsum)]

/-- What ENCODE_FRAME returns is accepted, with its code and payload, where its LEN does not wrap and its body fits RXBUF. -/
theorem Verdicts.frame_commandFrame (cmd : Byte) (hp : p.length ≤ 253) (hc : p.length + 4 ≤ cap) :
    Verdicts.frame cap tfiHost (commandFrame cmd p) = .ok ([tfiHost, cmd] ++ p) := by
  have hsplit : commandFrame cmd p =
      responseHead p.length ++ (([tfiHost, cmd] ++ p) ++ [checksum ([tfiHost, cmd] ++ p), postamble]) := by
    simp [commandFrame, responseHead, startSeq, marker]
  rw [hsplit, Verdicts.frame_append_of_header (responseHead_length _) (header_responseHead hp hc)
    (by simp [ofNat_toNat_of_le hp]), Verdicts.body_of_layout tfiHost cmd hp]

/-! ### The statements -/

/-- Settles O17: the reply and what the validation writes both follow the verdict on the frame; a failure has stored the frame
exactly where the header and the length had passed. -/
theorem decodeFrameChecksInOrder : Obligations.DecodeFrameChecksInOrder := by
  intro s tfi f
  refine ⟨rfl, fun hs => ?_, ?_⟩
  · rcases hv : Verdicts.frame s.cfg.rxBodyCap tfi f with e | p
    · exact exec_decodeFrame_error hs hv
    · exact exec_decodeFrame_ok hs hv
  · rcases hv : Verdicts.frame s.cfg.rxBodyCap tfi f with e | p
    · rcases hh : Verdicts.header s.cfg.rxBodyCap f with e' | len
      · exact run_decodeOperand_unstored hv (fun len h => by cases hh.symm.trans h)
      · by_cases hl : f.length = len.toNat + 7
        · simp only [if_pos hl]
          exact run_decodeOperand_stored hv hh hl
        · simp only [if_neg hl]
          exact run_decodeOperand_unstored hv (fun n h => by cases hh.symm.trans h; exact hl)
    · exact run_decodeOperand_ok hv

/-- Settles O18: the frame is `commandFrame`, which the checks accept (`Verdicts.frame_commandFrame`). -/
theorem decodeFrameOfEncodeFrame : Obligations.DecodeFrameOfEncodeFrame := by
  refine ⟨fun s cmd p hs hcfg hp hc => ?_, rfl⟩
  obtain ⟨-, hmax, -⟩ := hcfg
  exact ⟨commandFrame cmd p, exec_encodeFrame_fits hs hp,
    exec_decodeFrame_ok hs (Verdicts.frame_commandFrame cmd (hp.trans hmax) hc)⟩

/-- Settles O19: a flipped bit makes another byte (`flipBit_ne`), and no other LCS or DCS goes with an accepted frame. -/
theorem flippedChecksumOfFrame : Obligations.FlippedChecksumOfFrame := by
  intro s tfi f p k hs hk h
  obtain ⟨v, hv⟩ := frame_ok_of_exec_decodeFrame hs h
  exact ⟨exec_decodeFrame_error hs (Verdicts.frame_set_lcs hv (flipBit_ne hk _)),
    exec_decodeFrame_error hs (Verdicts.frame_set_dcs hv (flipBit_ne hk _))⟩

end Sys2Proof.Machine

/-! # Reads of the decoder

READ_ACK and READ_RESPONSE from a block at rest (43_decoder.md R201, R206): each answer to each of their reads ends the operation
or leads to the next read. An operation that is over has no call outstanding, so what an accepted response has taken of the
stream is known, and flipped checksum bits in it are flipped in its frame (R211). -/

namespace Sys2Proof.Machine

variable {s u : State} {i : Instr} {n : Nat} {k : Resume} {opc st len : Byte} {a h b bs f p : List Byte}
  {rest : List RxToken} {es : List Event} {e : Failure}

/-! ### An operation at a read -/

/-- A component operation that a block at rest `s` has accepted waits in `u` for the answer to a read of `n` bytes, with
`rest` next on XR and `es` shown since. -/
structure AwaitsRead (s : State) (i : Instr) (n : Nat) (k : Resume) (es : List Event) (rest : List RxToken)
    (u : State) : Prop where
  outstanding : u.outstanding = some ⟨.read n u.cfg.tCall, k⟩
  phase : u.phase = .idle
  cleared : u.cleared = { s with
    writeAnswers := s.writeAnswers, rx := rest, clock := s.clock, events := s.events ++ es }
  exec : ∀ v, Runs u v → turn v = none → exec i s = .next v

theorem awaitsRead_of_request (hs : s.AtRest) (hr : s.rx = rest)
    (hexec : exec i s = request i opc (transportRead n k) s) :
    ∃ u, AwaitsRead s i n k [.accepted opc] rest u := by
  refine ⟨{ s.accept i opc with outstanding := some ⟨.read n s.cfg.tCall, k⟩ }, rfl, phase_of_rest (s := s) hs, ?_,
    fun v hv ht => ?_⟩
  · rw [← hr]
    exact accept_call_cleared hs _ _ _
  · rw [hexec]
    exact request_call hs (runRule_eq (by rw [wp_transportRead]; rfl)) hv ht

/-- A failed read ends the operation with READ_FAILED. -/
theorem AwaitsRead.readFailed (hu : AwaitsRead s i n k (.accepted opc :: es) (stream bs ++ .fail :: rest) u)
    (hs : s.AtRest) (hk : StopsOnFailure k) (hb : bs.length < n) :
    Machine.exec i s = .next { s with
      rx := rest
      events := s.events ++
        failedWith opc (es ++ [.call (.read n s.cfg.tCall) .readFailed]) .readFailed .idle } := by
  refine hu.exec _ (runs_readFailed hu.outstanding hk hb hu.phase hu.cleared ?_) (turn_of_rest hs _ _ _ _)
  simp [failedWith]

/-- A read that has no answer yet keeps the operation waiting. -/
theorem AwaitsRead.unanswered (hu : AwaitsRead s i n k es rest u) (hr : takeRead n rest = none) :
    Machine.exec i s = .next u := by
  refine hu.exec u (.refl u) ?_
  simp only [turn, hu.outstanding, answerOf, rx_of_cleared hu.cleared, hr]

/-! ### READ_ACK -/

/-- ReadAck from any state: ACKBUF takes the seven bytes, and the six after the status byte are the sentinel or not. -/
theorem run_ackArrived (hl : a.length = 6) (s : State) :
    (ackArrived (.bytes (st :: a))).run s =
      if a = ackSeq then .ok () { s with ackbuf := writeBytes s.ackbuf 0 (st :: a) }
      else .error (.raised (.ackMismatch a)) { s with ackbuf := writeBytes s.ackbuf 0 (st :: a) } := by
  refine Rule.run_eq_of_wp ((wp_ackArrived (by simp [hl]) _).mpr ⟨fun ha => ?_, fun ha => ?_⟩)
  · rw [if_pos (show a = ackSeq from ha)]
  · rw [if_neg (show a ≠ ackSeq from ha)]
    rfl

/-- READ_ACK begins with its read of seven bytes. -/
theorem exec_readAck_start (hs : s.AtRest) (hr : s.rx = rest) :
    ∃ u, AwaitsRead s .readAck 7 .ackArrived [.accepted 0x06] rest u :=
  awaitsRead_of_request hs hr rfl

theorem exec_readAck_sentinel (hs : s.AtRest) (hr : s.rx = stream (st :: ackSeq) ++ rest) :
    exec .readAck s = .next { s with
      rx := rest
      events := s.events ++ succeeded 0x06 [.call (.read 7 s.cfg.tCall) (.bytes (st :: ackSeq))] 0x00 [] } := by
  obtain ⟨u, hu⟩ := exec_readAck_start hs hr
  refine hu.exec _ (runs_ack hu.outstanding hu.phase hu.cleared ?_) (turn_of_rest hs _ _ _ _)
  simp [succeeded, statusOk]

theorem exec_readAck_mismatch (hs : s.AtRest) (hl : a.length = 6) (ha : a ≠ ackSeq)
    (hr : s.rx = stream (st :: a) ++ rest) :
    exec .readAck s = .next { s with
      rx := rest
      events := s.events ++
        failedWith 0x06 [.call (.read 7 s.cfg.tCall) (.bytes (st :: a))] (.ackMismatch a) .idle } := by
  obtain ⟨u, hu⟩ := exec_readAck_start hs hr
  refine hu.exec _ (runs_ackMismatch hu.outstanding hl ha hu.phase hu.cleared ?_) (turn_of_rest hs _ _ _ _)
  simp [failedWith]

theorem exec_readAck_readFailed (hs : s.AtRest) (hb : bs.length < 7) (hr : s.rx = stream bs ++ .fail :: rest) :
    exec .readAck s = .next { s with
      rx := rest
      events := s.events ++ failedWith 0x06 [.call (.read 7 s.cfg.tCall) .readFailed] .readFailed .idle } := by
  obtain ⟨u, hu⟩ := exec_readAck_start hs hr
  exact hu.readFailed hs stopsOnFailure_ackArrived hb

/-- Settles O21: what ReadAck writes is `run_ackArrived`, and the three answers to its read each end READ_ACK. -/
theorem readAckOutcomes : Obligations.ReadAckOutcomes := by
  refine ⟨rfl, fun s st a hl => run_ackArrived hl s, fun s rest hs => ⟨fun st a hl hr => ?_, fun bs hb hr => ?_⟩⟩
  · split
    case isTrue ha =>
      subst ha
      exact exec_readAck_sentinel hs hr
    case isFalse ha => exact exec_readAck_mismatch hs hl ha hr
  · exact exec_readAck_readFailed hs hb hr

/-! ### READ_RESPONSE -/

theorem run_headerArrived_ok (hl : h.length = 5) (hv : Verdicts.header s.cfg.rxBodyCap h = .ok len) :
    (headerArrived (.bytes (st :: h))).run s = .ok () { s with
      hdrbuf := writeBytes s.hdrbuf 0 (st :: h)
      outstanding := some ⟨.read (len.toNat + 2) s.cfg.tCall, .bodyArrived len⟩ } := by
  refine Rule.run_eq_of_wp ((wp_headerArrived (by simp [hl]) _).mpr ?_)
  rw [List.drop_one, List.tail_cons, hv]
  rfl

theorem run_headerArrived_error (hl : h.length = 5) (hv : Verdicts.header s.cfg.rxBodyCap h = .error e) :
    (headerArrived (.bytes (st :: h))).run s =
      .error (.raised e) { s with hdrbuf := writeBytes s.hdrbuf 0 (st :: h) } := by
  refine Rule.run_eq_of_wp ((wp_headerArrived (by simp [hl]) _).mpr ?_)
  rw [List.drop_one, List.tail_cons, hv]
  rfl

theorem run_bodyArrived_ok (hl : b.length = len.toNat + 2) (hc : b.length ≤ s.cfg.rxBodyCap)
    (hv : Verdicts.body tfiCtrl len b = .ok p) :
    (bodyArrived len (.bytes b)).run s = .ok () (s.withPayload len b) := by
  refine Rule.run_eq_of_wp ((wp_bodyArrived hl hc _).mpr ?_)
  rw [hv]
  rfl

theorem run_bodyArrived_error (hl : b.length = len.toNat + 2) (hc : b.length ≤ s.cfg.rxBodyCap)
    (hv : Verdicts.body tfiCtrl len b = .error e) :
    (bodyArrived len (.bytes b)).run s = .error (.raised e) (s.withBody len b) := by
  refine Rule.run_eq_of_wp ((wp_bodyArrived hl hc _).mpr ?_)
  rw [hv]
  rfl

/-- READ_RESPONSE begins with its header read of six bytes. -/
theorem exec_readResponse_start (hs : s.AtRest) (hr : s.rx = rest) :
    ∃ u, AwaitsRead s .readResponse 6 .headerArrived [.accepted 0x07] rest u :=
  awaitsRead_of_request hs hr rfl

/-- A header that passes leads READ_RESPONSE to its body read. -/
theorem exec_readResponse_header (hs : s.AtRest) (hl : h.length = 5)
    (hv : Verdicts.header s.cfg.rxBodyCap h = .ok len) (hr : s.rx = stream (st :: h) ++ rest) :
    ∃ u, AwaitsRead s .readResponse (len.toNat + 2) (.bodyArrived len)
      [.accepted 0x07, .call (.read 6 s.cfg.tCall) (.bytes (st :: h))] rest u := by
  obtain ⟨t, ht⟩ := exec_readResponse_start hs hr
  obtain ⟨u, hruns, hphase, -, -, hout, hcleared⟩ := runs_goodHeader ht.outstanding hl hv ht.phase ht.cleared
  exact ⟨u, hout, hphase, by simpa using hcleared, fun v hv => ht.exec v (hruns.trans hv)⟩

theorem exec_readResponse_headerFailed (hs : s.AtRest) (hb : bs.length < 6)
    (hr : s.rx = stream bs ++ .fail :: rest) :
    exec .readResponse s = .next { s with
      rx := rest
      events := s.events ++ failedWith 0x07 [.call (.read 6 s.cfg.tCall) .readFailed] .readFailed .idle } := by
  obtain ⟨u, hu⟩ := exec_readResponse_start hs hr
  exact hu.readFailed hs stopsOnFailure_headerArrived hb

theorem exec_readResponse_badHeader (hs : s.AtRest) (hl : h.length = 5)
    (hv : Verdicts.header s.cfg.rxBodyCap h = .error e) (hr : s.rx = stream (st :: h) ++ rest) :
    exec .readResponse s = .next { s with
      rx := rest
      events := s.events ++ failedWith 0x07 [.call (.read 6 s.cfg.tCall) (.bytes (st :: h))] e .idle } := by
  obtain ⟨u, hu⟩ := exec_readResponse_start hs hr
  refine hu.exec _ (runs_badHeader hu.outstanding hl hv hu.phase hu.cleared ?_) (turn_of_rest hs _ _ _ _)
  simp [failedWith]

theorem exec_readResponse_bodyFailed (hs : s.AtRest) (hl : h.length = 5)
    (hv : Verdicts.header s.cfg.rxBodyCap h = .ok len) (hb : bs.length < len.toNat + 2)
    (hr : s.rx = stream (st :: h) ++ (stream bs ++ .fail :: rest)) :
    exec .readResponse s = .next { s with
      rx := rest
      events := s.events ++ failedWith 0x07
        [.call (.read 6 s.cfg.tCall) (.bytes (st :: h)), .call (.read (len.toNat + 2) s.cfg.tCall) .readFailed]
        .readFailed .idle } := by
  obtain ⟨u, hu⟩ := exec_readResponse_header hs hl hv hr
  exact hu.readFailed hs (stopsOnFailure_bodyArrived len) hb

theorem exec_readResponse_badBody (hs : s.AtRest) (hl : h.length = 5)
    (hv : Verdicts.header s.cfg.rxBodyCap h = .ok len) (hb : b.length = len.toNat + 2)
    (he : Verdicts.body tfiCtrl len b = .error e) (hr : s.rx = stream (st :: h) ++ (stream b ++ rest)) :
    exec .readResponse s = .next { s with
      rx := rest
      events := s.events ++ failedWith 0x07
        [.call (.read 6 s.cfg.tCall) (.bytes (st :: h)), .call (.read (len.toNat + 2) s.cfg.tCall) (.bytes b)]
        e .idle } := by
  obtain ⟨-, hc⟩ := Verdicts.header_ok hv
  obtain ⟨u, hu⟩ := exec_readResponse_header hs hl hv hr
  refine hu.exec _ (runs_badBody hu.outstanding hb hc he hu.phase hu.cleared ?_) (turn_of_rest hs _ _ _ _)
  simp [failedWith]

theorem exec_readResponse_ok (hs : s.AtRest) (hl : h.length = 5)
    (hv : Verdicts.header s.cfg.rxBodyCap h = .ok len) (hb : b.length = len.toNat + 2)
    (hp : Verdicts.body tfiCtrl len b = .ok p) (hr : s.rx = stream (st :: h) ++ (stream b ++ rest)) :
    exec .readResponse s = .next { s with
      rx := rest
      events := s.events ++ succeeded 0x07
        [.call (.read 6 s.cfg.tCall) (.bytes (st :: h)), .call (.read (len.toNat + 2) s.cfg.tCall) (.bytes b)]
        0x00 p } := by
  obtain ⟨-, hc⟩ := Verdicts.header_ok hv
  obtain ⟨u, hu⟩ := exec_readResponse_header hs hl hv hr
  refine hu.exec _ (runs_body hu.outstanding hb hc hp hu.phase hu.cleared ?_) (turn_of_rest hs _ _ _ _)
  simp [succeeded, statusOk]

/-- Settles O22: what the two halves of ReadResponse write follows the verdict on what they are given, and so does where the
answer to each read takes READ_RESPONSE. -/
theorem readResponseOutcomes : Obligations.ReadResponseOutcomes := by
  refine ⟨rfl, fun s st h hl => ?_, fun s len b hl hc => ?_,
    fun s rest hs => ⟨fun bs hb hr => ?_, fun st h e hl hv hr => ?_, fun st h len hl hv => ⟨fun bs hb hr => ?_,
      fun b hb hr => ?_⟩⟩⟩
  · rcases hv : Verdicts.header s.cfg.rxBodyCap h with e | len
    · exact run_headerArrived_error hl hv
    · exact run_headerArrived_ok hl hv
  · rcases hv : Verdicts.body 0xD5 len b with e | p
    · exact run_bodyArrived_error hl hc hv
    · exact run_bodyArrived_ok hl hc hv
  · exact exec_readResponse_headerFailed hs hb hr
  · exact exec_readResponse_badHeader hs hl hv hr
  · exact exec_readResponse_bodyFailed hs hl hv hb hr
  · rcases hp : Verdicts.body 0xD5 len b with e | p
    · exact exec_readResponse_badBody hs hl hv hb hp hr
    · exact exec_readResponse_ok hs hl hv hb hp hr

/-! ### What an accepted response has taken -/

/-- A read of `n` bytes finds them, or a failure before the last of them, or has no answer yet. -/
theorem takeRead_cases (n : Nat) (ts : List RxToken) :
    (∃ bs rest, ts = stream bs ++ rest ∧ bs.length = n) ∨
      (∃ bs rest, ts = stream bs ++ .fail :: rest ∧ bs.length < n) ∨ takeRead n ts = none := by
  induction n generalizing ts with
  | zero => exact .inl ⟨[], ts, rfl, rfl⟩
  | succ n ih =>
    match ts with
    | [] => exact .inr (.inr rfl)
    | .fail :: ts => exact .inr (.inl ⟨[], ts, rfl, Nat.succ_pos n⟩)
    | .byte c :: ts =>
      rcases ih ts with ⟨bs, rest, rfl, hl⟩ | ⟨bs, rest, rfl, hl⟩ | hnone
      · exact .inl ⟨c :: bs, rest, rfl, congrArg (· + 1) hl⟩
      · exact .inr (.inl ⟨c :: bs, rest, rfl, Nat.succ_lt_succ hl⟩)
      · exact .inr (.inr (by rw [takeRead, hnone]))

/-- An operation that waits for an answer is not over. -/
theorem next_ne_of_outstanding {o : Outstanding} {r : List RxToken} {es : List Event} (hs : s.AtRest)
    (ho : u.outstanding = some o) :
    (Host.Outcome.next u : Host.Outcome State Fault Refusal) ≠ .next { s with rx := r, events := es } := by
  intro h
  rw [Host.Outcome.next.inj h] at ho
  cases (outstanding_of_rest hs).symm.trans ho

/-- A response that READ_RESPONSE answers OK to is a header and a body that its checks accept, taken off XR. -/
theorem response_of_exec_readResponse (hs : s.AtRest)
    (h : exec .readResponse s = .next { s with rx := rest, events := s.events ++ succeeded 0x07 es 0x00 p }) :
    ∃ st head len b v, s.rx = stream (st :: head) ++ (stream b ++ rest) ∧ head.length = 5 ∧
      Verdicts.header s.cfg.rxBodyCap head = .ok len ∧ b.length = len.toNat + 2 ∧
      Verdicts.body tfiCtrl len b = .ok v := by
  rcases takeRead_cases 6 s.rx with ⟨hd, mid, hr, hl⟩ | ⟨bs, mid, hr, hl⟩ | hr
  · obtain ⟨st, head, rfl⟩ := List.exists_cons_of_length_pos (show 0 < hd.length by omega)
    have hl : head.length = 5 := by simpa using hl
    rcases hv : Verdicts.header s.cfg.rxBodyCap head with e | len
    · rw [exec_readResponse_badHeader hs hl hv hr] at h
      exact absurd h failed_ne_succeeded
    · rcases takeRead_cases (len.toNat + 2) mid with ⟨b, r, rfl, hb⟩ | ⟨bs, r, rfl, hb⟩ | hmid
      · rcases hp : Verdicts.body tfiCtrl len b with e | v
        · rw [exec_readResponse_badBody hs hl hv hb hp hr] at h
          exact absurd h failed_ne_succeeded
        · rw [exec_readResponse_ok hs hl hv hb hp hr] at h
          obtain rfl : r = rest := congrArg State.rx (Host.Outcome.next.inj h)
          exact ⟨st, head, len, b, v, hr, hl, hv, hb, hp⟩
      · rw [exec_readResponse_bodyFailed hs hl hv hb hr] at h
        exact absurd h failed_ne_succeeded
      · obtain ⟨u, hu⟩ := exec_readResponse_header hs hl hv hr
        rw [hu.unanswered hmid] at h
        exact absurd h (next_ne_of_outstanding hs hu.outstanding)
  · rw [exec_readResponse_headerFailed hs hl hr] at h
    exact absurd h failed_ne_succeeded
  · obtain ⟨u, hu⟩ := exec_readResponse_start hs rfl
    rw [hu.unanswered hr] at h
    exact absurd h (next_ne_of_outstanding hs hu.outstanding)

/-! ### A response as a frame -/

/-- READ_RESPONSE fails as the checks of a whole frame do, where the frame is as long as its LEN says. -/
theorem exec_readResponse_frame_error (hs : s.AtRest) (hl : f.length = (f.getD 3 0).toNat + 7)
    (hv : Verdicts.frame s.cfg.rxBodyCap tfiCtrl f = .error e) (hr : s.rx = stream (st :: f) ++ rest) :
    ∃ r es, exec .readResponse s =
      .next { s with rx := r, events := s.events ++ failedWith 0x07 es e .idle } := by
  obtain ⟨head, b, rfl, h5⟩ : ∃ head b, f = head ++ b ∧ head.length = 5 :=
    ⟨f.take 5, f.drop 5, (List.take_append_drop 5 f).symm, List.length_take_of_le (by omega)⟩
  have hr' : s.rx = stream (st :: head) ++ (stream b ++ rest) := by simpa using hr
  rw [List.length_append, h5, List.getD_append _ _ _ _ (by omega)] at hl
  rcases hh : Verdicts.header s.cfg.rxBodyCap head with e' | len
  · rw [Verdicts.frame_append_of_badHeader h5 hh] at hv
    cases hv
    exact ⟨_, _, exec_readResponse_badHeader hs h5 hh hr'⟩
  · obtain ⟨rfl, -⟩ := Verdicts.header_ok hh
    have hb : b.length = (head.getD 3 0).toNat + 2 := by omega
    rw [Verdicts.frame_append_of_header h5 hh hb] at hv
    exact ⟨_, _, exec_readResponse_badBody hs h5 hh hb hv hr'⟩

/-- Settles O20: an accepted response is an accepted frame, so the laws of flipped checksum bits are those of DECODE_FRAME. -/
theorem flippedChecksumOfResponse : Obligations.FlippedChecksumOfResponse := by
  intro s st f p es rest k hs hk h
  have hrest : ∀ r, ({ s with rx := r } : State).AtRest := fun r =>
    hs.with_channels s.offered s.writeAnswers r s.clock s.owed
  obtain ⟨st', head, len, b, v, hr, h5, hh, hb, hv⟩ :=
    response_of_exec_readResponse (s := { s with rx := stream (st :: f) ++ rest }) (hrest _) h
  obtain rfl : f = head ++ b := by
    have : stream (st :: f) ++ rest = stream (st' :: (head ++ b)) ++ rest := by simpa using hr
    have := List.map_injective_iff.mpr (fun _ _ => RxToken.byte.inj) (List.append_cancel_right this)
    exact (List.cons.inj this).2
  obtain ⟨hlen, -⟩ := Verdicts.header_ok hh
  have hv : Verdicts.frame s.cfg.rxBodyCap tfiCtrl (head ++ b) = .ok v := by
    rw [Verdicts.frame_append_of_header h5 hh hb, hv]
  have hwhole : ∀ n x, n ≠ 3 →
      ((head ++ b).set n x).length = (((head ++ b).set n x).getD 3 0).toNat + 7 := fun n x hn => by
    rw [List.getD_eq_getElem?_getD, List.getElem?_set_ne hn, ← List.getD_eq_getElem?_getD,
      List.getD_append _ _ _ _ (by omega), ← hlen, List.length_set, List.length_append]
    omega
  exact ⟨exec_readResponse_frame_error (hrest _) (hwhole 4 _ (by decide))
      (Verdicts.frame_set_lcs hv (flipBit_ne hk _)) rfl,
    exec_readResponse_frame_error (hrest _) (hwhole _ _ (by rw [List.length_append]; omega))
      (Verdicts.frame_set_dcs hv (flipBit_ne hk _)) rfl⟩

end Sys2Proof.Machine

/-! # Acks and responses on the wire

An ack frame and a response frame that meet the read that takes them (43_decoder.md R201, R206), whatever the phase and however
the outstanding call was timed: the bytes are delivered, and the operation in flight runs on with them. -/

namespace Sys2Proof.Machine

variable {s t : State} {i : Instr} {tc : Nat} {st rsp len : Byte} {d h : List Byte} {rest : List RxToken}

/-! ### An ack -/

/-- The outstanding ack read has been answered by the sentinel, and ACKBUF holds it. -/
def State.sawAck (s : State) (tc : Nat) (st : Byte) : State :=
  { s with
    outstanding := none, ackbuf := writeBytes s.ackbuf 0 (ackRead st)
    events := s.events ++ [.call (.read 7 tc) (.bytes (ackRead st))] }

/-- An ack frame makes the block go on where the caller of ReadAck does (43_decoder.md R201). -/
theorem exec_wireAck (ho : s.outstanding = some ⟨.read 7 tc, .ackArrived⟩)
    (h : (ackNext s.phase).wp (s.sawAck tc st) (fun _ u => u = t) (fun e u => u.fail e = t))
    (hb : t.budget = s.budget) (ht : turn t = none) : exec (.wireAck st) s = .next t := by
  have hruns : Runs (s.deliver (ackRead st)) t := by
    refine .one (s := s.deliver (ackRead st)) ho (answerOf_read (b := ackRead st) rfl rfl) (runRule_eq ?_) ?_
    · simp only [resume, wp_bind]
      rw [wp_ackArrived rfl]
      refine ⟨fun _ => ?_, fun hne => absurd rfl hne⟩
      rw [wp_afterAck]
      exact h
    · rw [hb]
      simp [State.budget, ackRead]
  exact hruns.advance ht

theorem turn_of_clock_unanswered {k : Resume} (ho : s.outstanding = some ⟨.clock, k⟩) (hc : s.clock = []) :
    turn s = none := by
  simp [turn, ho, answerOf, hc]

/-- Settles O39: where the block goes on is `ackNext` of the phase, to its end or to the clock query of its response poll. -/
theorem wireAckAccepted : Obligations.WireAckAccepted := by
  refine fun s st tc ho => ⟨fun hp => ?_, fun m hp hm hc => ?_⟩
  · refine exec_wireAck ho ?_ rfl (turn_of_not_outstanding rfl)
    rw [hp, ackNext, wp_reply, State.succeed_eq]
    simp [State.sawAck, State.cleared, State.discardCommand, statusOk, ackRead, ackSeq]
  · refine exec_wireAck ho ?_ rfl (turn_of_clock_unanswered rfl hc)
    rw [hp, ackNext]
    simp [State.sawAck, ackAccepted, hm, pollStart, State.log, State.setPhase, ackRead, ackSeq]

/-! ### A response -/

/-- The outstanding header read has been answered by the header `st :: h`, which gave `len`; `rest` is next on XR, and the body
read is outstanding. -/
def State.sawHeader (s : State) (tc : Nat) (st len : Byte) (h : List Byte) (rest : List RxToken) : State :=
  { s with
    rx := rest, hdrbuf := writeBytes s.hdrbuf 0 (st :: h)
    outstanding := some ⟨.read (len.toNat + 2) s.cfg.tCall, .bodyArrived len⟩
    events := s.events ++ [.call (.read 6 tc) (.bytes (st :: h))] }

theorem runRule_of_run_ok {r : Rule Unit} (h : r.run s = .ok () t) : runRule r s = .next t := by
  rw [runRule, h]

/-- A header that passes leads to the body read (43_decoder.md R206). -/
theorem runs_sawHeader (ho : s.outstanding = some ⟨.read 6 tc, .headerArrived⟩) (hl : h.length = 5)
    (hv : Verdicts.header s.cfg.rxBodyCap h = .ok len) (hr : s.rx = stream (st :: h) ++ rest) :
    Runs s (s.sawHeader tc st len h rest) := by
  refine .one ho (answerOf_read (b := st :: h) hr (by simp [hl])) ?_ ?_
  · exact runRule_of_run_ok (run_headerArrived_ok (s := ({ s with rx := rest, outstanding := none } : State).log _) hl hv)
  · simp [State.budget, State.sawHeader, hr]

/-- A response frame that fits, at the header read of a READ_RESPONSE, ends it with its payload (43_decoder.md R206, R208). -/
theorem exec_response_idle (hi : i.channel = .response) (henc : encode i = responseRead st rsp d) (hd : d.length ≤ 253)
    (hc : d.length + 4 ≤ s.cfg.rxBodyCap) (ho : s.outstanding = some ⟨.read 6 tc, .headerArrived⟩)
    (hp : s.phase = .idle) :
    exec i s = .next { s.cleared with
      events := s.events ++
        [.call (.read 6 tc) (.bytes (st :: responseHead d.length)),
          .call (.read (d.length + 4) s.cfg.tCall) (.bytes (responseBody rsp d)),
          .result (successMsg statusOk (tfiCtrl :: rsp :: d)), .phase .idle] } := by
  have hlen := ofNat_toNat_of_le hd
  have hhead : Runs (s.deliver (responseRead st rsp d)) ((s.deliver (responseRead st rsp d)).sawHeader tc st
      (BitVec.ofNat 8 (d.length + 2)) (responseHead d.length) (stream (responseBody rsp d) ++ s.rx)) :=
    runs_sawHeader ho (responseHead_length _) (header_responseHead hd hc) (by simp [responseRead])
  rw [exec_delivered (.inr (.inr hi)), henc, receive]
  refine (hhead.trans (runs_body (s := s.cleared) (w := s.writeAnswers) (c := s.clock) (rest := s.rx) rfl (by simp [hlen])
    (by simpa [hlen] using hc) (body_responseBody hd) hp rfl ?_)).advance (turn_of_not_outstanding rfl)
  simp [State.cleared, State.discardCommand, State.sawHeader, State.deliver, hlen]

/-- Settles O41: each of the three rows is a response of its own code whose data fits. -/
theorem wireResponseEndsReadResponse : Obligations.WireResponseEndsReadResponse := by
  rintro s i st rsp d tc hwf (⟨rfl, rfl, hd⟩ | ⟨rfl, rfl⟩ | ⟨rfl, rfl⟩) hc ho hp
  · match d, hd with
    | [_, _, _, _], _ => exact exec_response_idle rfl rfl (by simp) hc ho hp
  · exact exec_response_idle rfl rfl (of_decide_eq_true hwf) hc ho hp
  · exact exec_response_idle rfl rfl (of_decide_eq_true hwf) hc ho hp

end Sys2Proof.Machine

/-! # Moves of PHASE

Over an event, a run of events and a step alike, the events added take PHASE and CUR_OP from what they were to what they are, each
move of PHASE allowed where it stands (44_dispatcher.md R242). -/

namespace Sys2Proof.Machine

variable {s t u : State} {i : Instr}

/-- The events from `s` to `t` take PHASE and CUR_OP from their values in `s` to those in `t`. -/
def Tracked (s t : State) : Prop := ∃ new, t.events = s.events ++ new ∧ s.track.follow new = some t.track

theorem Tracked.refl (s : State) : Tracked s s := ⟨[], by simp, rfl⟩

theorem Tracked.trans (h : Tracked s t) (h' : Tracked t u) : Tracked s u := by
  obtain ⟨new, hev, hfollow⟩ := h
  obtain ⟨new', hev', hfollow'⟩ := h'
  refine ⟨new ++ new', by rw [hev', hev, List.append_assoc], ?_⟩
  rw [Track.follow_append, hfollow]
  exact hfollow'

/-- One event, and where it takes the block. -/
theorem Tracked.one {e : Event} (hev : t.events = s.events ++ [e]) (h : s.track.after e = some t.track) :
    Tracked s t := by
  refine ⟨[e], hev, ?_⟩
  rw [Track.follow, h]
  rfl

theorem tracked_accept (s : State) {opc : Byte} : Tracked s (s.accept i opc) := .one (e := .accepted opc) rfl rfl

theorem tracked_applyReset (s : State) : Tracked s s.applyReset :=
  .one s.applyReset_events (by simp [Track.after, State.track])

/-- A rule piece of the operation in flight moves PHASE along the table; where it ends the operation, CUR_OP is gone. -/
theorem Turned.tracked (h : Turned i s t) (hcur : s.curOp = i.opcode) : Tracked s t := by
  obtain ⟨new, hev, hfollow, -⟩ := h.events
  refine ⟨new, hev, ?_⟩
  rw [State.track, hcur, hfollow, State.track]
  cases hb : t.busy with
  | true =>
    obtain ⟨-, hcur', -⟩ := h.waits hb
    rw [if_pos rfl, hcur', hcur]
  | false =>
    have hnone : t.curOp = none := by rw [← h.ended hb]; rfl
    rw [if_neg nofun, hnone]

theorem turn_tracked (h : s.Inv) (ht : turn s = some (.next t)) : Tracked s t := by
  obtain ⟨i, c, k, a, u, v, -, hcur, -, ha, heq, hturned⟩ := turn_turned h ht
  cases heq
  obtain ⟨-, ⟨w, r, cl, rfl⟩, -⟩ := answerOf_some ha
  have hcall : Tracked s (State.answered { s with writeAnswers := w, rx := r, clock := cl } c a) :=
    .one (e := .call c a) rfl rfl
  exact hcall.trans (hturned.tracked hcur)

theorem advance_tracked (h : s.Inv) (ht : advance s = .next t) : Tracked s t := by
  obtain ⟨hruns, -⟩ := advance_runs h ht
  refine (hruns.keeps (P := fun u => Tracked s u ∧ u.Inv) ?_ ⟨.refl s, h⟩).1
  rintro u v ⟨htrack, hu⟩ hv
  obtain ⟨_, heq, hinv, -⟩ := turn_inv hu hv
  cases heq
  exact ⟨htrack.trans (turn_tracked hu hv), hinv⟩

/-- Settles O47: a step is an acceptance, a reset, or a run of events (`Stepped`), and each is followed by its events. -/
theorem phaseFollowsTransitions : Obligations.PhaseFollowsTransitions := by
  intro s t h ht
  show Tracked s t
  cases stepped_of_next h ht with
  | reset => exact tracked_applyReset s
  | goesOn _ _ hadv =>
    have hgo : Tracked s.dropOwed t := advance_tracked h.dropOwed hadv
    exact hgo
  | @abandoned i opc rest =>
    exact (tracked_accept (s.taking rest)).trans (tracked_applyReset ((s.taking rest).accept i opc))
  | @accepted i opc rest v _ _ _ _ hopc hv hvinv hadv =>
    have hacc : Tracked s ((s.taking rest).accept i opc) := tracked_accept (s.taking rest)
    exact (hacc.trans (hv.tracked hopc.symm)).trans (advance_tracked hvinv hadv)

end Sys2Proof.Machine

/-! # Command frames

The frames of 44_dispatcher.md R249 to R254, and the event of a command frame (log entry 10): it is the answer `OK` to the write
of that frame, or no event of the block. -/

namespace Sys2Proof.Machine

variable {s : State} {i : Instr} {tc : Nat}

/-- A command frame whose write is outstanding starts the ack poll of its Exchange (44_dispatcher.md R241). -/
theorem runs_frameWritten (ho : s.outstanding = some ⟨.write (encode i) tc, .frameWritten⟩) {w : List Bool}
    (hw : s.writeAnswers = true :: w) :
    Runs s { s with
      writeAnswers := w, phase := .ackPending, pollTmo := some tAckMs, outstanding := some ⟨.clock, .pollStarted⟩
      events := s.events ++
        [.call (.write (encode i) tc) (.written true), .phase .transmitted, .phase .ackPending] } := by
  refine .one ho (answerOf_write hw) (runRule_eq ?_) (by simp [State.budget, hw])
  simp [resume, frameWritten, pollStart, State.log, State.setPhase]

/-! ### The statements -/

/-- Settles O5: each frame is its layout (`commandFrame`, `responseRead`) with the checksums computed; no status byte and no
parameter of a configuration is looked at. -/
theorem wireFrames : Obligations.WireFrames :=
  ⟨rfl, rfl, fun _ => rfl, rfl, fun _ => rfl, fun _ => rfl, fun _ => rfl, fun _ => rfl⟩

/-- Settles O37: the event is the write's answer (`runs_frameWritten`), and no clock answers the query that follows it. -/
theorem wireCommandStartsAckPoll : Obligations.WireCommandStartsAckPoll := by
  intro s i tc hi ho hc
  rw [exec_command hi, transmitFrame_written ho s.writeAnswers]
  exact (runs_frameWritten (s := { s with writeAnswers := true :: s.writeAnswers }) ho rfl).advance
    (turn_of_clock_unanswered rfl hc)

/-- Settles O38: only the write of that frame takes it. -/
theorem wireCommandElsewhereRefused : Obligations.WireCommandElsewhereRefused := by
  intro s i hi hne
  rw [exec_command hi, transmitFrame]
  split
  · rename_i f tc k ho
    exact if_neg fun heq : f = encode i => hne tc k (heq ▸ ho)
  · rfl

end Sys2Proof.Machine

/-! # Commands of the dispatcher that get their reply

A validated response stands in RXBUF (`Answered`). What the response-code check and the command's success criterion then make of
it (44_dispatcher.md R243, R245 to R248) is said once, for a command that a block at rest has sent and for one in flight. -/

namespace Sys2Proof.Machine

variable {s t u : State} {i : Instr} {cmd rsp : Byte} {d : List Byte} {m : Millis}
  {w : List Bool} {rest : List RxToken} {c : List Nat} {es es' : List Event}

/-! ### The success criteria on a validated response -/

section Criteria

variable {R : Failure → State → Prop} {Q : Unit → State → Prop}

/-- A version payload is six bytes exactly where the response has four data bytes. -/
theorem Answered.plen_eq_six (h : Answered u rsp d) : BitVec.ofNat 8 (d.length + 2) = 6 ↔ d.length = 4 := by
  rw [← BitVec.toNat_inj, ofNat_toNat_of_le h.frame]
  simp

theorem wp_gfvCriterion_answered (h : Answered u rsp d) :
    gfvCriterion.wp u Q R ↔ (d.length = 4 → Q () (u.setPhase .done)) ∧
      (d.length ≠ 4 → R (.badPayloadShape (BitVec.ofNat 8 (d.length + 2))) u) := by
  rw [wp_gfvCriterion h.plen, h.plen_eq_six, ne_eq, h.plen_eq_six]

/-- GET_FIRMWARE_VERSION replies with the four data bytes (44_dispatcher.md R245). -/
theorem wp_gfvFinish (h : Answered u rsp d) :
    gfvFinish.wp u Q R ↔ (d.length = 4 → Q () ((u.setPhase .done).succeed statusOk d)) ∧
      (d.length ≠ 4 → R (.badPayloadShape (BitVec.ofNat 8 (d.length + 2))) u) := by
  obtain ⟨mem, hbody⟩ := h.body
  rw [gfvFinish, wp_bind, wp_gfvCriterion_answered h]
  refine and_congr_left fun _ => forall_congr' fun h4 => ?_
  have hdata : ((responseBody rsp d).drop 2).take 4 = d := by
    rw [← h4]
    simp [responseBody]
  rw [wp_bind, wp_readBody (s := u.setPhase .done) hbody (by simpa using h.capacity) (by simp [h4]), hdata, wp_reply]

/-- CONFIGURE_SAM replies whatever the data (44_dispatcher.md R246). -/
theorem wp_samFinish : samFinish.wp u Q R ↔ Q () ((u.setPhase .done).succeed statusOk []) := by
  simp only [samFinish, wp_bind, wp_setPhase, wp_reply]

/-- READ_PASSIVE_TARGET_A replies with what the parser finds in the payload, or fails as the parser does (44_dispatcher.md
R247). -/
theorem wp_targetFinish (h : Answered u rsp d) (ho : u.operands = some (.readPassiveTargetA m))
    (hnone : Verdicts.target (tfiCtrl :: rsp :: d) u.cfg.uidCap = .ok none →
      Q () ((u.setPhase .done).succeed statusNoTarget []))
    (hfound : ∀ uid, Verdicts.target (tfiCtrl :: rsp :: d) u.cfg.uidCap = .ok (some uid) →
      Q () ((u.setPhase .done).succeed statusOk uid))
    (herr : ∀ e, Verdicts.target (tfiCtrl :: rsp :: d) u.cfg.uidCap = .error e → R e u) :
    targetFinish.wp u Q R := by
  have hcap : u.cfg.uidCap = u.capacity .uid := by simp [State.capacity, ho, uidCapacity]
  simp only [targetFinish, wp_bind, wp_get]
  rw [wp_validatedPayload_answered h]
  refine wp_parseTarget hcap (fun hv => ?_) (fun n hv hlen hn => ?_) herr
  · rw [wp_setPhase, wp_replyTarget_false]
    exact hnone hv
  · rw [wp_setPhase, wp_replyTarget_true (m := u.uidbuf) (n := n) rfl (by simp at hlen ⊢; omega) rfl (hcap ▸ hn),
      State.succeed_eq]
    -- the UID is in UIDBUF only until the reply that ends the operation
    have hreply := hfound _ hv
    rw [State.succeed_eq] at hreply
    exact hreply

end Criteria

/-! ### Where the response-code check leads -/

/-- From `u`, in which a validated response stands, Exchange ends the operation in `t`, or goes on with another command to
wait in it. -/
def EndsIn (u t : State) : Prop := responseAccepted.wp u (fun _ v => v = t) (fun e v => v.fail e = t)

/-- Another code than the command's plus one is a mismatch, whatever the operation (44_dispatcher.md R243). -/
theorem endsIn_mismatch (ha : Answered u rsp d) (hcmd : u.cmd = some cmd) (hrsp : rsp ≠ cmd + 1)
    (hu : u.cleared = { s with writeAnswers := w, rx := rest, clock := c, events := es })
    (he : es' = es ++ [.phase .failed, .result (failureMsg (.protocolMismatch rsp) .responsePending), .phase .idle]) :
    EndsIn u { s with writeAnswers := w, rx := rest, clock := c, events := es' } := by
  rw [EndsIn, wp_responseAccepted ha hcmd]
  exact ⟨fun h => absurd h hrsp, fun _ => fail_at hu _ _ ha.phase he⟩

/-- The command's code plus one leads to the criterion of the operation. -/
theorem endsIn_criterion (ha : Answered u (cmd + 1) d) (hcmd : u.cmd = some cmd) (ho : u.operands = some i)
    (h : (criterion cmd (some i)).wp u (fun _ v => v = t) (fun e v => v.fail e = t)) : EndsIn u t := by
  rw [EndsIn, wp_responseAccepted ha hcmd, ho]
  exact ⟨fun _ => h, fun hne => absurd rfl hne⟩

/-- Four data bytes end GET_FIRMWARE_VERSION with them. -/
theorem endsIn_version (ha : Answered u (cmdGfv + 1) d) (hcmd : u.cmd = some cmdGfv)
    (ho : u.operands = some .getFirmwareVersion) (hd : d.length = 4)
    (hu : u.cleared = { s with writeAnswers := w, rx := rest, clock := c, events := es })
    (he : es' = es ++ [.phase .done, .result (successMsg statusOk d), .phase .idle]) :
    EndsIn u { s with writeAnswers := w, rx := rest, clock := c, events := es' } := by
  refine endsIn_criterion ha hcmd ho ((wp_gfvFinish ha).mpr ⟨fun _ => ?_, fun hne => absurd hd hne⟩)
  exact setPhase_succeed_at hu _ _ _ he

/-- Any other number of data bytes ends GET_FIRMWARE_VERSION, and BEGIN's wake command, with BAD_PAYLOAD_SHAPE. -/
theorem endsIn_badShape (ha : Answered u (cmdGfv + 1) d) (hcmd : u.cmd = some cmdGfv) (ho : u.operands = some i)
    (hi : firstCommand i = some cmdGfv) (hd : d.length ≠ 4)
    (hu : u.cleared = { s with writeAnswers := w, rx := rest, clock := c, events := es })
    (he : es' = es ++ [.phase .failed,
      .result (failureMsg (.badPayloadShape (BitVec.ofNat 8 (d.length + 2))) .responsePending), .phase .idle]) :
    EndsIn u { s with writeAnswers := w, rx := rest, clock := c, events := es' } := by
  have hfail := fail_at hu (.badPayloadShape (BitVec.ofNat 8 (d.length + 2))) _ ha.phase he
  refine endsIn_criterion ha hcmd ho ?_
  match i, hi with
  | .getFirmwareVersion, _ => exact (wp_gfvFinish ha).mpr ⟨fun h4 => absurd h4 hd, fun _ => hfail⟩
  | .beginOp, _ =>
    rw [criterion, beginFinish, if_pos rfl, wp_bind, wp_gfvCriterion_answered ha]
    exact ⟨fun h4 => absurd h4 hd, fun _ => hfail⟩

/-- SAMConfiguration ends its operation, CONFIGURE_SAM or BEGIN, with OK. -/
theorem endsIn_sam (ha : Answered u (cmdSam + 1) d) (hcmd : u.cmd = some cmdSam)
    (ho : u.operands = some .configureSam ∨ u.operands = some .beginOp)
    (hu : u.cleared = { s with writeAnswers := w, rx := rest, clock := c, events := es })
    (he : es' = es ++ [.phase .done, .result (successMsg statusOk []), .phase .idle]) :
    EndsIn u { s with writeAnswers := w, rx := rest, clock := c, events := es' } := by
  have hend := setPhase_succeed_at hu statusOk [] _ he
  rcases ho with ho | ho
  · exact endsIn_criterion ha hcmd ho (wp_samFinish.mpr hend)
  · refine endsIn_criterion ha hcmd ho ?_
    rw [criterion, beginFinish, if_neg (by decide), wp_samFinish]
    exact hend

/-- The events of the end of READ_PASSIVE_TARGET_A on a verdict of the parser. -/
def targetEnd : Except Failure (Option (List Byte)) → List Event
  | .ok none => [.phase .done, .result (successMsg statusNoTarget []), .phase .idle]
  | .ok (some uid) => [.phase .done, .result (successMsg statusOk uid), .phase .idle]
  | .error e => [.phase .failed, .result (failureMsg e .responsePending), .phase .idle]

/-- InListPassiveTarget ends READ_PASSIVE_TARGET_A with the parser's outcome. -/
theorem endsIn_target (ha : Answered u (cmdInlpt + 1) d) (hcmd : u.cmd = some cmdInlpt)
    (ho : u.operands = some (.readPassiveTargetA m))
    (hu : u.cleared = { s with writeAnswers := w, rx := rest, clock := c, events := es })
    (he : es' = es ++ targetEnd (Verdicts.target (tfiCtrl :: (cmdInlpt + 1) :: d) s.cfg.uidCap)) :
    EndsIn u { s with writeAnswers := w, rx := rest, clock := c, events := es' } := by
  have hcfg : u.cfg = s.cfg := by rw [cfg_of_cleared hu]
  refine endsIn_criterion ha hcmd ho (wp_targetFinish ha ho (fun hv => ?_) (fun uid hv => ?_) fun e hv => ?_) <;>
    rw [← hcfg, hv] at he
  · exact setPhase_succeed_at hu _ _ _ he
  · exact setPhase_succeed_at hu _ _ _ he
  · exact fail_at hu _ _ ha.phase he

/-! ### Commands sent by a block at rest -/

/-- Settles O26: the reply is validated, and its code and its four data bytes end the operation (`endsIn_version`). -/
theorem getFirmwareVersionReturns : Obligations.GetFirmwareVersionReturns := by
  refine ⟨rfl, fun s r w rest c ic ver rev sup hs hcfg hf hrsp hdata hw hr hc => ?_⟩
  refine exec_replied_end (cmd := cmdGfv) hs hcfg rfl rfl rfl hf hw hr hc fun u hu hop hcmd ha => ?_
  rw [hrsp, hdata] at ha
  exact endsIn_version ha hcmd hop rfl hu (by simp [succeeded, cmdGfv, statusOk])

/-- Settles O27: the criterion of the two operations that send GetFirmwareVersion first is one (`endsIn_badShape`). -/
theorem versionPayloadShape : Obligations.VersionPayloadShape := by
  intro s i opc r w rest c hs hcfg ho hi hf hrsp hd hw hr hc
  have hb : responseBound (some i) = some tRspMs := match i, hi with
    | .getFirmwareVersion, _ => rfl
    | .beginOp, _ => rfl
  refine exec_replied_end (cmd := cmdGfv) hs hcfg ho hi hb hf hw hr hc fun u hu hop hcmd ha => ?_
  rw [hrsp] at ha
  exact endsIn_badShape ha hcmd hop hi hd hu (by simp [failedWith, cmdGfv])

/-- Settles O28: the code alone ends the operation (`endsIn_sam`). -/
theorem configureSamSucceeds : Obligations.ConfigureSamSucceeds := by
  refine ⟨rfl, fun s r w rest c hs hcfg hf hrsp hw hr hc => ?_⟩
  refine exec_replied_end (cmd := cmdSam) hs hcfg rfl rfl rfl hf hw hr hc fun u hu hop hcmd ha => ?_
  rw [hrsp] at ha
  exact endsIn_sam ha hcmd (.inl hop) hu (by simp [succeeded, cmdSam, statusOk])

/-- Settles O29: the payload goes to the parser, and each of its outcomes ends the operation (`endsIn_target`). -/
theorem readPassiveTargetReturns : Obligations.ReadPassiveTargetReturns := by
  refine ⟨fun m => rfl, fun s m r w rest c hs hcfg hf hrsp hw hr hc => ?_⟩
  refine exec_replied_end (cmd := cmdInlpt) hs hcfg rfl rfl rfl hf hw hr hc fun u hu hop hcmd ha => ?_
  rw [hrsp] at ha
  refine endsIn_target ha hcmd hop hu ?_
  rw [show [0xD5, 0x4B] ++ r.data = tfiCtrl :: (cmdInlpt + 1) :: r.data from rfl]
  rcases Verdicts.target (tfiCtrl :: (cmdInlpt + 1) :: r.data) s.cfg.uidCap with e | _ | uid
  · simp [failedWith, targetEnd, cmdInlpt]
  · simp [succeeded, targetEnd, statusNoTarget, cmdInlpt]
  · simp [succeeded, targetEnd, statusOk, cmdInlpt]

end Sys2Proof.Machine

/-! # Failures of a command, and BEGIN

Each command that a dispatcher operation sends (`Leads`) is followed to the call that fails: its write, a sample or the time after
one, its ack read, a read of its response, or to the code of a valid response (44_dispatcher.md R241, R243). BEGIN's second command
is one of them (R248). -/

namespace Sys2Proof.Machine

variable {s x y : State} {i : Instr} {opc cmd st len : Byte} {l : Lead} {b m : Millis} {r : Reply} {a : Acked} {v : Wait}
  {w : List Bool} {q rest : List RxToken} {c k : List Nat} {es : List Event} {p : Phase} {bs h : List Byte} {e : Failure}

/-! ### An operation on its way -/

/-- The operation `i` that a block at rest `s` has accepted is at `x`, with `w`, `q` and `k` next on the answer channels and
`es` shown since its acceptance. -/
structure Reaches (s : State) (i : Instr) (opc : Byte) (w : List Bool) (q : List RxToken) (k : List Nat) (es : List Event)
    (x : State) : Prop where
  cleared : x.cleared = { s with
    writeAnswers := w, rx := q, clock := k, events := s.events ++ .accepted opc :: es }
  exec : ∀ v, Runs x v → turn v = none → exec i s = .next v

theorem Reaches.cfg (h : Reaches s i opc w q k es x) : x.cfg = s.cfg := by
  rw [cfg_of_cleared h.cleared]

/-- What follows in the same operation is reached too. -/
theorem Reaches.along {w' : List Bool} {q' : List RxToken} {k' : List Nat} {es' : List Event}
    (h : Reaches s i opc w q k es x) (hxy : Along x w' q' k' es' y) : Reaches s i opc w' q' k' (es ++ es') y := by
  refine ⟨?_, fun v hv => h.exec v (hxy.runs.trans hv)⟩
  rw [hxy.cleared, h.cleared, events_of_cleared h.cleared]
  simp

/-- A poll goes through a wait to the sample after it. -/
theorem Reaches.wait (h : Reaches s i opc w (stream v.samples ++ q) (v.times ++ k) es x) (hx : Polling x b p)
    (hv : v.Within b) :
    ∃ y, Reaches s i opc w q k (es ++ v.calls s.cfg.tCall) y ∧ y.phase = p ∧ Sampling y b v.t0 := by
  obtain ⟨y, hxy, hph, hsampling⟩ :=
    Along.wait hx.outstanding hx.tmo (rx_of_cleared h.cleared) (clock_of_cleared h.cleared) hv
  have hy := h.along hxy
  rw [h.cfg, writeAnswers_of_cleared h.cleared] at hy
  exact ⟨y, hy, hph.trans hx.phase, hsampling⟩

/-- A poll that sees a ready sample is followed by a read. -/
theorem Reaches.ready {n : Nat} {j : Resume}
    (h : Reaches s i opc w (stream v.samples ++ .byte ready :: q) (v.times ++ k) es x) (hx : Polling x b p)
    (hv : v.Within b) (hnext : pollNext p = transportRead n j) :
    ∃ y, Reaches s i opc w q k (es ++ v.readyCalls s.cfg.tCall) y ∧ y.phase = p ∧
      y.outstanding = some ⟨.read n y.cfg.tCall, j⟩ := by
  obtain ⟨y, hxy, hph, hout⟩ :=
    Along.pollReady hx hnext (rx_of_cleared h.cleared) (clock_of_cleared h.cleared) hv
  have hy := h.along hxy
  rw [h.cfg, writeAnswers_of_cleared h.cleared] at hy
  exact ⟨y, hy, hph, by rw [hxy.cfg]; exact hout⟩

/-! ### The ends of an operation on its way -/

theorem Reaches.readFailed {n : Nat} {j : Resume} (h : Reaches s i opc w (stream bs ++ .fail :: rest) c es x)
    (hs : s.AtRest) (hp : x.phase = p) (ho : x.outstanding = some ⟨.read n x.cfg.tCall, j⟩) (hj : StopsOnFailure j)
    (hb : bs.length < n) :
    Machine.exec i s = .next { s with
      writeAnswers := w, rx := rest, clock := c
      events := s.events ++ failedWith opc (es ++ [.call (.read n s.cfg.tCall) .readFailed]) .readFailed p } := by
  refine h.exec _ (runs_readFailed ho hj hb hp h.cleared ?_) (turn_of_rest hs _ _ _ _)
  simp [failedWith]

/-- A sample that is not ready, at or past the bound of its poll, ends the operation. -/
theorem Reaches.timeout {t0 t : Nat} {z : Byte} (h : Reaches s i opc w (.byte z :: rest) (t :: c) es x) (hs : s.AtRest)
    (hp : x.phase = p) (hx : Sampling x b t0) (hz : z ≠ Machine.ready) (ht : t0 + b.toNat ≤ t) :
    Machine.exec i s = .next { s with
      writeAnswers := w, rx := rest, clock := c
      events := s.events ++
        failedWith opc (es ++ [sampleCall s.cfg.tCall z, clockCall t]) (.timeout z) p } := by
  refine h.exec _ (runs_timeout hx hz ht hp h.cleared ?_) (turn_of_rest hs _ _ _ _)
  simp [failedWith]

/-- A header that passes leads to the body read. -/
theorem Reaches.goodHeader (hx : Reaches s i opc w (stream (st :: h) ++ q) k es x) (hp : x.phase = p)
    (ho : x.outstanding = some ⟨.read 6 x.cfg.tCall, .headerArrived⟩) (hl : h.length = 5)
    (hv : Verdicts.header s.cfg.rxBodyCap h = .ok len) :
    ∃ y, Reaches s i opc w q k (es ++ [.call (.read 6 s.cfg.tCall) (.bytes (st :: h))]) y ∧ y.phase = p ∧
      y.outstanding = some ⟨.read (len.toNat + 2) y.cfg.tCall, .bodyArrived len⟩ := by
  obtain ⟨y, hruns, hph, -, -, hout, hcleared⟩ := runs_goodHeader ho hl hv hp hx.cleared
  exact ⟨y, ⟨by simpa using hcleared, fun v hv => hx.exec v (hruns.trans hv)⟩, hph, hout⟩

theorem turn_of_write_unanswered {f : List Byte} {tc : Nat} {j : Resume} (ho : s.outstanding = some ⟨.write f tc, j⟩)
    (hw : s.writeAnswers = []) : turn s = none := by
  simp [turn, ho, answerOf, hw]

/-! ### The points of a command -/

/-- A command that gets a reply ends where the response-code check leads. -/
theorem exec_led_replied (hs : s.AtRest) (hcfg : s.cfg.InRange) (ho : i.opcode = some opc) (hl : Leads s.cfg i cmd l)
    (hm : responseBound (some i) = some m) (hf : r.Fits s.cfg m) (hw : s.writeAnswers = l.writes ++ true :: w)
    (hr : s.rx = stream (l.bytes ++ r.bytes) ++ rest) (hc : s.clock = l.times ++ (r.times ++ c))
    (H : ∀ u, u.cleared = { s with
          writeAnswers := w, rx := rest, clock := c
          events := s.events ++ .accepted opc :: (l.events ++ r.events s.cfg cmd) } →
      u.operands = some i → u.cmd = some cmd → Answered u r.rsp r.data →
      EndsIn u { s with writeAnswers := w, rx := rest, clock := c, events := s.events ++ es }) :
    exec i s = .next { s with writeAnswers := w, rx := rest, clock := c, events := s.events ++ es } := by
  obtain ⟨x, hx, hop, hexec⟩ := exec_led (rest := stream r.bytes ++ rest) hs hcfg ho hl hw (by simpa using hr) hc
  have hxcfg : x.cfg = s.cfg := by rw [cfg_of_cleared hx]
  obtain ⟨u, hu, huop, hucmd, -, ha, -, hruns⟩ := Along.replied (s := x) (cmd := cmd) (writeAnswers_of_cleared hx)
    (rx_of_cleared hx) (clock_of_cleared hx) (hxcfg ▸ hf) (hop ▸ hm)
  have hu' : u.cleared = { s with
      writeAnswers := w, rx := rest, clock := c
      events := s.events ++ .accepted opc :: (l.events ++ r.events s.cfg cmd) } := by
    rw [hu, hx, hxcfg, events_of_cleared hx]
    simp
  have hend := hruns _ (H u hu' (huop.trans hop) hucmd ha) (by rw [budget_of_cleared hu']; rfl)
  rw [hxcfg] at hend
  exact hexec _ hend (turn_of_rest hs _ _ _ _)

/-- A write that fails ends the operation. -/
theorem runs_writeFailed {f : List Byte} (ho : x.outstanding = some ⟨.write f x.cfg.tCall, .frameWritten⟩)
    (hp : x.phase = p)
    (hx : x.cleared = { s with writeAnswers := false :: w, rx := rest, clock := c, events := es })
    (hy : y = { s with
      writeAnswers := w, rx := rest, clock := c
      events := es ++ [.call (.write f s.cfg.tCall) (.written false), .phase .failed,
        .result (failureMsg .writeFailed p), .phase .idle] }) : Runs x y := by
  subst hy
  have hcfg : x.cfg = s.cfg := by rw [cfg_of_cleared hx]
  refine .one ho (answerOf_write (writeAnswers_of_cleared hx)) (runRule_eq ?_) ?_
  · rw [resume, frameWritten, wp_raise]
    refine fail_at (es := es ++ [.call (.write f s.cfg.tCall) (.written false)]) ?_ _ p hp (by simp)
    have hcall : ∀ z : Event, (({ x with
        writeAnswers := w, rx := x.rx, clock := x.clock, outstanding := none } : State).log z).cleared =
        { x.cleared with writeAnswers := w, events := x.events ++ [z] } := fun _ => rfl
    rw [hcall, hx, events_of_cleared hx, hcfg]
  · rw [budget_of_cleared hx]
    simp [State.budget]

/-- A command whose write fails ends the operation. -/
theorem exec_led_writeFailed (hs : s.AtRest) (hcfg : s.cfg.InRange) (ho : i.opcode = some opc)
    (hl : Leads s.cfg i cmd l) (hw : s.writeAnswers = l.writes ++ false :: w) (hr : s.rx = stream l.bytes ++ rest)
    (hc : s.clock = l.times ++ c) :
    exec i s = .next { s with
      writeAnswers := w, rx := rest, clock := c
      events := s.events ++ failedWith opc (l.events ++ writing s.cfg cmd false) .writeFailed .encoded } := by
  obtain ⟨x, hx, -, hexec⟩ := exec_led hs hcfg ho hl hw hr hc
  have hsent : (x.sending cmd (commandPayload s.cfg cmd)).cleared = { s with
      writeAnswers := false :: w, rx := rest, clock := c
      events := s.events ++ .accepted opc :: l.events ++ [.phase .encoded] } := by
    rw [sending_cleared, hx, events_of_cleared hx]
  refine hexec _ (runs_writeFailed (p := .encoded) (f := sentFrame s.cfg cmd) rfl rfl hsent ?_) (turn_of_rest hs _ _ _ _)
  simp [failedWith, writing]

/-- A command whose write is answered `OK` is at its ack poll. -/
theorem reaches_ackPoll (hs : s.AtRest) (hcfg : s.cfg.InRange) (ho : i.opcode = some opc) (hl : Leads s.cfg i cmd l)
    (hw : s.writeAnswers = l.writes ++ true :: w) (hr : s.rx = stream l.bytes ++ q) (hc : s.clock = l.times ++ k) :
    ∃ x, Reaches s i opc w q k (l.events ++ written s.cfg cmd) x ∧ Polling x tAckMs .ackPending := by
  obtain ⟨x, hx, -, hpoll, hexec⟩ := exec_written hs hcfg ho hl hw hr hc
  exact ⟨x, ⟨hx, hexec⟩, hpoll⟩

/-- A command that is acknowledged is at its response poll. -/
theorem reaches_responsePoll (hs : s.AtRest) (hcfg : s.cfg.InRange) (ho : i.opcode = some opc) (hl : Leads s.cfg i cmd l)
    (hm : responseBound (some i) = some m) (hw : s.writeAnswers = l.writes ++ true :: w) (ha : a.wait.Within tAckMs)
    (hr : s.rx = stream (l.bytes ++ a.bytes) ++ q) (hc : s.clock = l.times ++ (a.wait.times ++ k)) :
    ∃ x, Reaches s i opc w q k (l.events ++ a.events s.cfg cmd) x ∧ Polling x m .responsePending := by
  obtain ⟨x, hx, -, hpoll, hexec⟩ := exec_acked hs hcfg ho hl hm hw ha hr hc
  exact ⟨x, ⟨hx, hexec⟩, hpoll⟩

/-! ### The statements -/

/-- Settles O31: the mismatch is found before the command's criterion (`endsIn_mismatch`). -/
theorem otherCodeIsMismatch : Obligations.OtherCodeIsMismatch := by
  intro s i opc cmd l b r w rest c hs hcfg ho hl hb hf hrsp hw hr hc
  refine exec_led_replied hs hcfg ho hl hb hf hw hr hc fun u hu _ hcmd ha => ?_
  exact endsIn_mismatch ha hcmd hrsp hu (by simp [failedWith])

/-- Settles O32: the write is the command's one call (`exec_led_writeFailed`). -/
theorem failedWriteEndsCommand : Obligations.FailedWriteEndsCommand :=
  fun _ _ _ _ _ _ _ _ => exec_led_writeFailed

/-- Settles O33: the two answers that end an ack poll after a wait. -/
theorem ackPollFailures : Obligations.AckPollFailures := by
  intro s i opc cmd l v w rest c hs hcfg ho hl hw hv
  refine ⟨fun z t hz ht hr hc => ?_, fun hr hc => ?_⟩
  · obtain ⟨x, hx, hpoll⟩ := reaches_ackPoll (q := stream v.samples ++ .byte z :: rest) hs hcfg ho hl hw
      (by simpa using hr) hc
    obtain ⟨y, hy, hph, hsampling⟩ := hx.wait hpoll hv
    simpa [Wait.lateCalls] using hy.timeout hs hph hsampling hz ht
  · obtain ⟨x, hx, hpoll⟩ := reaches_ackPoll (q := stream v.samples ++ .fail :: rest) hs hcfg ho hl hw
      (by simpa using hr) hc
    obtain ⟨y, hy, hph, hsampling⟩ := hx.wait hpoll hv
    exact hy.readFailed (bs := []) hs hph hsampling.outstanding stopsOnFailure_sampled Nat.one_pos

/-- Settles O34: the two answers to an ack read that are no sentinel. -/
theorem ackReadFailures : Obligations.AckReadFailures := by
  intro s i opc cmd l v w rest c hs hcfg ho hl hw hv hc
  -- the ack read, with `q` next on XR
  have hread : ∀ q, s.rx = stream l.bytes ++ (stream v.samples ++ .byte ready :: q) →
      ∃ y, Reaches s i opc w q c (l.events ++ written s.cfg cmd ++ v.readyCalls s.cfg.tCall) y ∧
        y.phase = .ackPending ∧ y.outstanding = some ⟨.read 7 y.cfg.tCall, .ackArrived⟩ := by
    intro q hr
    obtain ⟨x, hx, hpoll⟩ := reaches_ackPoll hs hcfg ho hl hw hr hc
    exact hx.ready hpoll hv rfl
  refine ⟨fun st a hlen ha hr => ?_, fun bs hb hr => ?_⟩
  · obtain ⟨y, hy, hph, hout⟩ := hread (stream (st :: a) ++ rest) (by simpa [ready] using hr)
    refine hy.exec _ (runs_ackMismatch hout hlen ha hph hy.cleared ?_) (turn_of_rest hs _ _ _ _)
    simp [failedWith]
  · obtain ⟨y, hy, hph, hout⟩ := hread (stream bs ++ .fail :: rest) (by simpa [ready] using hr)
    exact hy.readFailed hs hph hout stopsOnFailure_ackArrived hb

/-- Settles O35: the two answers that end a response poll after a wait. -/
theorem responsePollFailures : Obligations.ResponsePollFailures := by
  intro s i opc cmd l m a v w rest c hs hcfg ho hl hm hw ha hv
  refine ⟨fun z t hz ht hr hc => ?_, fun hr hc => ?_⟩
  · obtain ⟨x, hx, hpoll⟩ := reaches_responsePoll (q := stream v.samples ++ .byte z :: rest) hs hcfg ho hl hm hw ha
      (by simpa using hr) hc
    obtain ⟨y, hy, hph, hsampling⟩ := hx.wait hpoll hv
    simpa [Wait.lateCalls] using hy.timeout hs hph hsampling hz ht
  · obtain ⟨x, hx, hpoll⟩ := reaches_responsePoll (q := stream v.samples ++ .fail :: rest) hs hcfg ho hl hm hw ha
      (by simpa using hr) hc
    obtain ⟨y, hy, hph, hsampling⟩ := hx.wait hpoll hv
    exact hy.readFailed (bs := []) hs hph hsampling.outstanding stopsOnFailure_sampled Nat.one_pos

/-- Settles O36: a failed read of the response, or the verdict on its header or on its body, ends the operation. -/
theorem responseReadFailures : Obligations.ResponseReadFailures := by
  intro s i opc cmd l m a v w rest c hs hcfg ho hl hm hw ha hv hc
  -- the response read, with `q` next on XR
  have hread : ∀ q, s.rx = stream (l.bytes ++ a.bytes) ++ (stream v.samples ++ .byte ready :: q) →
      ∃ y, Reaches s i opc w q c (l.events ++ a.events s.cfg cmd ++ v.readyCalls s.cfg.tCall) y ∧
        y.phase = .responsePending ∧ y.outstanding = some ⟨.read 6 y.cfg.tCall, .headerArrived⟩ := by
    intro q hr
    obtain ⟨x, hx, hpoll⟩ := reaches_responsePoll hs hcfg ho hl hm hw ha hr hc
    exact hx.ready hpoll hv rfl
  refine ⟨fun bs hb hr => ?_, fun st h e hlen he hr => ?_,
    fun st h len hlen hh => ⟨fun bs hb hr => ?_, fun b e hb he hr => ?_⟩⟩
  · obtain ⟨y, hy, hph, hout⟩ := hread (stream bs ++ .fail :: rest) (by simpa [ready] using hr)
    exact hy.readFailed hs hph hout stopsOnFailure_headerArrived hb
  · obtain ⟨y, hy, hph, hout⟩ := hread (stream (st :: h) ++ rest) (by simpa [ready] using hr)
    refine hy.exec _ (runs_badHeader hout hlen he hph hy.cleared ?_) (turn_of_rest hs _ _ _ _)
    simp [failedWith]
  · obtain ⟨y, hy, hph, hout⟩ := hread (stream (st :: h) ++ (stream bs ++ .fail :: rest)) (by simpa [ready] using hr)
    obtain ⟨z, hz, hzph, hzout⟩ := hy.goodHeader hph hout hlen hh
    simpa using hz.readFailed hs hzph hzout (stopsOnFailure_bodyArrived len) hb
  · obtain ⟨y, hy, hph, hout⟩ := hread (stream (st :: h) ++ (stream b ++ rest)) (by simpa [ready] using hr)
    obtain ⟨z, hz, hzph, hzout⟩ := hy.goodHeader hph hout hlen hh
    obtain ⟨-, hcap⟩ := Verdicts.header_ok hh
    refine hz.exec _ (runs_badBody hzout hb hcap he hzph hz.cleared ?_) (turn_of_rest hs _ _ _ _)
    simp [failedWith]

/-- Settles O30: BEGIN's second command is led to by a good reply to the first (`Leads.afterWake`): its reply, and its failed
write, end BEGIN as they end any command, and what waits for the write is the state in which it is sent (`exec_led_eq`). -/
theorem beginOutcomes : Obligations.BeginOutcomes := by
  refine ⟨rfl, fun s r w rest c ic ver rev sup hs hcfg hf hrsp hdata => ?_⟩
  have hl : Leads s.cfg .beginOp cmdSam _ := .afterWake hf hrsp (by rw [hdata]; rfl)
  refine ⟨fun r' hf' hw hr hc => ?_, fun hw hr hc => ?_, fun hw hr hc => ?_⟩
  · refine exec_led_replied hs hcfg rfl hl rfl hf' hw (by simpa using hr) hc fun u hu hop hcmd ha => ?_
    split
    case isTrue hrsp' =>
      rw [hrsp'] at ha
      exact endsIn_sam ha hcmd (.inr hop) hu (by simp [succeeded, cmdGfv, cmdSam, statusOk])
    case isFalse hrsp' => exact endsIn_mismatch ha hcmd hrsp' hu (by simp [failedWith, cmdGfv, cmdSam])
  · exact exec_led_writeFailed hs hcfg rfl hl hw hr hc
  · refine exec_led_eq hs hcfg rfl hl hw hr hc ?_ (turn_of_write_unanswered rfl rfl)
    refine (congrArg (Runs _) ?_).mpr (.refl _)
    rw [← show s.cleared = s from hs]
    simp [State.sending, State.setPhase, State.log, State.cleared, State.discardCommand, sentFrame, commandPayload,
      cmdGfv, cmdSam]

end Sys2Proof.Machine

/-! # Response frames at their command

A response frame that meets the header read of an Exchange, however its outstanding call was timed: both reads take it, and the
block goes on where the response-code check leads (44_dispatcher.md R243, R245 to R248). -/

namespace Sys2Proof.Machine

variable {s t u : State} {i : Instr} {tc : Nat} {st rsp : Byte} {d : List Byte}

/-- The two reads of a response, the header's issued before. -/
def responseReads (tCall tc : Nat) (st rsp : Byte) (d : List Byte) : List Event :=
  [.call (.read 6 tc) (.bytes (st :: responseHead d.length)),
    .call (.read (d.length + 4) tCall) (.bytes (responseBody rsp d))]

/-- The two reads have been answered by the header and the body of `rsp` and `d`, and the body is validated. -/
def State.sawResponse (s : State) (tc : Nat) (st rsp : Byte) (d : List Byte) : State :=
  { s with
    outstanding := none, hdrbuf := writeBytes s.hdrbuf 0 (st :: responseHead d.length)
    rxbuf := writeBytes s.rxbuf 0 (responseBody rsp d), rxlen := some (d.length + 4)
    plen := some (BitVec.ofNat 8 (d.length + 2)), events := s.events ++ responseReads s.cfg.tCall tc st rsp d }

theorem answered_sawResponse (hp : s.phase = .responsePending) (hd : d.length ≤ 253)
    (hc : d.length + 4 ≤ s.cfg.rxBodyCap) : Answered (s.sawResponse tc st rsp d) rsp d :=
  ⟨hp, ⟨_, rfl⟩, rfl, hc, hd⟩

/-- A response frame that fits, at the header read of an Exchange, makes the block go on where the response-code check
leads. -/
theorem exec_response_pending (hi : i.channel = .response) (henc : encode i = responseRead st rsp d) (hd : d.length ≤ 253)
    (hc : d.length + 4 ≤ s.cfg.rxBodyCap) (ho : s.outstanding = some ⟨.read 6 tc, .headerArrived⟩)
    (hp : s.phase = .responsePending) (h : EndsIn (s.sawResponse tc st rsp d) t) (hb : t.budget = s.budget)
    (ht : turn t = none) : exec i s = .next t := by
  have hlen := ofNat_toNat_of_le hd
  have hhead : Runs (s.deliver (responseRead st rsp d)) ((s.deliver (responseRead st rsp d)).sawHeader tc st
      (BitVec.ofNat 8 (d.length + 2)) (responseHead d.length) (stream (responseBody rsp d) ++ s.rx)) :=
    runs_sawHeader ho (responseHead_length _) (header_responseHead hd hc) (by simp [responseRead])
  rw [exec_delivered (.inr (.inr hi)), henc, receive]
  refine (hhead.trans (.one rfl (answerOf_read (b := responseBody rsp d) (r := s.rx) rfl (by simp [hlen])) (runRule_eq ?_)
    ?_)).advance ht
  · simp only [resume, wp_bind]
    rw [wp_bodyArrived (by simp [hlen]) (by
      rw [responseBody_length]
      exact hc), body_responseBody hd, afterVerdict_ok]
    refine (wp_afterResponse_pending (by exact hp)).mpr ?_
    simpa [EndsIn, State.sawResponse, responseReads, State.sawHeader, State.deliver, State.withPayload, State.log, hlen] using h
  · rw [hb]
    simp [State.budget, State.sawHeader]

/-- Where the response ends the operation, only the channels, the configuration and the events are left. -/
theorem exec_response_ends {es z : List Event} (hi : i.channel = .response) (henc : encode i = responseRead st rsp d)
    (hd : d.length ≤ 253) (hc : d.length + 4 ≤ s.cfg.rxBodyCap) (ho : s.outstanding = some ⟨.read 6 tc, .headerArrived⟩)
    (hp : s.phase = .responsePending)
    (H : ∀ u : State, u.cleared = { s.cleared with
          writeAnswers := s.writeAnswers, rx := s.rx, clock := s.clock
          events := s.events ++ responseReads s.cfg.tCall tc st rsp d } →
      u.operands = s.operands → u.cmd = s.cmd → Answered u rsp d →
      EndsIn u { s.cleared with
        writeAnswers := s.writeAnswers, rx := s.rx, clock := s.clock
        events := s.events ++ responseReads s.cfg.tCall tc st rsp d ++ z })
    (he : es = responseReads s.cfg.tCall tc st rsp d ++ z) :
    exec i s = .next { s.cleared with events := s.events ++ es } := by
  rw [he, ← List.append_assoc]
  exact exec_response_pending hi henc hd hc ho hp (H _ rfl rfl rfl (answered_sawResponse hp hd hc)) rfl
    (turn_of_not_outstanding rfl)

/-- A good reply to BEGIN's wake command leads to the write of the SAMConfiguration frame (44_dispatcher.md R248). -/
theorem endsIn_wake (ha : Answered u (cmdGfv + 1) d) (hcmd : u.cmd = some cmdGfv) (ho : u.operands = some .beginOp)
    (hd : d.length = 4) (hcfg : u.cfg.InRange) :
    EndsIn u ((((u.setPhase .done).setPhase .idle).discardCommand).sending cmdSam (commandPayload u.cfg cmdSam)) := by
  refine endsIn_criterion ha hcmd ho ?_
  rw [criterion, beginFinish, if_pos rfl, wp_bind, wp_gfvCriterion_answered ha]
  refine ⟨fun _ => ?_, fun hne => absurd hd hne⟩
  simp only [wp_bind, wp_setPhase, wp_modify, samExchange, wp_get]
  exact (wp_exchange (by exact hcfg.1) _).mpr rfl

/-- Settles O42: each row is a response of its own code whose data fits (`exec_response_pending`), and its command's criterion
says where the block goes on. -/
theorem wireResponseEndsCommand : Obligations.WireResponseEndsCommand := by
  intro s st tc hcfg ho hp
  have ⟨_, _, hcap, _⟩ := hcfg
  refine ⟨fun ic ver rev sup hop hcmd => ?_, fun ic ver rev sup hop hcmd hw => ?_, fun d hop hcmd hd hc => ?_,
    fun m d hop hcmd hd hc => ?_⟩
  · exact exec_response_ends (rsp := cmdGfv + 1) (d := [ic, ver, rev, sup]) rfl rfl (by simp) hcap ho hp
      (fun u hu huop hucmd ha => endsIn_version ha (hucmd.trans hcmd) (huop.trans hop) rfl hu rfl) rfl
  · have ha : Answered (s.sawResponse tc st (cmdGfv + 1) [ic, ver, rev, sup]) _ _ :=
      answered_sawResponse hp (by simp) hcap
    refine exec_response_pending rfl rfl (by simp) hcap ho hp ?_ rfl (turn_of_write_unanswered rfl hw)
    convert endsIn_wake ha hcmd hop rfl hcfg using 1
    simp [State.sawResponse, responseReads, State.sending, State.setPhase, State.log, State.discardCommand, sentFrame,
      commandPayload, cmdSam]
    exact ⟨rfl, rfl⟩
  · exact exec_response_ends (rsp := cmdSam + 1) rfl rfl hd hc ho hp
      (fun u hu huop hucmd ha => endsIn_sam ha (hucmd.trans hcmd) (huop ▸ hop) hu rfl) rfl
  · refine exec_response_ends (rsp := cmdInlpt + 1) rfl rfl hd hc ho hp
      (fun u hu huop hucmd ha => endsIn_target ha (hucmd.trans hcmd) (huop.trans hop) hu rfl) ?_
    show _ = _ ++ targetEnd (Verdicts.target ([0xD5, 0x4B] ++ d) s.cfg.uidCap)
    rcases Verdicts.target ([0xD5, 0x4B] ++ d) s.cfg.uidCap with e | _ | uid
    · rfl
    · rfl
    · rfl

end Sys2Proof.Machine

/-! # The parser

PARSE_TARGET from a block at rest (45_parser.md R290): it makes no call, so it is over at once, with the verdict on its payload. A
UID that is found goes through UIDBUF, whose capacity is then the CAP of the request in flight (10_state.md R40). -/

namespace Sys2Proof.Machine

variable {s : State} {R : Failure → State → Prop} {cap : Nat} {p : List Byte}

/-- A UID that ends inside the payload has the length that its record gives it. -/
theorem length_uid_of_record {u : Byte} (hend : 8 + u.toNat ≤ p.length) :
    ((p.drop 8).take u.toNat).length = u.toNat := by
  rw [List.length_take, List.length_drop]
  omega

/-- ParseTarget and its reply: what they leave is the end of the operation, whatever went through UIDBUF and UIDLEN. -/
theorem wp_parseTarget_replyTarget {Q : Unit → State → Prop} (hcap : cap = s.capacity .uid)
    (hnone : Verdicts.target p cap = .ok none → Q () (s.succeed statusNoTarget []))
    (hfound : ∀ uid, Verdicts.target p cap = .ok (some uid) → Q () (s.succeed statusOk uid))
    (herr : ∀ e, Verdicts.target p cap = .error e → R e s) :
    (do replyTarget (← parseTarget p cap)).wp s Q R := by
  rw [wp_bind]
  refine wp_parseTarget hcap (fun hv => ?_) (fun u hv hend hu => ?_) herr
  · exact (wp_replyTarget_false Q).mpr (hnone hv)
  · rw [wp_replyTarget_true (m := s.uidbuf) (n := u) rfl (length_uid_of_record hend) rfl (hcap ▸ hu), State.succeed_eq]
    -- the end of the operation clears UIDBUF and UIDLEN, so the reply is one from `s`
    have hreply := hfound _ hv
    rw [State.succeed_eq] at hreply
    exact hreply

/-- Settles O25: the reply (`wp_parseTarget_replyTarget`) and what ParseTarget writes (`wp_parseTarget`) both follow the verdict on
the payload. -/
theorem parseTargetChecksInOrder : Obligations.ParseTargetChecksInOrder := by
  refine fun s cap p => ⟨rfl, fun hs => request_end hs (runRule_eq ?_), Rule.run_eq_of_wp ?_⟩
  · refine wp_parseTarget_replyTarget (cap := cap.toNat) rfl (fun hv => ?_) (fun uid hv => ?_) (fun e hv => ?_) <;> rw [hv]
    · exact accept_succeed hs _ _ statusNoTarget []
    · exact accept_succeed hs _ _ statusOk uid
    · exact accept_fail hs _ _ e
  · refine wp_parseTarget rfl (fun hv => ?_) (fun u hv hend _ => ?_) (fun e hv => ?_) <;> rw [hv]
    -- UIDLEN is the record's length byte, which is the length of the UID
    simp only [length_uid_of_record hend, BitVec.ofNat_toNat, BitVec.setWidth_eq]

end Sys2Proof.Machine

/-! # The RES messages of an operation

An operation in flight is the only one until it ends, so whatever the block emits over an event, a run of events or a step
is a message of that operation (60_exceptions.md R312, R313, R318). -/

namespace Sys2Proof.Machine

variable {s t u : State} {i : Instr}

/-- From `s` to `t` only RES messages that may end `i` are emitted, and no other operation is in flight at `t`. -/
structure Serves (i : Instr) (s t : State) : Prop where
  events : ∃ new, t.events = s.events ++ new ∧ ∀ m, Event.result m ∈ new → mayAnswer i m
  operands : t.busy = true → t.operands = some i

theorem Serves.refl (hop : s.busy = true → s.operands = some i) : Serves i s s := ⟨⟨[], by simp, nofun⟩, hop⟩

theorem Serves.trans (h : Serves i s t) (h' : Serves i t u) : Serves i s u := by
  obtain ⟨new, hev, hm⟩ := h.events
  obtain ⟨new', hev', hm'⟩ := h'.events
  refine ⟨⟨new ++ new', by rw [hev', hev, List.append_assoc], fun m hmem => ?_⟩, h'.operands⟩
  rcases List.mem_append.mp hmem with hmem | hmem
  · exact hm m hmem
  · exact hm' m hmem

/-- One event that is no RES message. -/
theorem Serves.one {e : Event} (hev : t.events = s.events ++ [e]) (he : ∀ m, e ≠ .result m)
    (hop : t.busy = true → t.operands = some i) : Serves i s t :=
  ⟨⟨[e], hev, fun m hmem => absurd (List.mem_singleton.mp hmem).symm (he m)⟩, hop⟩

theorem serves_accept (s : State) {opc : Byte} : Serves i s (s.accept i opc) :=
  .one (e := .accepted opc) rfl nofun fun _ => rfl

theorem serves_applyReset (s : State) : Serves i s s.applyReset :=
  .one s.applyReset_events nofun fun hb => absurd (s.applyReset_busy.symm.trans hb) nofun

/-- A rule piece of `i` ends it with one of its own messages, or leaves it in flight. -/
theorem Turned.serves (h : Turned i s t) : Serves i s t := by
  obtain ⟨new, hev, -, -, -, hm⟩ := h.events
  refine ⟨⟨new, hev, hm⟩, fun hb => ?_⟩
  obtain ⟨hop, -⟩ := h.waits hb
  exact hop

/-- An event is one of the operation in flight. -/
theorem turn_serves (h : s.Inv) (hop : s.busy = true → s.operands = some i) (ht : turn s = some (.next t)) :
    Serves i s t := by
  obtain ⟨j, c, k, a, u, v, hj, -, hout, ha, heq, hturned⟩ := turn_turned h ht
  cases heq
  have hi : s.operands = some i := hop (h.busy_of_outstanding hout)
  cases hj.symm.trans hi
  obtain ⟨-, ⟨w, r, cl, rfl⟩, -⟩ := answerOf_some ha
  have hcall : Serves i s (State.answered { s with writeAnswers := w, rx := r, clock := cl } c a) :=
    .one (e := .call c a) rfl nofun fun _ => hj
  exact hcall.trans hturned.serves

theorem advance_serves (h : s.Inv) (hop : s.busy = true → s.operands = some i) (ht : advance s = .next t) :
    Serves i s t := by
  obtain ⟨hruns, -⟩ := advance_runs h ht
  refine (hruns.keeps (P := fun u => Serves i s u ∧ u.Inv) ?_ ⟨.refl hop, h⟩).1
  rintro u v ⟨hserves, hu⟩ hv
  obtain ⟨_, heq, hinv, -⟩ := turn_inv hu hv
  cases heq
  exact ⟨hserves.trans (turn_serves hu hserves.operands hv), hinv⟩

/-- A step of a busy block serves the operation in flight: it goes on, or a reset abandons it. -/
theorem step_serves (h : s.Inv) (hb : s.busy = true) (hop : s.operands = some i) (ht : step s = .next t) :
    Serves i s t := by
  cases stepped_of_next h ht with
  | reset => exact serves_applyReset s
  | goesOn _ _ hadv =>
    have hgo : Serves i s.dropOwed t := advance_serves h.dropOwed (fun _ => hop) hadv
    exact ⟨hgo.events, hgo.operands⟩
  | abandoned _ hb' => exact absurd (hb'.symm.trans hb) nofun
  | accepted _ hb' => exact absurd (hb'.symm.trans hb) nofun

/-- A request that a block with BUSY 0 runs is served from its acceptance on. -/
theorem exec_serves (h : s.Inv) (hb : s.busy = false) (hi : i.channel = .request) (ht : exec i s = .next t) :
    Serves i s t := by
  obtain ⟨opc, v, -, hv, hvinv, hexec⟩ := exec_accepts h hb hi
  have hstart : Serves i s v := (serves_accept s).trans hv.serves
  exact hstart.trans (advance_serves hvinv hstart.operands (hexec ▸ ht))

/-- Settles O49: over a step and over a request that is accepted, the block serves that one operation (`Serves`), whose rule
pieces each end it only with a message of its own (`Turned.serves`). -/
theorem onlyListedResults : Obligations.OnlyListedResults :=
  ⟨fun _ _ _ h hb hop ht => (step_serves h hb hop ht).events, fun _ _ _ h hb hi ht => (exec_serves h hb hi ht).events⟩

/-! ### Codes -/

/-- The STATUS values of the five failure classes (60_exceptions.md R310). -/
def failureStatuses : List Byte :=
  [statusTransportError, statusTimeout, statusFramingError, statusProtocolMismatch, statusBufferTooSmall]

theorem Failure.status_mem (e : Failure) : e.status ∈ failureStatuses := by
  cases e <;> simp [Failure.status, failureStatuses]

theorem msb_of_mem_failureStatuses : ∀ b ∈ failureStatuses, b.msb = true := by decide

/-- Settles O57: the tables of R310, R311 and R32 read off `successMsg`, `failureMsg` and `Phase.code`, an entry at a time;
bit 7 is set in each of the five STATUS values a failure can have (`Failure.status_mem`). -/
theorem resultCodes : Obligations.ResultCodes := by
  refine ⟨fun st d => rfl, fun e => msb_of_mem_failureStatuses e.status e.status_mem, fun p x y l n => ?_,
    rfl, rfl, rfl, rfl, rfl, rfl, rfl, rfl⟩
  exact ⟨rfl, rfl, rfl, rfl, rfl, rfl, rfl, rfl, rfl, rfl, rfl, rfl, rfl, rfl, rfl, rfl, rfl, rfl, rfl, rfl⟩

end Sys2Proof.Machine

/-! # Resets

A reset (70_reset_and_hazards.md R350) is `State.restart` after the answer to the outstanding call is discarded
(`State.dropAnswer`). What is discarded depends on what a channel brings, not on when: discarding at once and again when more
has come is discarding all of it then. -/

namespace Sys2Proof.Machine

variable {s u : State}

/-! ### Discarding and arriving -/

/-- What the agents answer further comes behind what the channels hold (20_memory.md R62). -/
def State.arrive (s : State) (w : List Bool) (r : List RxToken) (c : List Nat) : State :=
  { s with writeAnswers := s.writeAnswers ++ w, rx := s.rx ++ r, clock := s.clock ++ c }

theorem drop_after_drop_append {α : Type} (n : Nat) (l more : List α) :
    (l.drop n ++ more).drop (n - l.length) = (l ++ more).drop n := by
  rcases Nat.le_total n l.length with h | h
  · rw [Nat.sub_eq_zero_of_le h, List.drop_zero, List.drop_append_of_le_length h]
  · rw [List.drop_of_length_le h, List.nil_append, List.drop_append, List.drop_of_length_le h, List.nil_append]

/-- What is owed, discarded before more arrives and again after it, is discarded as if all had come at once. -/
theorem State.dropOwed_arrive_dropOwed (s : State) (w : List Bool) (r : List RxToken) (c : List Nat) :
    (s.dropOwed.arrive w r c).dropOwed = (s.arrive w r c).dropOwed := by
  simp only [State.dropOwed, State.arrive, dropReads_append s.owed.reads s.rx r, drop_after_drop_append,
    List.length_append, List.length_drop, State.mk.injEq, Owed.mk.injEq, true_and, and_true]
  omega

/-- Of the reads owed, one more at the end is discarded from where the others have left the stream. -/
theorem dropReads_append_singleton (ns : List Nat) (n : Nat) (ts : List RxToken) :
    dropReads ((dropReads ns ts).1 ++ [n]) (dropReads ns ts).2 = dropReads (ns ++ [n]) ts := by
  induction ns generalizing ts with
  | nil => rfl
  | cons k ns ih =>
    rcases h : dropRead k ts with ⟨_ | m, rest⟩
    · simpa only [dropReads, h, List.cons_append] using ih rest
    · obtain rfl : rest = [] := dropRead_pending h
      simp only [dropReads, h, List.cons_append, dropRead]

theorem drop_succ_sub_drop {α : Type} (n : Nat) (l : List α) :
    (l.drop n).drop (n - l.length + 1) = l.drop (n + 1) := by
  rw [List.drop_drop]
  rcases Nat.le_total n l.length with h | h
  · rw [Nat.sub_eq_zero_of_le h]
  · rw [List.drop_of_length_le (by omega), List.drop_of_length_le (by omega)]

/-- The answer to one more call is owed behind those owed before: it makes no difference whether what has come of those is
discarded first. -/
theorem State.dropOwed_abandonCall_dropOwed (s : State) :
    s.dropOwed.abandonCall.dropOwed = s.abandonCall.dropOwed := by
  rcases ho : s.outstanding with _ | ⟨call, k⟩
  · simp only [State.abandonCall, State.dropOwed_outstanding, ho, State.dropOwed_dropOwed]
  have hreads : dropReads (dropReads s.owed.reads s.rx).1 (dropReads s.owed.reads s.rx).2 = dropReads s.owed.reads s.rx := by
    simpa only [List.append_nil] using (dropReads_append s.owed.reads s.rx []).symm
  have hwrites := drop_after_drop_append s.owed.writes s.writeAnswers []
  have htimes := drop_after_drop_append s.owed.times s.clock []
  simp only [List.append_nil] at hwrites htimes
  cases call with
  | write f tc =>
    simp only [State.abandonCall, State.dropOwed, ho, Owed.add, hreads, htimes, drop_succ_sub_drop, List.length_drop,
      State.mk.injEq, Owed.mk.injEq, true_and, and_true]
    omega
  | read n tc =>
    simp only [State.abandonCall, State.dropOwed, ho, Owed.add, dropReads_append_singleton, hwrites, htimes,
      List.length_drop, State.mk.injEq, Owed.mk.injEq, true_and, and_true]
    omega
  | clock =>
    simp only [State.abandonCall, State.dropOwed, ho, Owed.add, hreads, hwrites, drop_succ_sub_drop, List.length_drop,
      State.mk.injEq, Owed.mk.injEq, true_and, and_true]
    omega

/-- Where the answer to the outstanding call comes, it is owed with the others and goes as they do. -/
theorem State.dropAnswer_of_late (h : s.lateAnswer = true) : s.dropAnswer = s.abandonCall.dropOwed := by
  rw [← s.dropOwed_abandonCall_dropOwed, State.dropAnswer, if_pos h]

/-- Abandoning the outstanding call takes nothing off a channel, so it does not matter what has arrived there. -/
theorem State.abandonCall_arrive (s : State) (w : List Bool) (r : List RxToken) (c : List Nat) :
    (s.arrive w r c).abandonCall = s.abandonCall.arrive w r c := by
  rcases ho : s.outstanding with _ | o <;> simp only [State.abandonCall, State.arrive, ho]

/-- What is discarded for a reset does not depend on what comes before it and what after. -/
theorem State.dropAnswer_arrive (h : s.lateAnswer = true) (w : List Bool) (r : List RxToken) (c : List Nat) :
    (s.dropAnswer.arrive w r c).dropOwed = (s.arrive w r c).dropAnswer := by
  rw [State.dropAnswer_of_late h, State.dropOwed_arrive_dropOwed, ← State.abandonCall_arrive,
    State.dropAnswer_of_late (s := s.arrive w r c) h]

/-- A call is answered from its own channel; nothing else changes. -/
theorem answerOf_eq {c : Call} {a : Answer} (h : answerOf c s = some (a, u)) :
    u = { s with writeAnswers := u.writeAnswers, rx := u.rx, clock := u.clock } := by
  obtain ⟨-, ⟨w, r, k, rfl⟩, -, -⟩ := answerOf_some h
  rfl

/-- With nothing owed before, an outstanding call whose answer has come is abandoned with exactly that answer. -/
theorem State.dropOwed_abandonCall_of_answer {o : Outstanding} {a : Answer} (ho : s.outstanding = some o)
    (hn : s.owed = .nothing) (h : answerOf o.call s = some (a, u)) : s.abandonCall.dropOwed = u := by
  obtain ⟨call, k⟩ := o
  cases call with
  | write f tc =>
    simp only [answerOf] at h
    split at h <;> cases h
    rename_i hw
    simp [State.abandonCall, State.dropOwed, ho, hn, hw, Owed.nothing, Owed.add, dropReads]
  | read n tc =>
    simp only [answerOf] at h
    split at h <;> cases h
    rename_i hr
    simp [State.abandonCall, State.dropOwed, ho, hn, Owed.nothing, Owed.add, dropReads, dropRead_of_takeRead hr]
  | clock =>
    simp only [answerOf] at h
    split at h <;> cases h
    rename_i hk
    simp [State.abandonCall, State.dropOwed, ho, hn, hk, Owed.nothing, Owed.add, dropReads]

/-- The reset takes just that answer, and nothing stays owed, whether or not it would come late. -/
theorem State.dropAnswer_of_answer {o : Outstanding} {a : Answer} (ho : s.outstanding = some o)
    (hn : s.owed = .nothing) (h : answerOf o.call s = some (a, u)) : s.dropAnswer = u := by
  have hu : u.owed = .nothing := by rw [answerOf_eq h]; exact hn
  rw [State.dropAnswer, State.dropOwed_of_nothing hn, State.dropOwed_abandonCall_of_answer ho hn h, hn, ← hu, ite_self]

theorem State.dropAnswer_dropOwed (s : State) : s.dropOwed.dropAnswer = s.dropAnswer := by
  simp only [State.dropAnswer, State.dropOwed_dropOwed, State.dropOwed_lateAnswer]

/-! ### The reset event -/

/-- What a reset does besides discarding an answer: one event, every element at its reset value, the line down. -/
def State.restart (s : State) : State := { (s.log .reset).cleared with resetLine := false }

theorem State.applyReset_eq_restart (s : State) : s.applyReset = s.dropAnswer.restart := rfl

/-- A restart does not look at the channels, nor at what is owed on them. -/
theorem State.restart_arrive (s : State) (w : List Bool) (r : List RxToken) (c : List Nat) :
    s.restart.arrive w r c = (s.arrive w r c).restart := rfl

theorem State.restart_dropOwed (s : State) : s.restart.dropOwed = s.dropOwed.restart := rfl

/-- What arrives after a reset leaves the block as if it had arrived before, where the abandoned answer comes. -/
theorem State.applyReset_arrive (h : s.lateAnswer = true) (w : List Bool) (r : List RxToken) (c : List Nat) :
    (s.applyReset.arrive w r c).dropOwed = (s.arrive w r c).applyReset := by
  rw [State.applyReset_eq_restart, State.restart_arrive, State.restart_dropOwed, State.dropAnswer_arrive h,
    State.applyReset_eq_restart]

theorem State.applyReset_atRest (s : State) : s.applyReset.AtRest := rfl

/-- With nothing owed, a reset takes the answer to the outstanding call where it is there. -/
theorem State.applyReset_of_answer {o : Outstanding} {a : Answer} (ho : s.outstanding = some o) (hn : s.owed = .nothing)
    (h : answerOf o.call s = some (a, u)) : s.applyReset = u.restart := by
  rw [State.applyReset_eq_restart, State.dropAnswer_of_answer ho hn h]

theorem State.applyReset_of_not_outstanding (h : s.outstanding = none) : s.applyReset = s.dropOwed.restart := by
  rw [State.applyReset_eq_restart, State.dropAnswer_of_not_outstanding h]

theorem State.applyReset_owed_of_not_late (h : s.lateAnswer = false) : s.applyReset.owed = s.dropOwed.owed := by
  simp [State.applyReset_eq, State.dropAnswer, h]

/-- The block discards what it is owed before it does anything else. -/
theorem step_dropOwed (s : State) : step s.dropOwed = step s := by
  simp only [step, State.dropOwed_resetLine, State.applyReset_eq_restart, State.dropAnswer_dropOwed,
    State.dropOwed_dropOwed]

theorem step_of_resetLine (h : s.resetLine = true) : step s = .next s.applyReset := by
  rw [step, if_pos h]

/-- Settles O53: the step is `State.applyReset`, and what it takes off the channels is `State.dropAnswer`, which is known
with no call outstanding and with a call whose answer is there. -/
theorem resetAbandonsOperation : Obligations.ResetAbandonsOperation := by
  intro s hr
  refine ⟨s.applyReset, step_of_resetLine hr, s.applyReset_atRest, s.applyReset_busy, s.applyReset_phase,
    s.applyReset_operands, s.applyReset_outstanding, s.applyReset_cfg, s.applyReset_offered, s.applyReset_resetLine,
    s.applyReset_resetOnAccept, s.applyReset_events, fun ho => ?_, fun c k a u ho hn ha => ?_⟩
  · rw [State.applyReset_of_not_outstanding ho]
    exact ⟨rfl, rfl, rfl, rfl⟩
  · have hu : u.owed = .nothing := by rw [answerOf_eq ha]; exact hn
    rw [State.applyReset_of_answer ho hn ha]
    exact ⟨rfl, rfl, rfl, hu⟩

/-! ### A reset on acceptance -/

theorem Instr.channel_of_opcode {i : Instr} {opc : Byte} (h : i.opcode = some opc) : i.channel = .request := by
  cases i <;> simp [Instr.opcode] at h <;> rfl

/-- A block at rest that accepts a request and is reset at once is as before, but for two events. -/
theorem State.abandonRequest_of_rest (hs : s.AtRest) (hr : s.resetLine = false) (i : Instr) (opc : Byte) :
    s.abandonRequest i opc =
      { s.dropOwed with resetOnAccept := false, events := s.events ++ [.accepted opc, .reset] } := by
  have ho : (s.accept i opc).outstanding = none :=
    (State.accept_outstanding s i opc).trans (outstanding_of_rest hs)
  rw [State.abandonRequest, State.applyReset_eq, State.dropAnswer_of_not_outstanding ho, accept_cleared hs]
  simp [State.dropOwed, hr]

/-- With BUSY 0 and a request first on REQ, the step takes it and runs it. -/
theorem step_of_offered {i : Instr} {rest : List (List Byte)} (hi : i.WellFormed = true) (hc : i.channel = .request)
    (hr : s.resetLine = false) (hb : s.busy = false) (hoff : s.offered = encode i :: rest) :
    step s = runItem i (s.taking rest) := by
  have hdec : decode .request (encode i) = .ok i := hc ▸ decode_encode hi
  have hf : fetch s.dropOwed = .item i (s.taking rest) := by
    simp [fetch, hb, fetchRequest, hoff, hdec, State.taking]
  simp [step, hr, hf]

/-- Settles O54: the request is taken off REQ and accepted, and the reset, with no call outstanding, leaves what was at
rest. -/
theorem resetOnAcceptAbandonsRequest : Obligations.ResetOnAcceptAbandonsRequest := by
  intro s i opc rest hi hopc hs hr ha hoff
  have hb : s.busy = false := by rw [← show s.cleared = s from hs]; rfl
  have htaking : (s.taking rest).AtRest := hs.with_channels _ _ _ _ _
  have hdrop : (s.taking rest).dropOwed = s.taking rest :=
    congrArg (fun t => { t with offered := rest }) s.dropOwed_dropOwed
  rw [step_of_offered hi (Instr.channel_of_opcode hopc) hr hb hoff,
    runItem_of_reset (s := s.taking rest) ha hb hopc, State.abandonRequest_of_rest htaking hr, hdrop]
  rfl

/-! ### A late answer -/

/-- Settles O55: an answer that comes after the reset goes as if it had come before (`State.applyReset_arrive`), where the
reset takes exactly it. -/
theorem lateAnswersAreDiscarded : Obligations.LateAnswersAreDiscarded := by
  refine ⟨fun s u w r c call k a hl hn ho ha => ?_, fun s w r c hl => s.applyReset_arrive hl w r c,
    fun s hl => s.applyReset_owed_of_not_late hl, fun s => (step_dropOwed s).symm⟩
  have hu : u = { s with writeAnswers := u.writeAnswers, rx := u.rx, clock := u.clock } :=
    answerOf_eq (s := s.arrive w r c) ha
  calc (s.applyReset.arrive w r c).dropOwed
      = (s.arrive w r c).applyReset := s.applyReset_arrive hl w r c
    _ = u.restart := State.applyReset_of_answer (s := s.arrive w r c) ho hn ha
    _ = { s.applyReset with writeAnswers := u.writeAnswers, rx := u.rx, clock := u.clock, owed := .nothing } := by
      rw [hu, ← hn, State.applyReset_eq]
      rfl

end Sys2Proof.Machine
